-- ==== Sys2Proof/Word.lean ====
section
/-! DEFINITION. The words of the engine (spec/00_scope.md R8): a host-window register word is 32 bits, a digit-group
slot 16 bits, a text byte 8 bits. -/

namespace Sys2Proof

/-- A register word of the host window, and a command word (R8, R55). -/
abbrev Word := BitVec 32

/-- A text byte (R8). -/
abbrev Byte := BitVec 8

/-- A digit-group slot as stored: any 16-bit value (R16, R17). -/
abbrev Group := BitVec 16

/-- A string of text bytes (R11). -/
abbrev Text := List Byte

end Sys2Proof
end

