-- ==== Sys2Proof/Config.lean ====
section
/-! DEFINITION. The implementation parameters (spec/00_scope.md R7, spec/93_implementation_defined.md I16..I19), the
constraints a model must keep, their defaults, and the values the spec leaves open. -/

namespace Sys2Proof.Config

/-- The parameters of R7. "A model takes each as an argument": State holds one such record, and no step changes it
(log entry 7). -/
structure Params where
  /-- N_S: digit groups of an S value -/
  nS : Nat
  /-- N_X: digit groups of an X value -/
  nX : Nat
  /-- EXP_MIN: least group exponent of a finite nonzero value -/
  expMin : Int
  /-- EXP_MAX: greatest group exponent of a finite nonzero value -/
  expMax : Int
  /-- NREG: how many value registers V0..V(NREG-1) exist -/
  nreg : Nat
  /-- TBUF_SIZE: bytes of the text buffer -/
  tbufSize : Nat
  /-- MAX_SIG: display digit budget of the formatter -/
  maxSig : Nat
  /-- MAX_PARSE_DIGITS: maximum digit count of a parsed mantissa -/
  maxParseDigits : Nat
  /-- SENTINEL: truncation sentinel character -/
  sentinel : Byte
  deriving DecidableEq, Repr

/-- The defaults of R7, which every vector of 95_test_vectors.md uses. -/
def default : Params where
  nS := 7
  nX := 15
  expMin := -8192
  expMax := 8191
  nreg := 8
  tbufSize := 256
  maxSig := 12
  maxParseDigits := 28
  sentinel := 0x2A#8

/-- The constraints of R7 ("Constraints a model must keep"; TBUF_SIZE is "a multiple of 4, at most 256"). -/
def Params.valid (c : Params) : Bool :=
  1 ≤ c.nS && c.nS < c.nX && c.nX ≤ 31 &&
  1 ≤ c.nreg && c.nreg ≤ 8 &&
  -8192 ≤ c.expMin && c.expMin ≤ 0 && 0 ≤ c.expMax && c.expMax ≤ 8191 &&
  4 ≤ c.tbufSize && c.tbufSize ≤ 256 && c.tbufSize % 4 == 0 &&
  1 ≤ c.maxSig && c.maxSig ≤ 16 &&
  1 ≤ c.maxParseDigits

/-- FREE VALUE (I1, R132): the value byte `addr` of TBUF holds after the `epoch`-th power-on reset. It has no body
that a proof can use: a statement about such a byte holds for every value of it (log entries 1, 2). -/
opaque tbufDraw : (epoch addr : Nat) → Byte

/-- OPEN PARAMETER T_CMD (R140, I19, D42): the duration of one command. No rule depends on it (log entry 8). -/
opaque tCmd : Nat

end Sys2Proof.Config
end

