-- ==== Sys2Proof/Syntax.lean ====
section
/-! DEFINITION. The commands: one constructor for each row of spec/opcode_table.json (spec/30_encoding.md R56..R61). -/

namespace Sys2Proof

/-- The P field and the PREC tag: single (0) or extended (1) precision (R16, R56). -/
inductive Prec
  | S
  | X
  deriving DecidableEq, Repr

/-- The number of a value register V0..V7, a 3-bit field (R57). -/
abbrev RegId := Fin 8

/-- FMT's MODE field (R59): 0 FIX, 1 SCI, 2 ENG, 3 ALL. -/
inductive Mode
  | fix
  | sci
  | eng
  | all
  deriving DecidableEq, Repr

/-- The LOC field (R59, R60): `point` is LOC = 0 (radix `.`, separator `,`), `comma` is LOC = 1 (radix `,`,
separator `.`). -/
inductive Loc
  | point
  | comma
  deriving DecidableEq, Repr

/-- A command (R61). -/
inductive Instr
  | nop
  | add (p : Prec) (rd ra rb : RegId)
  | sub (p : Prec) (rd ra rb : RegId)
  | mul (p : Prec) (rd ra rb : RegId)
  | div (p : Prec) (rd ra rb : RegId)
  | sqrt (p : Prec) (rd ra : RegId)
  | cmp (p : Prec) (ra rb : RegId)
  | floor (p : Prec) (rd ra : RegId)
  | trunc (p : Prec) (rd ra : RegId)
  | neg (p : Prec) (rd ra : RegId)
  | iszero (p : Prec) (ra : RegId)
  | isinf (p : Prec) (ra : RegId)
  | isnan (p : Prec) (ra : RegId)
  | isint (p : Prec) (ra : RegId)
  | mov (rd ra : RegId)
  | ldi (p : Prec) (rd : RegId) (imm : BitVec 16)
  | cvti (p : Prec) (rd : RegId)
  | cvtsx (rd ra : RegId)
  | cvtxs (rd ra : RegId)
  | fmt (p : Prec) (ra : RegId) (mode : Mode) (dig : BitVec 4) (grp : Bool) (loc : Loc) (cap : BitVec 8)
  | parse (p : Prec) (rd : RegId) (loc : Loc) (len : BitVec 8)
  deriving DecidableEq, Repr

end Sys2Proof
end

