-- ==== Sys2Proof/WellFormed.lean ====
section
/-! DEFINITION. Which commands are well formed: every register field a command uses names an existing register
(spec/30_encoding.md R57, R62, R63). Every value of every other field is legal (R58, R59, R60). -/

namespace Sys2Proof

/-- The RD field a command uses (R61). -/
def Instr.rd? : Instr → Option RegId
  | .nop => none
  | .add _ rd _ _ => some rd
  | .sub _ rd _ _ => some rd
  | .mul _ rd _ _ => some rd
  | .div _ rd _ _ => some rd
  | .sqrt _ rd _ => some rd
  | .cmp _ _ _ => none
  | .floor _ rd _ => some rd
  | .trunc _ rd _ => some rd
  | .neg _ rd _ => some rd
  | .iszero _ _ => none
  | .isinf _ _ => none
  | .isnan _ _ => none
  | .isint _ _ => none
  | .mov rd _ => some rd
  | .ldi _ rd _ => some rd
  | .cvti _ rd => some rd
  | .cvtsx rd _ => some rd
  | .cvtxs rd _ => some rd
  | .fmt _ _ _ _ _ _ _ => none
  | .parse _ rd _ _ => some rd

/-- The RA field a command uses (R61). -/
def Instr.ra? : Instr → Option RegId
  | .nop => none
  | .add _ _ ra _ => some ra
  | .sub _ _ ra _ => some ra
  | .mul _ _ ra _ => some ra
  | .div _ _ ra _ => some ra
  | .sqrt _ _ ra => some ra
  | .cmp _ ra _ => some ra
  | .floor _ _ ra => some ra
  | .trunc _ _ ra => some ra
  | .neg _ _ ra => some ra
  | .iszero _ ra => some ra
  | .isinf _ ra => some ra
  | .isnan _ ra => some ra
  | .isint _ ra => some ra
  | .mov _ ra => some ra
  | .ldi _ _ _ => none
  | .cvti _ _ => none
  | .cvtsx _ ra => some ra
  | .cvtxs _ ra => some ra
  | .fmt _ ra _ _ _ _ _ => some ra
  | .parse _ _ _ _ => none

/-- The RB field a command uses (R61). -/
def Instr.rb? : Instr → Option RegId
  | .nop => none
  | .add _ _ _ rb => some rb
  | .sub _ _ _ rb => some rb
  | .mul _ _ _ rb => some rb
  | .div _ _ _ rb => some rb
  | .sqrt _ _ _ => none
  | .cmp _ _ rb => some rb
  | .floor _ _ _ => none
  | .trunc _ _ _ => none
  | .neg _ _ _ => none
  | .iszero _ _ => none
  | .isinf _ _ => none
  | .isnan _ _ => none
  | .isint _ _ => none
  | .mov _ _ => none
  | .ldi _ _ _ => none
  | .cvti _ _ => none
  | .cvtsx _ _ => none
  | .cvtxs _ _ => none
  | .fmt _ _ _ _ _ _ _ => none
  | .parse _ _ _ _ => none

/-- A register field names an existing register, or the command does not use it (R57). -/
def regOk (c : Config.Params) (f : Option RegId) : Bool :=
  f.all (fun k => k.val < c.nreg)

/-- Every register field the command uses is below NREG (R62, R63). -/
def Instr.wellFormed (c : Config.Params) (i : Instr) : Bool :=
  regOk c i.rd? && regOk c i.ra? && regOk c i.rb?

end Sys2Proof
end

