-- ==== Sys2Proof/Decode.lean ====
section
/-! DEFINITION. The decoder, total on every 32-bit word and rejecting by name (spec/30_encoding.md R56..R63), and the
encoder, written from the same tables. -/

namespace Sys2Proof

/-! ## Fields of the command word (R56) -/

/-- OP, bits [31:26] (R56). -/
def opField (w : Word) : BitVec 6 := w.extractLsb' 26 6

/-- P, bit [25] (R56): 0 = S, 1 = X. -/
def precField (w : Word) : Prec := if w.extractLsb' 25 1 = 1#1 then .X else .S

/-- RD, bits [24:22] (R56, R57). -/
def rdField (w : Word) : RegId := (w.extractLsb' 22 3).toFin

/-- RA, bits [21:19] (R56, R57). -/
def raField (w : Word) : RegId := (w.extractLsb' 19 3).toFin

/-- RB, bits [18:16] (R56, R57). -/
def rbField (w : Word) : RegId := (w.extractLsb' 16 3).toFin

/-- AUX, bits [15:0] (R56). -/
def auxField (w : Word) : BitVec 16 := w.extractLsb' 0 16

/-- FMT's MODE, AUX[15:14] (R59). -/
def modeField (aux : BitVec 16) : Mode :=
  if aux.extractLsb' 14 2 = 0#2 then .fix
  else if aux.extractLsb' 14 2 = 1#2 then .sci
  else if aux.extractLsb' 14 2 = 2#2 then .eng
  else .all

/-- FMT's DIG, AUX[13:10] (R59). -/
def digField (aux : BitVec 16) : BitVec 4 := aux.extractLsb' 10 4

/-- FMT's GRP, AUX[9] (R59). -/
def grpField (aux : BitVec 16) : Bool := aux.extractLsb' 9 1 = 1#1

/-- LOC, AUX[8] (R59, R60). -/
def locField (aux : BitVec 16) : Loc := if aux.extractLsb' 8 1 = 1#1 then .comma else .point

/-- FMT's CAP and PARSE's LEN, AUX[7:0] (R59, R60). -/
def lowByteField (aux : BitVec 16) : BitVec 8 := aux.extractLsb' 0 8

/-! ## The opcode map (R61) -/

/-- One row of the match and mask table of R61: a word `w` selects the row when `w & mask = value`; `build` reads the
row's operand fields. -/
structure OpcodeRow where
  value : Word
  mask  : Word
  build : Word → Instr

/-- The rows of R61, arithmetic and comparison. -/
def opcodeRowsLow : List OpcodeRow := [
  ⟨0x00000000#32, 0xFFFFFFFF#32, fun _ => .nop⟩,
  ⟨0x04000000#32, 0xFC00FFFF#32, fun w => .add (precField w) (rdField w) (raField w) (rbField w)⟩,
  ⟨0x08000000#32, 0xFC00FFFF#32, fun w => .sub (precField w) (rdField w) (raField w) (rbField w)⟩,
  ⟨0x0C000000#32, 0xFC00FFFF#32, fun w => .mul (precField w) (rdField w) (raField w) (rbField w)⟩,
  ⟨0x10000000#32, 0xFC00FFFF#32, fun w => .div (precField w) (rdField w) (raField w) (rbField w)⟩,
  ⟨0x14000000#32, 0xFC07FFFF#32, fun w => .sqrt (precField w) (rdField w) (raField w)⟩,
  ⟨0x18000000#32, 0xFDC0FFFF#32, fun w => .cmp (precField w) (raField w) (rbField w)⟩,
  ⟨0x1C000000#32, 0xFC07FFFF#32, fun w => .floor (precField w) (rdField w) (raField w)⟩,
  ⟨0x20000000#32, 0xFC07FFFF#32, fun w => .trunc (precField w) (rdField w) (raField w)⟩,
  ⟨0x24000000#32, 0xFC07FFFF#32, fun w => .neg (precField w) (rdField w) (raField w)⟩]

/-- The rows of R61, tests, moves, conversions and text. -/
def opcodeRowsHigh : List OpcodeRow := [
  ⟨0x28000000#32, 0xFDC7FFFF#32, fun w => .iszero (precField w) (raField w)⟩,
  ⟨0x2C000000#32, 0xFDC7FFFF#32, fun w => .isinf (precField w) (raField w)⟩,
  ⟨0x30000000#32, 0xFDC7FFFF#32, fun w => .isnan (precField w) (raField w)⟩,
  ⟨0x34000000#32, 0xFDC7FFFF#32, fun w => .isint (precField w) (raField w)⟩,
  ⟨0x38000000#32, 0xFE07FFFF#32, fun w => .mov (rdField w) (raField w)⟩,
  ⟨0x3C000000#32, 0xFC3F0000#32, fun w => .ldi (precField w) (rdField w) (auxField w)⟩,
  ⟨0x40000000#32, 0xFC3FFFFF#32, fun w => .cvti (precField w) (rdField w)⟩,
  ⟨0x44000000#32, 0xFE07FFFF#32, fun w => .cvtsx (rdField w) (raField w)⟩,
  ⟨0x48000000#32, 0xFE07FFFF#32, fun w => .cvtxs (rdField w) (raField w)⟩,
  ⟨0x4C000000#32, 0xFDC70000#32, fun w => .fmt (precField w) (raField w) (modeField (auxField w)) (digField (auxField w))
      (grpField (auxField w)) (locField (auxField w)) (lowByteField (auxField w))⟩,
  ⟨0x50000000#32, 0xFC3FFE00#32, fun w => .parse (precField w) (rdField w) (locField (auxField w))
      (lowByteField (auxField w))⟩]

/-- The opcode map, one row for each command in the table's order (R61). -/
def opcodeRows : List OpcodeRow := opcodeRowsLow ++ opcodeRowsHigh

/-- The row whose match and mask select `w` (R61, R63). -/
def selectRow (w : Word) : Option OpcodeRow := opcodeRows.find? (fun r => w &&& r.mask == r.value)

/-- Why a word is illegal (R62). The engine reports one code for all three causes (R118, R120). -/
inductive Illegal
  /-- OP is 0x15..0x3F -/
  | reservedOp
  /-- a field the opcode map marks 0 is nonzero -/
  | nonzeroField
  /-- a used register field is >= NREG -/
  | badRegister
  deriving DecidableEq, Repr

/-- The decoder: every word is exactly one row's command or is rejected by name (R62, R63). -/
def decode (c : Config.Params) (w : Word) : Except Illegal Instr :=
  match selectRow w with
  | none => if (opField w).toNat < 0x15 then .error .nonzeroField else .error .reservedOp
  | some r => if (r.build w).wellFormed c then .ok (r.build w) else .error .badRegister

/-- The instruction the decoder reads from a table word: bit 0 of `w` is bit 0 of the one command word (R55), which is
written whole to CMD; the parameters are the defaults. -/
def decodeTableWord (nbits w : Nat) : Option Instr :=
  (decode Config.default (BitVec.ofNat 32 (w % 2 ^ nbits))).toOption

/-! ## The encoder (R56, R59, R60, R61) -/

/-- The P bit of a precision (R56). -/
def Prec.bit : Prec → BitVec 1
  | .S => 0#1
  | .X => 1#1

/-- The MODE bits (R59). -/
def Mode.bits : Mode → BitVec 2
  | .fix => 0#2
  | .sci => 1#2
  | .eng => 2#2
  | .all => 3#2

/-- The LOC bit (R59, R60). -/
def Loc.bit : Loc → BitVec 1
  | .point => 0#1
  | .comma => 1#1

/-- A register number as its 3-bit field (R57). -/
def regBits (k : RegId) : BitVec 3 := BitVec.ofFin k

/-- The word {OP, P, RD, RA, RB, AUX} (R56). -/
def commandWord (op : BitVec 6) (p : BitVec 1) (rd ra rb : BitVec 3) (aux : BitVec 16) : Word :=
  op ++ p ++ rd ++ ra ++ rb ++ aux

/-- FMT's AUX: {MODE, DIG, GRP, LOC, CAP} (R59). -/
def fmtAux (mode : Mode) (dig : BitVec 4) (grp : Bool) (loc : Loc) (cap : BitVec 8) : BitVec 16 :=
  mode.bits ++ dig ++ BitVec.ofBool grp ++ loc.bit ++ cap

/-- PARSE's AUX: {0000000, LOC, LEN} (R60). -/
def parseAux (loc : Loc) (len : BitVec 8) : BitVec 16 := 0#7 ++ loc.bit ++ len

/-- The word of a command: the opcode and fields of R61, every field the map marks 0 being zero. -/
def encode : Instr → Word
  | .nop => commandWord 0x00#6 0#1 0#3 0#3 0#3 0#16
  | .add p rd ra rb => commandWord 0x01#6 p.bit (regBits rd) (regBits ra) (regBits rb) 0#16
  | .sub p rd ra rb => commandWord 0x02#6 p.bit (regBits rd) (regBits ra) (regBits rb) 0#16
  | .mul p rd ra rb => commandWord 0x03#6 p.bit (regBits rd) (regBits ra) (regBits rb) 0#16
  | .div p rd ra rb => commandWord 0x04#6 p.bit (regBits rd) (regBits ra) (regBits rb) 0#16
  | .sqrt p rd ra => commandWord 0x05#6 p.bit (regBits rd) (regBits ra) 0#3 0#16
  | .cmp p ra rb => commandWord 0x06#6 p.bit 0#3 (regBits ra) (regBits rb) 0#16
  | .floor p rd ra => commandWord 0x07#6 p.bit (regBits rd) (regBits ra) 0#3 0#16
  | .trunc p rd ra => commandWord 0x08#6 p.bit (regBits rd) (regBits ra) 0#3 0#16
  | .neg p rd ra => commandWord 0x09#6 p.bit (regBits rd) (regBits ra) 0#3 0#16
  | .iszero p ra => commandWord 0x0A#6 p.bit 0#3 (regBits ra) 0#3 0#16
  | .isinf p ra => commandWord 0x0B#6 p.bit 0#3 (regBits ra) 0#3 0#16
  | .isnan p ra => commandWord 0x0C#6 p.bit 0#3 (regBits ra) 0#3 0#16
  | .isint p ra => commandWord 0x0D#6 p.bit 0#3 (regBits ra) 0#3 0#16
  | .mov rd ra => commandWord 0x0E#6 0#1 (regBits rd) (regBits ra) 0#3 0#16
  | .ldi p rd imm => commandWord 0x0F#6 p.bit (regBits rd) 0#3 0#3 imm
  | .cvti p rd => commandWord 0x10#6 p.bit (regBits rd) 0#3 0#3 0#16
  | .cvtsx rd ra => commandWord 0x11#6 0#1 (regBits rd) (regBits ra) 0#3 0#16
  | .cvtxs rd ra => commandWord 0x12#6 0#1 (regBits rd) (regBits ra) 0#3 0#16
  | .fmt p ra mode dig grp loc cap => commandWord 0x13#6 p.bit 0#3 (regBits ra) 0#3 (fmtAux mode dig grp loc cap)
  | .parse p rd loc len => commandWord 0x14#6 p.bit (regBits rd) 0#3 0#3 (parseAux loc len)

end Sys2Proof
end

