-- ==== Sys2Proof/Machine/State.lean ====
section
/-! DEFINITION. The state of the engine (spec/10_state.md), the host's accesses it has yet to perform
(spec/20_memory.md), the ways a step can stop, and the state after power-on reset (R41, R132). -/

namespace Sys2Proof.Machine

/-- Why the machine stops. -/
inductive Fault
  /-- Raised by `step` when the next host access is not a 32-bit access to a 4-byte-aligned offset inside
  0x0000..0x1FFF (R48, I2: "A model gives a refused access no step of the engine"). SAFE: the hardware answers with an
  error response and goes on with its state unchanged; nothing is proved about that. The engine's own faults (R118)
  are no stops: they write STATUS.FAULT and the run goes on. -/
  | refusedAccess
  deriving DecidableEq, Repr

/-- Why the model gives no meaning. -/
inductive Refusal
  /-- An arm of `exec` that has no meaning yet, by its mnemonic. Raised by no arm of this model. SAFE. -/
  | notModelled (mnemonic : String)
  deriving DecidableEq, Repr

/-- The record a value register holds (R16). -/
structure VReg where
  /-- precision tag PREC -/
  prec : Prec
  /-- digit-group slots g[0..N_X-1], group 0 the most significant -/
  g    : List Group
  /-- 14-bit two's-complement group exponent EXP -/
  exp  : BitVec 14
  /-- sign NEG, true = negative -/
  neg  : Bool
  /-- Infinity bit INF -/
  inf  : Bool
  /-- Not-a-Number bit NAN -/
  nan  : Bool
  deriving DecidableEq, Repr

/-- STATUS.OUTCOME, the six range and syntax outcomes (R29). -/
inductive RangeOutcome
  | ok
  | posOverflow
  | negOverflow
  | posUnderflow
  | negUnderflow
  | syntaxError
  deriving DecidableEq, Repr

/-- STATUS.CMP, the comparison result (R30). -/
inductive CmpResult
  | eq
  | lt
  | gt
  | un
  deriving DecidableEq, Repr

/-- The nonzero codes of STATUS.FAULT (R118). -/
inductive FaultCode
  | illegalCmd
  | badOperand
  | badBuffer
  deriving DecidableEq, Repr

/-- The fields of STATUS (R28). The register is read-only to the host and its reserved bits read 0, so no other bit of
it exists; `Status.word` of Flags.lean is the word the host reads. -/
structure Status where
  /-- OUTCOME [2:0] (R29) -/
  outcome : RangeOutcome
  /-- CMP [4:3] (R30) -/
  cmp     : CmpResult
  /-- T [5] (R31) -/
  t       : Bool
  /-- FAULT [11:8], none = code 0 (R32) -/
  fault   : Option FaultCode
  /-- LEN [23:16] (R33) -/
  len     : BitVec 8
  deriving DecidableEq, Repr

/-- TBUF (R39): the bytes written since power-on as (offset, byte) pairs, offsets strictly rising. An offset that is
not listed has not been written, and the byte there is the power-on draw (I1, log entry 1). -/
abbrev Memory := List Host.Cell

/-- The width of a host access. Only `word`, 32 bits, is performed (R48). -/
inductive Width
  | byte
  | half
  | word
  | double
  deriving DecidableEq, Repr

/-- What the outside world does to the engine: an access to the host window at a byte offset (R42, R48), or the reset
input (R132). -/
inductive HostAccess
  | read (width : Width) (off : Nat)
  | write (width : Width) (off : Nat) (data : Word)
  | resetInput
  deriving DecidableEq, Repr

/-- The whole state (R15, R28, R36, R39, R41), the parameters (R7) and the model's own input and output. -/
structure State where
  /-- the parameters of R7, read by the host as CONFIG0 and CONFIG1 (R37); no step changes them -/
  cfg     : Config.Params
  /-- the value registers V0..V(NREG-1) (R15); those from NREG up do not exist and keep their reset value -/
  v       : Vector VReg 8
  /-- STATUS (R28) -/
  status  : Status
  /-- INTIN (R36) -/
  intin   : BitVec 64
  /-- TBUF (R39) -/
  tbuf    : Memory
  /-- MODEL'S OWN: which power-on draw TBUF's unwritten bytes hold (log entry 2) -/
  epoch   : Nat
  /-- MODEL'S OWN: the host accesses issued and not yet performed, the next one first (R50, log entry 3) -/
  pending : List HostAccess
  /-- MODEL'S OWN: the word the last performed host read returned (R49, log entry 3) -/
  rdata   : Option Word
  deriving DecidableEq, Repr

/-- The canonical S zero every value register holds after reset (R25, R41). -/
def VReg.reset (c : Config.Params) : VReg where
  prec := .S
  g := List.replicate c.nX 0#16
  exp := 0#14
  neg := false
  inf := false
  nan := false

/-- STATUS after reset: every field 0 (R41, R132). -/
def Status.reset : Status where
  outcome := .ok
  cmp := .eq
  t := false
  fault := none
  len := 0#8

/-- The state after power-on of an engine with parameters `c` (R41, R132), with no host access issued. -/
def State.powerOn (c : Config.Params) : State where
  cfg := c
  v := Vector.replicate 8 (VReg.reset c)
  status := Status.reset
  intin := 0#64
  tbuf := []
  epoch := 0
  pending := []
  rdata := none

/-- The machine right after power-on reset, at the default parameters of R7 (R41, R132). -/
def State.reset : State := State.powerOn Config.default

end Sys2Proof.Machine
end

