-- ==== Sys2Proof/Machine/Operands.lean ====
section
/-! DEFINITION. Reading a value register: its class, well-formedness, significand and exponent; the canonical images a
command writes; and the storage image the host sees (spec/10_state.md R16..R26). -/

namespace Sys2Proof.Machine

open Config (Params)

/-- The base of a digit group (R6). -/
def base : Nat := 10000

/-- N_p, the group count of precision p (R7, R26). -/
def groupCount (c : Params) : Prec → Nat
  | .S => c.nS
  | .X => c.nX

/-! ## Groups (R16) -/

/-- Group i as an integer (R16). -/
def VReg.groupAt (x : VReg) (i : Nat) : Nat := (x.g.getD i 0#16).toNat

/-- Groups 0..n-1 as integers. -/
def VReg.groups (n : Nat) (x : VReg) : List Nat := (List.range n).map x.groupAt

/-- Groups 0..n-1 are all 0. -/
def VReg.groupsZero (n : Nat) (x : VReg) : Bool := (x.groups n).all (· == 0)

/-! ## Class (R20, R21) -/

/-- NaN: `nan = 1`, whatever the other fields hold (R20). -/
def VReg.isNaN (x : VReg) : Bool := x.nan

/-- Infinity: `nan = 0` and `inf = 1` (R20). -/
def VReg.isInf (x : VReg) : Bool := !x.nan && x.inf

/-- Finite: both special bits clear (R20). -/
def VReg.isFinite (x : VReg) : Bool := !x.nan && !x.inf

/-- Zero at a precision of `n` groups: finite with groups 0..n-1 all 0 (R21). -/
def VReg.isZero (n : Nat) (x : VReg) : Bool := x.isFinite && x.groupsZero n

/-! ## Value (R13) -/

/-- The integer whose base-10000 digits are `gs`, the first the most significant. -/
def fromGroups (gs : List Nat) : Nat := gs.foldl (fun acc d => acc * base + d) 0

/-- The significand: groups 0..n-1 read as one integer, so that
`|val(x)| = sig * 10000^(e - (n-1))` (R13). -/
def VReg.sig (n : Nat) (x : VReg) : Nat := fromGroups (x.groups n)

/-- The group exponent `sext_14(EXP)` (R19). -/
def VReg.e (x : VReg) : Int := x.exp.toInt

/-- The exponent of the significand's last group. -/
def VReg.low (n : Nat) (x : VReg) : Int := x.e - ((n : Int) - 1)

/-! ## Well-formedness (R23) -/

/-- Case (c) of R23 at a precision of `n` groups: every group of the precision <= 9999, every further group 0, and
either a zero or normalized with its exponent in range. -/
def VReg.wfFinite (c : Params) (n : Nat) (x : VReg) : Bool :=
  (x.groups n).all (· ≤ 9999) &&
  (List.range c.nX).all (fun i => i < n || x.groupAt i == 0) &&
  (x.groupsZero n || (x.groupAt 0 != 0 && decide (c.expMin ≤ x.e) && decide (x.e ≤ c.expMax)))

/-- `WF_p(x)` (R23). -/
def VReg.wf (c : Params) (p : Prec) (x : VReg) : Bool :=
  x.prec == p && (x.nan || x.inf || x.wfFinite c (groupCount c p))

/-! ## Canonical results (R25) -/

/-- A register image of precision `p` whose leading groups are `gs` and whose other groups, up to N_X, are 0. -/
def mkImage (c : Params) (p : Prec) (gs : List Nat) (e : Int) (neg inf nan : Bool) : VReg where
  prec := p
  g := gs.map (BitVec.ofNat 16) ++ List.replicate (c.nX - gs.length) 0#16
  exp := BitVec.ofInt 14 e
  neg := neg
  inf := inf
  nan := nan

/-- The canonical zero (R25). -/
def zeroV (c : Params) (p : Prec) : VReg := mkImage c p [] 0 false false false

/-- The canonical NaN (R25). -/
def nanV (c : Params) (p : Prec) : VReg := mkImage c p [] 0 false false true

/-- The canonical Infinity of sign `neg` (R25). -/
def infV (c : Params) (p : Prec) (neg : Bool) : VReg := mkImage c p [] 0 neg true false

/-- A finite result with groups `gs`, group exponent `e` and sign `neg` (R25). -/
def finiteV (c : Params) (p : Prec) (gs : List Nat) (e : Int) (neg : Bool) : VReg :=
  mkImage c p gs e neg false false

/-- The finite value of precision `p` with the first `n` groups and the exponent of `x` and the sign `neg`: the exact
copies of R74, R90 and R95. -/
def copyFinite (c : Params) (p : Prec) (n : Nat) (x : VReg) (neg : Bool) : VReg :=
  finiteV c p (x.groups n) x.e neg

/-- `x` is a canonical image of precision `p` (R25): zero, NaN, Infinity, or finite and normalized with groups
N_p..N_X-1 zero. -/
def VReg.canonical (c : Params) (p : Prec) (x : VReg) : Bool :=
  x == zeroV c p || x == nanV c p || x == infV c p x.neg ||
  (x.prec == p && x.isFinite && x.g.length == c.nX && x.wfFinite c (groupCount c p) && x.groupAt 0 != 0)

/-! ## Storage image (R17) -/

/-- The PREC bit (R17): 0 = S, 1 = X. -/
def precBit : Prec → BitVec 1
  | .S => 0#1
  | .X => 1#1

/-- The trailer word {PREC[31], 0[30:17], NEG[16], NAN[15], INF[14], EXP[13:0]} (R17). -/
def VReg.trailer (x : VReg) : Word :=
  precBit x.prec ++ 0#14 ++ BitVec.ofBool x.neg ++ BitVec.ofBool x.nan ++ BitVec.ofBool x.inf ++ x.exp

/-- A host write of the trailer word: the reserved bits [30:17] are ignored (R17). -/
def VReg.setTrailer (x : VReg) (w : Word) : VReg :=
  { x with
    prec := if w.getLsbD 31 then .X else .S
    neg := w.getLsbD 16
    nan := w.getLsbD 15
    inf := w.getLsbD 14
    exp := w.extractLsb' 0 14 }

/-- Group word j: bits [15:0] hold g[j], bits [31:16] read 0 (R17). -/
def VReg.groupWord (x : VReg) (j : Nat) : Word := (x.g.getD j 0#16).setWidth 32

/-- A host write of group word j: bits [31:16] are ignored and any 16-bit value is stored (R17). -/
def VReg.setGroupWord (x : VReg) (j : Nat) (w : Word) : VReg :=
  { x with g := x.g.set j (w.setWidth 16) }

end Sys2Proof.Machine
end

