-- ==== Sys2Proof/Machine/Flags.lean ====
section
/-! DEFINITION. The encodings of the STATUS fields and the STATUS, CONFIG0 and CONFIG1 words (spec/10_state.md
R28..R33, R37; spec/60_exceptions.md R118). -/

namespace Sys2Proof.Machine

/-- STATUS.OUTCOME encoding (R29); 6 and 7 are never written. -/
def RangeOutcome.code : RangeOutcome → BitVec 3
  | .ok => 0#3
  | .posOverflow => 1#3
  | .negOverflow => 2#3
  | .posUnderflow => 3#3
  | .negUnderflow => 4#3
  | .syntaxError => 5#3

/-- STATUS.CMP encoding (R30). -/
def CmpResult.code : CmpResult → BitVec 2
  | .eq => 0#2
  | .lt => 1#2
  | .gt => 2#2
  | .un => 3#2

/-- STATUS.FAULT encoding (R118). -/
def FaultCode.code : FaultCode → BitVec 4
  | .illegalCmd => 1#4
  | .badOperand => 2#4
  | .badBuffer => 3#4

/-- The FAULT field: 0 when no fault is pending (R32, R118). -/
def faultField : Option FaultCode → BitVec 4
  | none => 0#4
  | some f => f.code

/-- The STATUS word the host reads: {0[31:24], LEN, 0[15:12], FAULT, 0[7:6], T, CMP, OUTCOME} (R28). -/
def Status.word (t : Status) : Word :=
  0#8 ++ t.len ++ 0#4 ++ faultField t.fault ++ 0#2 ++ BitVec.ofBool t.t ++ t.cmp.code ++ t.outcome.code

/-- OVERFLOW outcome by the sign of the exact result (R72). -/
def overflowOutcome (neg : Bool) : RangeOutcome := if neg then .negOverflow else .posOverflow

/-- UNDERFLOW outcome by the sign of the exact result (R72). -/
def underflowOutcome (neg : Bool) : RangeOutcome := if neg then .negUnderflow else .posUnderflow

/-- CONFIG0: {NREG[31:24], MAX_SIG[23:16], N_X[15:8], N_S[7:0]} (R37). -/
def config0Word (c : Config.Params) : Word :=
  BitVec.ofNat 8 c.nreg ++ BitVec.ofNat 8 c.maxSig ++ BitVec.ofNat 8 c.nX ++ BitVec.ofNat 8 c.nS

/-- CONFIG1: {0[31:24], MAX_PARSE_DIGITS[23:16], (TBUF_SIZE-1)[15:0]} (R37); a MAX_PARSE_DIGITS above 255 shows its
low 8 bits (log entry 10). -/
def config1Word (c : Config.Params) : Word :=
  0#8 ++ BitVec.ofNat 8 c.maxParseDigits ++ BitVec.ofNat 16 (c.tbufSize - 1)

end Sys2Proof.Machine
end

