-- ==== Sys2Proof/Machine/Ops.lean ====
section
/-! DEFINITION. The shared operations over registers, TBUF and STATUS: register access (R10), buffer access (R11),
raising a fault and ending one (R12, R121, R123), resets (R132, R133), the operand and buffer checks (R67, R68) and
the write-back of results (R69). -/

namespace Sys2Proof.Machine

open Config (Params)

/-- The outcome of an engine step. -/
abbrev StepResult := Host.Outcome State Fault Refusal

/-! ## Value registers (R10) -/

/-- `V[k]` (R10). -/
def State.getV (s : State) (k : RegId) : VReg := s.v[k]

/-- `V[k] <- x` (R10). -/
def State.setV (s : State) (k : RegId) (x : VReg) : State := { s with v := s.v.set k x }

/-! ## TBUF (R11, R39, R42) -/

/-- The byte written at offset `x`, none where nothing was written since power-on. -/
def Memory.lookup : Memory → Nat → Option Byte
  | [], _ => none
  | (a, b) :: m, x => if x = a then some b else Memory.lookup m x

/-- Write one byte, keeping the offsets strictly rising. -/
def Memory.write : Memory → Nat → Byte → Memory
  | [], x, b => [(x, b)]
  | (a, c) :: m, x, b =>
    if x < a then (x, b) :: (a, c) :: m
    else if x = a then (x, b) :: m
    else (a, c) :: Memory.write m x b

/-- Write the bytes of `t` from offset `a` up. -/
def Memory.writeAll (m : Memory) (a : Nat) : Text → Memory
  | [] => m
  | b :: t => Memory.writeAll (Memory.write m a b) (a + 1) t

/-- Offsets strictly rise and lie above `lo`. -/
def Memory.risingFrom : Option Nat → Memory → Bool
  | _, [] => true
  | none, (a, _) :: m => Memory.risingFrom (some a) m
  | some lo, (a, _) :: m => decide (lo < a) && Memory.risingFrom (some a) m

/-- The canonical form of a buffer of `size` bytes: offsets strictly rising and below `size`. An unlisted offset holds
no written byte, so no entry equals what it reads as. -/
def Memory.wf (size : Nat) (m : Memory) : Bool :=
  Memory.risingFrom none m && m.all (fun e => decide (e.1 < size))

/-- TBUF[a]: the byte written there, or the power-on draw (R39, R132, I1; log entry 1). -/
def State.readByte (s : State) (a : Nat) : Byte :=
  match Memory.lookup s.tbuf a with
  | some b => b
  | none => Config.tbufDraw s.epoch a

/-- `MemRead(a, n)` (R11). -/
def State.memRead (s : State) (a n : Nat) : Text := (List.range n).map (fun i => s.readByte (a + i))

/-- `MemWrite(a, n, t)` with n the length of `t` (R11). -/
def State.memWrite (s : State) (a : Nat) (t : Text) : State := { s with tbuf := Memory.writeAll s.tbuf a t }

/-- Four bytes of TBUF as a little-endian word (R45, R47). -/
def State.readTextWord (s : State) (a : Nat) : Word :=
  s.readByte (a + 3) ++ s.readByte (a + 2) ++ s.readByte (a + 1) ++ s.readByte a

/-- The four bytes of a little-endian word, the lowest first (R45, R47). -/
def wordBytes (w : Word) : Text :=
  [w.extractLsb' 0 8, w.extractLsb' 8 8, w.extractLsb' 16 8, w.extractLsb' 24 8]

/-! ## STATUS fields (R10: a write of a field writes only that field) -/

/-- `STATUS.OUTCOME <- o`. -/
def State.setOutcome (s : State) (o : RangeOutcome) : State := { s with status := { s.status with outcome := o } }

/-- `STATUS.CMP <- r`. -/
def State.setCmp (s : State) (r : CmpResult) : State := { s with status := { s.status with cmp := r } }

/-- `STATUS.T <- b`. -/
def State.setT (s : State) (b : Bool) : State := { s with status := { s.status with t := b } }

/-- `STATUS.LEN <- n`. -/
def State.setLen (s : State) (n : BitVec 8) : State := { s with status := { s.status with len := n } }

/-- `STATUS.FAULT <- f`. -/
def State.setFault (s : State) (f : Option FaultCode) : State := { s with status := { s.status with fault := f } }

/-! ## Faults: entry and return -/

/-- Fault entry, `raise Fault(code)`: STATUS.FAULT <- code and nothing else (R12, R121). There is no vector, no saved
program counter and no mode change. -/
def raiseFault (s : State) (code : FaultCode) : State := s.setFault (some code)

/-- Fault return, CTRL.CLRFLT: STATUS.FAULT <- 0 and nothing else (R35, R123). -/
def clearFault (s : State) : State := s.setFault none

/-! ## Resets -/

/-- The soft reset: value registers, STATUS and INTIN as at power-on, TBUF unchanged (R41, R133). -/
def softReset (s : State) : State :=
  { s with v := Vector.replicate 8 (VReg.reset s.cfg), status := Status.reset, intin := 0#64 }

/-- The power-on reset, by the reset input: as the soft reset, and every byte of TBUF takes an unspecified value, a
fresh draw (R41, R132; log entries 1, 2). -/
def powerOnReset (s : State) : State :=
  { softReset s with tbuf := [], epoch := s.epoch + 1 }

/-! ## The common procedure of a command (R66) -/

/-- Operand check of one source register (R67): BAD_OPERAND unless `WF_p(V[r])`, else the command goes on with the
register's value. -/
def withOperand (p : Prec) (r : RegId) (s : State) (k : VReg → StepResult) : StepResult :=
  if (s.getV r).wf s.cfg p then k (s.getV r) else .next (raiseFault s .badOperand)

/-- Buffer check (R68): BAD_BUFFER unless the 8-bit argument is at most TBUF_SIZE. -/
def withBuffer (n : BitVec 8) (s : State) (k : StepResult) : StepResult :=
  if n.toNat ≤ s.cfg.tbufSize then k else .next (raiseFault s .badBuffer)

/-- A result value and its outcome. -/
abbrev Result := VReg × RangeOutcome

/-- Write-back of a value-producing command (R69): V[RD] <- r, STATUS.OUTCOME <- outcome. -/
def writeResult (rd : RegId) (r : Result) (s : State) : State := (s.setV rd r.1).setOutcome r.2

/-- A value-producing command of one operand of precision `p`: check, compute, write back (R66, R67, R69). -/
def unaryOp (p : Prec) (rd ra : RegId) (f : VReg → Result) (s : State) : StepResult :=
  withOperand p ra s fun x => .next (writeResult rd (f x) s)

/-- A value-producing command of two operands of precision `p`; both are read before V[RD] is written (R14, R66). -/
def binaryOp (p : Prec) (rd ra rb : RegId) (f : VReg → VReg → Result) (s : State) : StepResult :=
  withOperand p ra s fun x => withOperand p rb s fun y => .next (writeResult rd (f x y) s)

/-- A classification test: STATUS.T <- 1 if the predicate holds of V[RA], else 0 (R84..R87). -/
def testOp (p : Prec) (ra : RegId) (f : VReg → Bool) (s : State) : StepResult :=
  withOperand p ra s fun x => .next (s.setT (f x))

end Sys2Proof.Machine
end

