-- ==== Sys2Proof/Machine/Round.lean ====
section
/-! DEFINITION. The one rounding function ROUND_p (spec/40_arithmetic.md R70..R72) over exact numbers held as
`(-1)^neg * (num / den) * 10000^k`, and the integer square root and logarithms it uses (spec/00_scope.md R9). -/

namespace Sys2Proof.Machine

open Config (Params)

/-! ## Integer logarithm and square root (R9) -/

/-- Counts how often `b` divides into `n` before the quotient drops below `b`, at most `fuel` times. -/
def ilogAux (b : Nat) : Nat → Nat → Nat
  | 0, _ => 0
  | fuel + 1, n => if n < b then 0 else ilogAux b fuel (n / b) + 1

/-- `ilog_b(n)` of an integer n >= 1 (R9): the E with b^E <= n < b^(E+1). -/
def ilog (b n : Nat) : Nat := ilogAux b n.log2 n

/-- `ilog_b(num / den)` of a positive rational (R9). -/
def ilogRat (b num den : Nat) : Int :=
  let d : Int := (ilog b num : Int) - (ilog b den : Int)
  if den * b ^ d.toNat ≤ num * b ^ (-d).toNat then d else d - 1

/-- `floor((num / den) * b^t)`. -/
def floorScaled (b num den : Nat) (t : Int) : Nat :=
  num * b ^ t.toNat / (den * b ^ (-t).toNat)

/-- Sets the bits of the root from bit `bits - 1` down, keeping its square at most `n`. -/
def isqrtAux : Nat → Nat → Nat → Nat
  | 0, _, r => r
  | bits + 1, n, r =>
    if (r + 2 ^ bits) * (r + 2 ^ bits) ≤ n then isqrtAux bits n (r + 2 ^ bits) else isqrtAux bits n r

/-- `isqrt(n)`, the floor of the real square root (R9). -/
def isqrt (n : Nat) : Nat := isqrtAux (n.log2 / 2 + 1) n 0

/-! ## ROUND_p (R70) -/

/-- The groups `(K div 10000^(n-1-i)) mod 10000` for i = 0..n-1 (R70). -/
def toGroups (n k : Nat) : List Nat := (List.range n).map (fun i => k / base ^ (n - 1 - i) % base)

/-- R70 from its `guard` line on: `m` holds the n retained groups and the guard group, `e` is the exponent E. -/
def roundGuard (c : Params) (p : Prec) (neg : Bool) (m : Nat) (e : Int) : Result :=
  let n := groupCount c p
  let k := m / base
  let up : Bool := decide (base / 2 ≤ m % base)
  let carry : Bool := up && k + 1 == base ^ n
  let kept := if carry then base ^ (n - 1) else if up then k + 1 else k
  let e' := if carry then e + 1 else e
  if c.expMax < e' then (infV c p neg, overflowOutcome neg)
  else if e' < c.expMin then (zeroV c p, underflowOutcome neg)
  else (finiteV c p (toGroups n kept) e' neg, .ok)

/-- `ROUND_p((-1)^neg * (num / den) * 10000^k)` for positive `num` and `den` (R70). Multiplying by 10000^k only adds k
to E, so E and M come from num / den and the numbers stay small. -/
def roundScaled (c : Params) (p : Prec) (neg : Bool) (num den : Nat) (k : Int) : Result :=
  let e0 := ilogRat base num den
  roundGuard c p neg (floorScaled base num den ((groupCount c p : Int) - e0)) (k + e0)

/-- `(i = 0) ? zero : ROUND_p(i)` for an integer, with ROUND_p's outcome (R93, R94, R69). -/
def roundInt (c : Params) (p : Prec) (i : Int) : Result :=
  if i = 0 then (zeroV c p, .ok) else roundScaled c p (decide (i < 0)) i.natAbs 1 0

end Sys2Proof.Machine
end

