-- ==== Sys2Proof/Machine/Arith.lean ====
section
/-! DEFINITION. ADD, SUB, MUL, DIV and SQRT (spec/40_arithmetic.md R73..R81). -/

namespace Sys2Proof.Machine

open Config (Params)

/-! ## ADD and SUB (R74, R75) -/

/-- The significand of the larger operand in the window of n + 1 groups: n groups and a zero guard group (R74's A). -/
def windowLarge (gs : List Nat) : Nat := fromGroups (gs ++ [0])

/-- The smaller operand aligned `d` groups down into the window of n + 1 groups; its groups below the guard are
dropped (R74's B). -/
def windowSmall (n d : Nat) (gs : List Nat) : Nat :=
  fromGroups ((List.replicate d 0 ++ (gs ++ [0])).take (n + 1))

/-- `x.g[0..N-1] >= y.g[0..N-1]` lexicographically (R74). -/
def groupsGe : List Nat → List Nat → Bool
  | x :: xs, y :: ys => decide (y < x) || (x == y && groupsGe xs ys)
  | _, _ => true

/-- The operand order of R74: the first operand is L, by exponent and then by groups, ties to the first. -/
def magGe (n : Nat) (x y : VReg) : Bool :=
  decide (y.e < x.e) || (x.e == y.e && groupsGe (x.groups n) (y.groups n))

/-- R74's last case, with L the operand of larger magnitude: add or subtract inside the window and round. -/
def addOrdered (c : Params) (p : Prec) (l : VReg) (sl : Bool) (s : VReg) (ss : Bool) : Result :=
  let n := groupCount c p
  let a := windowLarge (l.groups n)
  let b := windowSmall n (l.e - s.e).toNat (s.groups n)
  let t := if sl = ss then a + b else a - b
  if t = 0 then (zeroV c p, .ok) else roundScaled c p sl t 1 (l.e - (n : Int))

/-- R74's case analysis, `sy` being the sign used for y. -/
def addSigned (c : Params) (p : Prec) (x y : VReg) (sy : Bool) : Result :=
  let n := groupCount c p
  if x.isNaN || y.isNaN then (nanV c p, .ok)
  else if x.isInf && y.isInf then (if x.neg = sy then infV c p x.neg else nanV c p, .ok)
  else if x.isInf then (infV c p x.neg, .ok)
  else if y.isInf then (infV c p sy, .ok)
  else if x.isZero n && y.isZero n then (zeroV c p, .ok)
  else if y.isZero n then (copyFinite c p n x x.neg, .ok)
  else if x.isZero n then (copyFinite c p n y sy, .ok)
  else if magGe n x y then addOrdered c p x x.neg y sy
  else addOrdered c p y sy x x.neg

/-- The sum (R74). -/
def addV (c : Params) (p : Prec) (x y : VReg) : Result := addSigned c p x y y.neg

/-- The difference: R74 with `sy <- 1 - y.neg` (R75). -/
def subV (c : Params) (p : Prec) (x y : VReg) : Result := addSigned c p x y (!y.neg)

/-- ADD (R74). -/
def execAdd (p : Prec) (rd ra rb : RegId) (s : State) : StepResult := binaryOp p rd ra rb (addV s.cfg p) s

/-- SUB (R75). -/
def execSub (p : Prec) (rd ra rb : RegId) (s : State) : StepResult := binaryOp p rd ra rb (subV s.cfg p) s

/-! ## MUL (R77) -/

/-- The product (R77). -/
def mulV (c : Params) (p : Prec) (x y : VReg) : Result :=
  let n := groupCount c p
  if x.isNaN || y.isNaN then (nanV c p, .ok)
  else if x.isInf || y.isInf then
    (if x.isZero n || y.isZero n then nanV c p else infV c p (x.neg ^^ y.neg), .ok)
  else if x.isZero n || y.isZero n then (zeroV c p, .ok)
  else roundScaled c p (x.neg ^^ y.neg) (x.sig n * y.sig n) 1 (x.low n + y.low n)

/-- MUL (R77). -/
def execMul (p : Prec) (rd ra rb : RegId) (s : State) : StepResult := binaryOp p rd ra rb (mulV s.cfg p) s

/-! ## DIV (R78) -/

/-- The quotient (R78). -/
def divV (c : Params) (p : Prec) (x y : VReg) : Result :=
  let n := groupCount c p
  if x.isNaN || y.isNaN then (nanV c p, .ok)
  else if x.isInf && y.isInf then (nanV c p, .ok)
  else if x.isInf then (infV c p (x.neg ^^ (if y.isZero n then false else y.neg)), .ok)
  else if y.isInf then (zeroV c p, .ok)
  else if y.isZero n then (if x.isZero n then nanV c p else infV c p x.neg, .ok)
  else if x.isZero n then (zeroV c p, .ok)
  else roundScaled c p (x.neg ^^ y.neg) (x.sig n) (y.sig n) (x.low n - y.low n)

/-- DIV (R78). -/
def execDiv (p : Prec) (rd ra rb : RegId) (s : State) : StepResult := binaryOp p rd ra rb (divV s.cfg p) s

/-! ## SQRT (R80) -/

/-- `ROUND_p(sqrt(m * 10000^k))` for m >= 1: E is the integer with 10000^(2E) <= a < 10000^(2E+2), and
M = isqrt(floor(a * 10000^(2(N-E)))) (R80). -/
def roundRoot (c : Params) (p : Prec) (m : Nat) (k : Int) : Result :=
  let e := (k + (ilog base m : Int)) / 2
  roundGuard c p false (isqrt (floorScaled base m 1 (k + 2 * ((groupCount c p : Int) - e)))) e

/-- The square root (R80). -/
def sqrtV (c : Params) (p : Prec) (x : VReg) : Result :=
  let n := groupCount c p
  if x.isNaN then (nanV c p, .ok)
  else if x.isInf then (if x.neg then nanV c p else infV c p false, .ok)
  else if x.isZero n then (zeroV c p, .ok)
  else if x.neg then (nanV c p, .ok)
  else roundRoot c p (x.sig n) (x.low n)

/-- SQRT (R80). -/
def execSqrt (p : Prec) (rd ra : RegId) (s : State) : StepResult := unaryOp p rd ra (sqrtV s.cfg p) s

end Sys2Proof.Machine
end

