-- ==== Sys2Proof/Machine/Compare.lean ====
section
/-! DEFINITION. CMP and the classification tests ISZERO, ISINF, ISNAN, ISINT (spec/41_compare_classify.md). -/

namespace Sys2Proof.Machine

open Config (Params)

/-! ## CMP (R82, R83) -/

/-- The rank of a value that is not NaN (R82): -infinity, `val(x)`, or +infinity. The value is held exactly, as a
signed significand and the exponent of its last group. -/
inductive Rank
  | negInf
  | fin (m : Int) (k : Int)
  | posInf
  deriving DecidableEq, Repr

/-- The significand with its sign; a zero has no sign. -/
def VReg.signedSig (n : Nat) (x : VReg) : Int := if x.neg then -(x.sig n : Int) else (x.sig n : Int)

/-- The rank of a value that is not NaN (R82). -/
def VReg.rank (n : Nat) (x : VReg) : Rank :=
  if x.isInf then (if x.neg then .negInf else .posInf) else .fin (x.signedSig n) (x.low n)

/-- `m1 * 10000^k1 < m2 * 10000^k2`, compared at the smaller of the two exponents. -/
def scaledLt (m1 k1 m2 k2 : Int) : Bool :=
  decide (m1 * (base : Int) ^ (k1 - min k1 k2).toNat < m2 * (base : Int) ^ (k2 - min k1 k2).toNat)

/-- Ranks compare as extended numbers: -infinity < every value < +infinity (R82, R83). -/
def Rank.lt : Rank → Rank → Bool
  | .negInf, .negInf => false
  | .negInf, .fin _ _ => true
  | .negInf, .posInf => true
  | .fin _ _, .negInf => false
  | .fin m1 k1, .fin m2 k2 => scaledLt m1 k1 m2 k2
  | .fin _ _, .posInf => true
  | .posInf, .negInf => false
  | .posInf, .fin _ _ => false
  | .posInf, .posInf => false

/-- The comparison result (R83): unordered with a NaN, else by rank. -/
def cmpV (n : Nat) (x y : VReg) : CmpResult :=
  if x.isNaN || y.isNaN then .un
  else if (x.rank n).lt (y.rank n) then .lt
  else if (y.rank n).lt (x.rank n) then .gt
  else .eq

/-- CMP (R83): STATUS.CMP only. -/
def execCmp (p : Prec) (ra rb : RegId) (s : State) : StepResult :=
  withOperand p ra s fun x => withOperand p rb s fun y => .next (s.setCmp (cmpV (groupCount s.cfg p) x y))

/-! ## Classification tests (R84..R87) -/

/-- ISZERO (R84). -/
def execIszero (p : Prec) (ra : RegId) (s : State) : StepResult :=
  testOp p ra (fun x => x.isZero (groupCount s.cfg p)) s

/-- ISINF (R85). -/
def execIsinf (p : Prec) (ra : RegId) (s : State) : StepResult := testOp p ra (fun x => x.isInf) s

/-- ISNAN (R86). -/
def execIsnan (p : Prec) (ra : RegId) (s : State) : StepResult := testOp p ra (fun x => x.isNaN) s

/-- `val(x)` is an integer, for a finite x (R87): `sig * 10000^low` with `low >= 0`, or 10000^(-low) divides sig. -/
def VReg.isInteger (n : Nat) (x : VReg) : Bool :=
  decide (0 ≤ x.low n) || x.sig n % base ^ (-x.low n).toNat == 0

/-- ISINT (R87): a NaN and an Infinity are no integers. -/
def execIsint (p : Prec) (ra : RegId) (s : State) : StepResult :=
  testOp p ra (fun x => x.isFinite && x.isInteger (groupCount s.cfg p)) s

end Sys2Proof.Machine
end

