-- ==== Sys2Proof/Machine/Text.lean ====
section
/-! DEFINITION. Characters and decimal digits shared by the formatter and the parser (spec/44_format.md R100, R101;
spec/45_parse.md R113; spec/93_implementation_defined.md I9). -/

namespace Sys2Proof.Machine

/-- The minus sign `-` (R101, R113). -/
def chMinus : Byte := 0x2D#8

/-- The plus sign `+`, read by PARSE and never written (R101, R113). -/
def chPlus : Byte := 0x2B#8

/-- The exponent marker FMT writes, `E` (R101). -/
def chE : Byte := 0x45#8

/-- The other exponent marker PARSE reads, `e` (R113). -/
def chLowerE : Byte := 0x65#8

/-- The digit character of d = 0..9, 0x30..0x39 (R101). -/
def digitChar (d : Nat) : Byte := BitVec.ofNat 8 (0x30 + d)

/-- The digit `0`. -/
def chZero : Byte := digitChar 0

/-- A byte is a digit `0`..`9` (R113). -/
def isDigit (b : Byte) : Bool := decide (0x30 ≤ b.toNat) && decide (b.toNat ≤ 0x39)

/-- The value of a digit character. -/
def digitVal (b : Byte) : Nat := b.toNat - 0x30

/-- The radix character of a locale (R100). -/
def radixOf : Loc → Byte
  | .point => 0x2E#8
  | .comma => 0x2C#8

/-- The grouping separator of a locale (R100). -/
def sepOf : Loc → Byte
  | .point => 0x2C#8
  | .comma => 0x2E#8

/-- The integer whose decimal digits are `ds`, the first the most significant. -/
def fromDigits (ds : List Nat) : Nat := ds.foldl (fun acc d => acc * 10 + d) 0

/-- The `f` low decimal digits of `n`, leading zeros kept, as text. -/
def paddedDigits (f n : Nat) : Text := (List.range f).map (fun i => digitChar (n / 10 ^ (f - 1 - i) % 10))

/-- `dec(n)`: the decimal digits of `n` with no leading zeros, `dec(0)` = `0` (44_format.md section 3). -/
def decText (n : Nat) : Text := paddedDigits (ilog 10 n + 1) n

/-- `decs(x)`: `dec(x)` for x >= 0 and `-` then `dec(-x)` for x < 0 (R104). -/
def decsText (x : Int) : Text := if x < 0 then chMinus :: decText x.natAbs else decText x.natAbs

end Sys2Proof.Machine
end

