-- ==== Sys2Proof/Machine/Format.lean ====
section
/-! DEFINITION. FMT and the helpers of the formatter (spec/44_format.md). A helper reads the magnitude `a > 0` of a
finite nonzero value only through `x = ilog_10(a)` and the rounding `r f = rhu(a, f)`; the machine holds `a` exactly
as `m * 10^k` with m >= 1. -/

namespace Sys2Proof.Machine

open Config (Params)

/-- `ilog_10(m * 10^k)` (R9). -/
def ilog10 (m : Nat) (k : Int) : Int := (ilog 10 m : Int) + k

/-- `rhu(m * 10^k, f) = floor(m * 10^(k+f) + 1/2)`, round half up to f fraction digits, f of either sign. -/
def rhu (m : Nat) (k f : Int) : Nat :=
  (2 * (m * 10 ^ (k + f).toNat) + 10 ^ (-(k + f)).toNat) / (2 * 10 ^ (-(k + f)).toNat)

/-- Remove trailing `0` characters (R104, R106). -/
def stripZeros (t : Text) : Text := (t.reverse.dropWhile (· == chZero)).reverse

/-- A mantissa `ip` with its fraction: the radix is written only before a nonempty fraction (R104..R106). -/
def withFraction (ip frac : Text) (radix : Byte) : Text := if frac = [] then ip else ip ++ radix :: frac

/-- The d significant digits of R104 as an integer, and the decimal exponent after the rounding carry. -/
def sciParts (x : Int) (r : Int → Nat) (d : Nat) : Nat × Int :=
  if r ((d : Int) - 1 - x) = 10 ^ d then (10 ^ (d - 1), x + 1) else (r ((d : Int) - 1 - x), x)

/-- `SCI(a, d, radix, strip)` (R104). -/
def sciText (x : Int) (r : Int → Nat) (d : Nat) (radix : Byte) (strip : Bool) : Text :=
  let q := sciParts x r d
  let ds := decText q.1
  let frac := if strip then stripZeros (ds.drop 1) else ds.drop 1
  withFraction (ds.take 1) frac radix ++ chE :: decsText q.2

/-- `ENG(a, d, radix)` (R105): the digits of SCI with the exponent a multiple of 3. -/
def engText (x : Int) (r : Int → Nat) (d : Nat) (radix : Byte) : Text :=
  let q := sciParts x r d
  let x3 := 3 * (q.2 / 3)
  let j := (q.2 - x3).toNat
  let ds := decText q.1
  let ds' := ds ++ List.replicate (j + 1 - ds.length) chZero
  withFraction (ds'.take (j + 1)) (ds'.drop (j + 1)) radix ++ chE :: decsText x3

/-- Inserts `sep` after every three characters while more remain, reading from the right end (R109). -/
def groupRev (sep : Byte) : Text → Text
  | a :: b :: c :: d :: t => a :: b :: c :: sep :: groupRev sep (d :: t)
  | t => t

/-- `GROUP(ip, sep)` (R109). -/
def groupText (ip : Text) (sep : Byte) : Text := (groupRev sep ip.reverse).reverse

/-- The text of R106 from the rounded integer `v` with `f` fraction digits. -/
def fixedBody (v f : Nat) (grp : Bool) (radix sep : Byte) (strip : Bool) : Text :=
  let ip := decText (v / 10 ^ f)
  let frac := paddedDigits f (v % 10 ^ f)
  withFraction (if grp then groupText ip sep else ip) (if strip then stripZeros frac else frac) radix

/-- `FIXED(a, fmax, grp, radix, sep, strip)` (R106); `none` is FALLBACK. -/
def fixedText (maxSig : Nat) (x : Int) (r : Int → Nat) (fmax : Nat) (grp : Bool) (radix sep : Byte) (strip : Bool) :
    Option Text :=
  let n := (max (x + 1) 1).toNat
  if maxSig < n then none
  else
    let f := min fmax (maxSig - n)
    if r f = 0 then none
    else
      let len := (decText (r f / 10 ^ f)).length
      if maxSig < len + f then
        if maxSig < len then none
        else some (fixedBody (r ((maxSig - len : Nat) : Int)) (maxSig - len) grp radix sep strip)
      else some (fixedBody (r f) f grp radix sep strip)

/-- `ZERO_STR(MODE, d, m, radix)` (R103). -/
def zeroText (maxSig : Nat) (mode : Mode) (d m : Nat) (radix : Byte) : Text :=
  match mode with
  | .fix => withFraction [chZero] (List.replicate (min d (maxSig - 1)) chZero) radix
  | .sci => withFraction [chZero] (List.replicate (m - 1) chZero) radix ++ [chE, chZero]
  | .eng => withFraction [chZero] (List.replicate (m - 1) chZero) radix ++ [chE, chZero]
  | .all => [chZero]

/-- The text of a magnitude in a mode: R97's case on MODE, with the fallback of R107. `d` is the limited digit count
and `sd` is max(d, 1) (R99). -/
def modeText (maxSig : Nat) (mode : Mode) (d sd : Nat) (x : Int) (r : Int → Nat) (grp : Bool) (radix sep : Byte) :
    Text :=
  match mode with
  | .fix => (fixedText maxSig x r d grp radix sep false).getD (sciText x r sd radix false)
  | .sci => sciText x r sd radix false
  | .eng => engText x r sd radix
  | .all => (fixedText maxSig x r maxSig grp radix sep true).getD (sciText x r maxSig radix true)

/-- `NaN` (R102). -/
def nanText : Text := [0x4E#8, 0x61#8, 0x4E#8]

/-- `Inf` (R102). -/
def infText : Text := [0x49#8, 0x6E#8, 0x66#8]

/-- The whole text of a value before truncation (R97), `lg` and `r` being ilog_10 and rhu of its magnitude. -/
def formatWith (c : Params) (p : Prec) (x : VReg) (lg : Int) (r : Int → Nat) (mode : Mode) (dig : BitVec 4)
    (grp : Bool) (loc : Loc) : Text :=
  let d := min dig.toNat c.maxSig
  let sd := max d 1
  if x.isNaN then nanText
  else if x.isInf then (if x.neg then chMinus :: infText else infText)
  else if x.isZero (groupCount c p) then zeroText c.maxSig mode d sd (radixOf loc)
  else (if x.neg then [chMinus] else []) ++ modeText c.maxSig mode d sd lg r grp (radixOf loc) (sepOf loc)

/-- The whole text of a register's value before truncation (R97): its magnitude is `sig * 10^(4 * low)`. -/
def formatValue (c : Params) (p : Prec) (x : VReg) (mode : Mode) (dig : BitVec 4) (grp : Bool) (loc : Loc) : Text :=
  let m := x.sig (groupCount c p)
  let k := 4 * x.low (groupCount c p)
  formatWith c p x (ilog10 m k) (rhu m k) mode dig grp loc

/-- `TRUNCATE(s, CAP)` (R110): a text that does not fit is cut to CAP - 1 characters and the sentinel. -/
def truncateText (sentinel : Byte) (t : Text) (cap : Nat) : Text :=
  if t.length ≤ cap then t
  else if cap = 0 then []
  else t.take (cap - 1) ++ [sentinel]

/-- FMT's write: MemWrite(0, L, bytes) and STATUS.LEN <- L (R97, R98). -/
def writeText (t : Text) (s : State) : State := (s.memWrite 0 t).setLen (BitVec.ofNat 8 t.length)

/-- FMT (R97): operand check, buffer check, then the text into TBUF from offset 0. -/
def execFmt (p : Prec) (ra : RegId) (mode : Mode) (dig : BitVec 4) (grp : Bool) (loc : Loc) (cap : BitVec 8)
    (s : State) : StepResult :=
  withOperand p ra s fun x =>
    withBuffer cap s <|
      .next (writeText (truncateText s.cfg.sentinel (formatValue s.cfg p x mode dig grp loc) cap.toNat) s)

end Sys2Proof.Machine
end

