-- ==== Sys2Proof/Machine/IntSign.lean ====
section
/-! DEFINITION. FLOOR, TRUNC and NEG (spec/42_integer_sign.md R88..R90). -/

namespace Sys2Proof.Machine

open Config (Params)

/-- `floor(|val(x)|)` as an integer and a power of 10000: `|val(x)|` itself where the last group's exponent is not
negative, else the integer below it (R88, R89). -/
def VReg.truncParts (n : Nat) (x : VReg) : Nat × Int :=
  if 0 ≤ x.low n then (x.sig n, x.low n) else (x.sig n / base ^ (-x.low n).toNat, 0)

/-- `|floor(val(x))|`, as an integer and a power of 10000: a negative value that is no integer rounds away from zero
(R88). -/
def VReg.floorParts (n : Nat) (x : VReg) : Nat × Int :=
  if 0 ≤ x.low n then (x.sig n, x.low n)
  else
    let q := x.sig n / base ^ (-x.low n).toNat
    if x.neg && x.sig n % base ^ (-x.low n).toNat != 0 then (q + 1, 0) else (q, 0)

/-- `(z = 0) ? zero : ROUND_p(z)` for the integer `(-1)^neg * z.1 * 10000^z.2`, with ROUND_p's outcome: OK but where
FLOOR leaves a narrowed exponent range (R88, R69, R72, log entry 9). -/
def integerResult (c : Params) (p : Prec) (neg : Bool) (z : Nat × Int) : Result :=
  if z.1 = 0 then (zeroV c p, .ok) else roundScaled c p neg z.1 1 z.2

/-- The floor (R88). -/
def floorV (c : Params) (p : Prec) (x : VReg) : Result :=
  let n := groupCount c p
  if x.isNaN then (nanV c p, .ok)
  else if x.isInf then (infV c p x.neg, .ok)
  else if x.isZero n then (zeroV c p, .ok)
  else integerResult c p x.neg (x.floorParts n)

/-- FLOOR (R88). -/
def execFloor (p : Prec) (rd ra : RegId) (s : State) : StepResult := unaryOp p rd ra (floorV s.cfg p) s

/-- The integer part, rounded toward zero (R89). -/
def truncV (c : Params) (p : Prec) (x : VReg) : Result :=
  let n := groupCount c p
  if x.isNaN then (nanV c p, .ok)
  else if x.isInf then (infV c p x.neg, .ok)
  else if x.isZero n then (zeroV c p, .ok)
  else integerResult c p x.neg (x.truncParts n)

/-- TRUNC (R89). -/
def execTrunc (p : Prec) (rd ra : RegId) (s : State) : StepResult := unaryOp p rd ra (truncV s.cfg p) s

/-- The negation (R90). -/
def negV (c : Params) (p : Prec) (x : VReg) : Result :=
  let n := groupCount c p
  if x.isNaN then (nanV c p, .ok)
  else if x.isInf then (infV c p (!x.neg), .ok)
  else if x.isZero n then (zeroV c p, .ok)
  else (copyFinite c p n x (!x.neg), .ok)

/-- NEG (R90). -/
def execNeg (p : Prec) (rd ra : RegId) (s : State) : StepResult := unaryOp p rd ra (negV s.cfg p) s

end Sys2Proof.Machine
end

