-- ==== Sys2Proof/Machine/Move.lean ====
section
/-! DEFINITION. NOP, MOV, LDI, CVTI, CVTSX and CVTXS (spec/43_move_convert.md R91..R96). -/

namespace Sys2Proof.Machine

open Config (Params)

/-- NOP (R91): every register and every STATUS field keeps its value. -/
def execNop (s : State) : StepResult := .next s

/-- MOV (R92): the stored image is copied as it is, unchecked, and OUTCOME keeps its value. -/
def execMov (rd ra : RegId) (s : State) : StepResult := .next (s.setV rd (s.getV ra))

/-- LDI (R58, R93): the integer `sext_16(AUX)`, with ROUND_p's outcome (R69, log entry 9). -/
def execLdi (p : Prec) (rd : RegId) (imm : BitVec 16) (s : State) : StepResult :=
  .next (writeResult rd (roundInt s.cfg p imm.toInt) s)

/-- CVTI (R94): the integer `sext_64(INTIN)`, with ROUND_p's outcome (R69, log entry 9). -/
def execCvti (p : Prec) (rd : RegId) (s : State) : StepResult :=
  .next (writeResult rd (roundInt s.cfg p s.intin.toInt) s)

/-- Widening to X, exact (R95). -/
def widenV (c : Params) (x : VReg) : Result :=
  if x.isNaN then (nanV c .X, .ok)
  else if x.isInf then (infV c .X x.neg, .ok)
  else if x.isZero c.nS then (zeroV c .X, .ok)
  else (copyFinite c .X c.nS x x.neg, .ok)

/-- CVTSX (R95): the operand is `WF_S`. -/
def execCvtsx (rd ra : RegId) (s : State) : StepResult := unaryOp .S rd ra (widenV s.cfg) s

/-- Narrowing to S, with rounding (R96). -/
def narrowV (c : Params) (x : VReg) : Result :=
  if x.isNaN then (nanV c .S, .ok)
  else if x.isInf then (infV c .S x.neg, .ok)
  else if x.isZero c.nX then (zeroV c .S, .ok)
  else roundScaled c .S x.neg (x.sig c.nX) 1 (x.low c.nX)

/-- CVTXS (R96): the operand is `WF_X`. -/
def execCvtxs (rd ra : RegId) (s : State) : StepResult := unaryOp .X rd ra (narrowV s.cfg) s

end Sys2Proof.Machine
end

