-- ==== Sys2Proof/Machine/Parse.lean ====
section
/-! DEFINITION. PARSE: the scanner of the grammar of a NUMBER, its value and its outcome (spec/45_parse.md). -/

namespace Sys2Proof.Machine

open Config (Params)

/-- The parts of a NUMBER (R112, R114): sign, integer digits I, fraction digits F and exponent. -/
structure NumberParts where
  neg   : Bool
  ints  : List Nat
  fracs : List Nat
  exp   : Int
  deriving DecidableEq, Repr

/-- SIGN? : the sign, true = negative, and the rest (R114). -/
def scanSign : Text → Bool × Text
  | [] => (false, [])
  | b :: t => if b = chMinus then (true, t) else if b = chPlus then (false, t) else (false, b :: t)

/-- DIGIT* : the digits, as many as there are, and the rest (R114). -/
def scanDigits : Text → List Nat × Text
  | [] => ([], [])
  | b :: t => if isDigit b then (digitVal b :: (scanDigits t).1, (scanDigits t).2) else ([], b :: t)

/-- The text begins with a digit. -/
def startsDigit : Text → Bool
  | [] => false
  | b :: _ => isDigit b

/-- (SEP? DIGIT)* : digits, each with at most one separator before it (R114). -/
def scanIntTail (sep : Byte) : Text → List Nat × Text
  | [] => ([], [])
  | b :: t =>
    if isDigit b then (digitVal b :: (scanIntTail sep t).1, (scanIntTail sep t).2)
    else if b == sep && startsDigit t then scanIntTail sep t
    else ([], b :: t)

/-- INTPART, or no digit where the text does not begin with one (R114). -/
def scanIntPart (sep : Byte) (t : Text) : List Nat × Text :=
  if startsDigit t then scanIntTail sep t else ([], t)

/-- MANTISSA: integer digits, fraction digits and the rest (R114). -/
def scanMantissa (radix sep : Byte) (t : Text) : Option (List Nat × List Nat × Text) :=
  match scanIntPart sep t with
  | (ints, []) => if ints = [] then none else some (ints, [], [])
  | (ints, b :: u) =>
    if b = radix then
      if ints = [] && (scanDigits u).1 = [] then none else some (ints, (scanDigits u).1, (scanDigits u).2)
    else if ints = [] then none
    else some (ints, [], b :: u)

/-- EXPONENT? at the end of the text: its signed value, 0 where there is none (R114). -/
def scanExponent : Text → Option Int
  | [] => some 0
  | b :: t =>
    if b = chE ∨ b = chLowerE then
      let sg := scanSign t
      let ds := scanDigits sg.2
      if ds.1 = [] ∨ ds.2 ≠ [] then none
      else some (if sg.1 then -(fromDigits ds.1 : Int) else (fromDigits ds.1 : Int))
    else none

/-- The whole text as a NUMBER, or none where it is not one (R112, R114). -/
def scanNumber (radix sep : Byte) (t : Text) : Option NumberParts :=
  let sg := scanSign t
  match scanMantissa radix sep sg.2 with
  | none => none
  | some (ints, fracs, rest) =>
    match scanExponent rest with
    | none => none
    | some x => some { neg := sg.1, ints := ints, fracs := fracs, exp := x }

/-- The mantissa digit count: the digits of I ++ F without its leading zeros (R115). -/
def NumberParts.digitCount (q : NumberParts) : Nat := ((q.ints ++ q.fracs).dropWhile (· == 0)).length

/-- The mantissa as an integer m (R112). -/
def NumberParts.mantissa (q : NumberParts) : Nat := fromDigits (q.ints ++ q.fracs)

/-- The value and outcome of a NUMBER (R112, R116, R117): zero with OK where m = 0, else ROUND_p of
`(-1)^s * m * 10^y` with y = x - length(F), taken as `m * 10^(y mod 4) * 10000^(y div 4)`. -/
def numberResult (c : Params) (p : Prec) (q : NumberParts) : Result :=
  let y := q.exp - (q.fracs.length : Int)
  if q.mantissa = 0 then (zeroV c p, .ok)
  else roundScaled c p q.neg (q.mantissa * 10 ^ (y % 4).toNat) 1 (y / 4)

/-- The result of parsing a text, none for SYNTAX_ERROR (R112, R115). -/
def parseText (c : Params) (p : Prec) (loc : Loc) (t : Text) : Option Result :=
  match scanNumber (radixOf loc) (sepOf loc) t with
  | none => none
  | some q => if c.maxParseDigits < q.digitCount then none else some (numberResult c p q)

/-- PARSE's write-back: a SYNTAX_ERROR writes OUTCOME only, else V[RD] and OUTCOME (R112, R69). -/
def writeParsed (rd : RegId) (r : Option Result) (s : State) : State :=
  match r with
  | none => s.setOutcome .syntaxError
  | some r => writeResult rd r s

/-- PARSE (R112): buffer check, then the LEN bytes of TBUF; a SYNTAX_ERROR leaves V[RD] unchanged. -/
def execParse (p : Prec) (rd : RegId) (loc : Loc) (len : BitVec 8) (s : State) : StepResult :=
  withBuffer len s <| .next (writeParsed rd (parseText s.cfg p loc (s.memRead 0 len.toNat)) s)

end Sys2Proof.Machine
end

