-- ==== Sys2Proof/Machine/Dispatch.lean ====
section
/-! DEFINITION. The meaning of each command: steps 3 to 6 of the common procedure (spec/40_arithmetic.md R66). -/

namespace Sys2Proof.Machine

def exec (i : Instr) (s : State) : Host.Outcome State Fault Refusal :=
  match i with
  | .nop => Sys2Proof.Machine.execNop s
  | .add p rd ra rb => Sys2Proof.Machine.execAdd p rd ra rb s
  | .sub p rd ra rb => Sys2Proof.Machine.execSub p rd ra rb s
  | .mul p rd ra rb => Sys2Proof.Machine.execMul p rd ra rb s
  | .div p rd ra rb => Sys2Proof.Machine.execDiv p rd ra rb s
  | .sqrt p rd ra => Sys2Proof.Machine.execSqrt p rd ra s
  | .cmp p ra rb => Sys2Proof.Machine.execCmp p ra rb s
  | .floor p rd ra => Sys2Proof.Machine.execFloor p rd ra s
  | .trunc p rd ra => Sys2Proof.Machine.execTrunc p rd ra s
  | .neg p rd ra => Sys2Proof.Machine.execNeg p rd ra s
  | .iszero p ra => Sys2Proof.Machine.execIszero p ra s
  | .isinf p ra => Sys2Proof.Machine.execIsinf p ra s
  | .isnan p ra => Sys2Proof.Machine.execIsnan p ra s
  | .isint p ra => Sys2Proof.Machine.execIsint p ra s
  | .mov rd ra => Sys2Proof.Machine.execMov rd ra s
  | .ldi p rd imm => Sys2Proof.Machine.execLdi p rd imm s
  | .cvti p rd => Sys2Proof.Machine.execCvti p rd s
  | .cvtsx rd ra => Sys2Proof.Machine.execCvtsx rd ra s
  | .cvtxs rd ra => Sys2Proof.Machine.execCvtxs rd ra s
  | .fmt p ra mode dig grp loc cap => Sys2Proof.Machine.execFmt p ra mode dig grp loc cap s
  | .parse p rd loc len => Sys2Proof.Machine.execParse p rd loc len s

end Sys2Proof.Machine
end

