-- ==== Sys2Proof/Machine/Window.lean ====
section
/-! DEFINITION. The host window: the address map, host reads and writes, issuing a command by a write to CMD, and
CTRL (spec/20_memory.md R42..R49; spec/10_state.md R34..R37; spec/40_arithmetic.md R66). -/

namespace Sys2Proof.Machine

open Config (Params)

/-- What a word of the window is (R43). -/
inductive Target
  | cmd
  | status
  | ctrl
  | config0
  | intinLow
  | intinHigh
  | config1
  /-- group word j of Vk, 0 <= j < N_X (R44) -/
  | group (k : RegId) (j : Nat)
  /-- the trailer word of Vk (R44) -/
  | trailer (k : RegId)
  /-- the TBUF word whose first byte is TBUF[a] (R45) -/
  | text (a : Nat)
  /-- reserved (R46) -/
  | reserved
  deriving DecidableEq, Repr

/-- Words 0x000..0x01C (R43). -/
def controlTarget (off : Nat) : Target :=
  if off = 0x000 then .cmd
  else if off = 0x004 then .status
  else if off = 0x008 then .ctrl
  else if off = 0x00C then .config0
  else if off = 0x010 then .intinLow
  else if off = 0x014 then .intinHigh
  else if off = 0x018 then .config1
  else .reserved

/-- Word j of value register number k (R44). -/
def registerTarget (c : Params) (k j : Nat) : Target :=
  if h : k < 8 then
    if c.nreg ≤ k then .reserved
    else if j < c.nX then .group ⟨k, h⟩ j
    else if j = 31 then .trailer ⟨k, h⟩
    else .reserved
  else .reserved

/-- The map of the window (R43), for an offset R48 admits. -/
def windowTarget (c : Params) (off : Nat) : Target :=
  if off < 0x100 then controlTarget off
  else if off < 0x1000 then registerTarget c ((off - 0x100) / 0x80) ((off - 0x100) % 0x80 / 4)
  else if off < 0x1000 + c.tbufSize then .text (off - 0x1000)
  else .reserved

/-- The access is a 32-bit access to a 4-byte-aligned offset inside 0x0000..0x1FFF (R48). -/
def accessOk (width : Width) (off : Nat) : Bool := width == .word && off % 4 == 0 && decide (off < 0x2000)

/-- The word a host read returns; reads have no side effect (R43..R46, R49). -/
def readTarget (s : State) : Target → Word
  | .cmd => 0#32
  | .status => s.status.word
  | .ctrl => 0#32
  | .config0 => config0Word s.cfg
  | .intinLow => s.intin.extractLsb' 0 32
  | .intinHigh => s.intin.extractLsb' 32 32
  | .config1 => config1Word s.cfg
  | .group k j => (s.getV k).groupWord j
  | .trailer k => (s.getV k).trailer
  | .text a => s.readTextWord a
  | .reserved => 0#32

/-- A host write of CTRL (R35): SRESET, bit 0, wins over CLRFLT, bit 1; bits [31:2] are ignored. -/
def writeCtrl (w : Word) (s : State) : State :=
  if w.getLsbD 0 then softReset s else if w.getLsbD 1 then clearFault s else s

/-- Issuing a command word (R34, R66): discarded while a fault is pending (R122), else decoded, where an illegal word
raises ILLEGAL_CMD (R62), else performed. -/
def issue (w : Word) (s : State) : StepResult :=
  if s.status.fault.isSome then .next s
  else match decode s.cfg w with
    | .error _ => .next (raiseFault s .illegalCmd)
    | .ok i => exec i s

/-- A host write of a word of the window (R43..R46, R49). -/
def writeTarget (s : State) (w : Word) : Target → StepResult
  | .cmd => issue w s
  | .status => .next s
  | .ctrl => .next (writeCtrl w s)
  | .config0 => .next s
  | .intinLow => .next { s with intin := s.intin.extractLsb' 32 32 ++ w }
  | .intinHigh => .next { s with intin := w ++ s.intin.extractLsb' 0 32 }
  | .config1 => .next s
  | .group k j => .next (s.setV k ((s.getV k).setGroupWord j w))
  | .trailer k => .next (s.setV k ((s.getV k).setTrailer w))
  | .text a => .next (s.memWrite a (wordBytes w))
  | .reserved => .next s

/-- One host access or the reset input, performed as one atomic step (R14, R48, R50, R132). -/
def performAccess (s : State) : HostAccess → StepResult
  | .read width off =>
    if accessOk width off then .next { s with rdata := some (readTarget s (windowTarget s.cfg off)) }
    else .fault .refusedAccess
  | .write width off w =>
    if accessOk width off then writeTarget s w (windowTarget s.cfg off) else .fault .refusedAccess
  | .resetInput => .next (powerOnReset s)

/-- One step of the engine: the next host access is performed; with none the engine is idle and keeps its state (R50,
R131; log entry 4). -/
def engineStep (s : State) : StepResult :=
  match s.pending with
  | [] => .next s
  | a :: rest => performAccess { s with pending := rest } a

/-- The access that issues the command word `w` (R34). -/
def commandAccess (w : Word) : HostAccess := .write .word 0x000 w

/-- The host issues `w` as its next access (R53: a command is the word written to CMD). -/
def placeCommand (s : State) (w : Word) : State := { s with pending := commandAccess w :: s.pending }

end Sys2Proof.Machine
end

