-- ==== Sys2Proof/Machine/Step.lean ====
section
/-! DEFINITION. One step of the machine, and the state whose very next step runs a given command. -/

namespace Sys2Proof.Machine

/-- One step: the host's next access, or idling (R14, R50, R131). -/
def step (s : State) : Host.Outcome State Fault Refusal := engineStep s

/-- `s` with the table word `w` issued as the host's next access: the very next step decodes and runs it unless a fault
is pending, which R122 says discards it (log entries 3, 6). -/
def State.withFetchWord (s : State) (nbits w : Nat) : State := placeCommand s (BitVec.ofNat 32 (w % 2 ^ nbits))

end Sys2Proof.Machine
end

