-- ==== Sys2Proof/Machine/Assembler.lean ====
section
/-! DEFINITION. The assembler's command forms, pseudo-instructions and host lines (spec/30_encoding.md R64, R65). -/

namespace Sys2Proof.Machine

/-! ## Command lines (R64) -/

/-- The suffix of a command with a P field: `.S` or `.X`. -/
def precSuffix : Prec → String
  | .S => ".S"
  | .X => ".X"

/-- A register operand `V0`..`V7`. -/
def regName (k : RegId) : String := "V" ++ toString k.val

/-- A mode operand. -/
def modeName : Mode → String
  | .fix => "FIX"
  | .sci => "SCI"
  | .eng => "ENG"
  | .all => "ALL"

/-- A locale operand, its LOC bit. -/
def locName : Loc → String
  | .point => "0"
  | .comma => "1"

/-- `OP.p Vd, Va, Vb`. -/
def asmThree (op : String) (p : Prec) (rd ra rb : RegId) : String :=
  op ++ precSuffix p ++ " " ++ regName rd ++ ", " ++ regName ra ++ ", " ++ regName rb

/-- `OP.p Va, Vb` (also `OP.p Vd, Va`). -/
def asmTwo (op : String) (p : Prec) (r1 r2 : RegId) : String :=
  op ++ precSuffix p ++ " " ++ regName r1 ++ ", " ++ regName r2

/-- `OP.p Va`. -/
def asmOne (op : String) (p : Prec) (r : RegId) : String := op ++ precSuffix p ++ " " ++ regName r

/-- The assembly line of a command (R64). -/
def asmLine : Instr → String
  | .nop => "NOP"
  | .add p rd ra rb => asmThree "ADD" p rd ra rb
  | .sub p rd ra rb => asmThree "SUB" p rd ra rb
  | .mul p rd ra rb => asmThree "MUL" p rd ra rb
  | .div p rd ra rb => asmThree "DIV" p rd ra rb
  | .sqrt p rd ra => asmTwo "SQRT" p rd ra
  | .cmp p ra rb => asmTwo "CMP" p ra rb
  | .floor p rd ra => asmTwo "FLOOR" p rd ra
  | .trunc p rd ra => asmTwo "TRUNC" p rd ra
  | .neg p rd ra => asmTwo "NEG" p rd ra
  | .iszero p ra => asmOne "ISZERO" p ra
  | .isinf p ra => asmOne "ISINF" p ra
  | .isnan p ra => asmOne "ISNAN" p ra
  | .isint p ra => asmOne "ISINT" p ra
  | .mov rd ra => "MOV " ++ regName rd ++ ", " ++ regName ra
  | .ldi p rd imm => asmOne "LDI" p rd ++ ", #" ++ toString imm.toInt
  | .cvti p rd => asmOne "CVTI" p rd
  | .cvtsx rd ra => "CVTSX " ++ regName rd ++ ", " ++ regName ra
  | .cvtxs rd ra => "CVTXS " ++ regName rd ++ ", " ++ regName ra
  | .fmt p ra mode dig grp loc cap =>
    asmOne "FMT" p ra ++ ", " ++ modeName mode ++ ", " ++ toString dig.toNat ++ ", " ++ (if grp then "1" else "0") ++
      ", " ++ locName loc ++ ", " ++ toString cap.toNat
  | .parse p rd loc len => asmOne "PARSE" p rd ++ ", " ++ locName loc ++ ", " ++ toString len.toNat

/-- A command line stands for `WR 0x000, <its word>` (R64). -/
def asmAccess (i : Instr) : HostAccess := commandAccess (encode i)

/-! ## Pseudo-instructions (R65) -/

/-- The pseudo-instructions of R65. -/
inductive Pseudo
  | clr (p : Prec) (rd : RegId)
  | sqr (p : Prec) (rd ra : RegId)
  | dbl (p : Prec) (rd ra : RegId)
  /-- needs a scratch register `rt` -/
  | recip (p : Prec) (rd ra rt : RegId)
  | clrflt
  | sreset
  | str (t : Text)
  deriving DecidableEq, Repr

/-- A text packed into TBUF words, the first byte in bits [7:0], the last word padded with 0x00 bytes (R45, R64). -/
def packWords : Text → List Word
  | a :: b :: c :: d :: t => (d ++ c ++ b ++ a : Word) :: packWords t
  | [a, b, c] => [(0#8 ++ c ++ b ++ a : Word)]
  | [a, b] => [(0#16 ++ b ++ a : Word)]
  | [a] => [(0#24 ++ a : Word)]
  | [] => []

/-- Host writes of consecutive words from offset `off` up. -/
def writeWords (off : Nat) : List Word → List HostAccess
  | [] => []
  | w :: ws => .write .word off w :: writeWords (off + 4) ws

/-- The expansion of a pseudo-instruction into host accesses (R64, R65). -/
def expandPseudo : Pseudo → List HostAccess
  | .clr p rd => [asmAccess (.ldi p rd 0#16)]
  | .sqr p rd ra => [asmAccess (.mul p rd ra ra)]
  | .dbl p rd ra => [asmAccess (.add p rd ra ra)]
  | .recip p rd ra rt => [asmAccess (.ldi p rt 1#16), asmAccess (.div p rd rt ra)]
  | .clrflt => [.write .word 0x008 0x00000002#32]
  | .sreset => [.write .word 0x008 0x00000001#32]
  | .str t => writeWords 0x1000 (packWords t)

end Sys2Proof.Machine
end

