-- ==== Sys2Proof/Safety.lean ====
section
/-! DEFINITION. The invariant of the machine and what counts as a safe run. -/

namespace Sys2Proof.Machine

/-- What every reachable state satisfies: the parameters keep R7's constraints; every register image has N_X group
slots (R16); registers from NREG up do not exist and keep their reset value (R15); TBUF keeps its canonical form
(R39); and the text FMT last wrote lies inside TBUF (R33, R68). -/
structure State.Inv (s : State) : Prop where
  params : s.cfg.valid = true
  slots : ∀ k : RegId, (s.getV k).g.length = s.cfg.nX
  absent : ∀ k : RegId, s.cfg.nreg ≤ k.val → s.getV k = VReg.reset s.cfg
  memory : Memory.wf s.cfg.tbufSize s.tbuf = true
  length : s.status.len.toNat ≤ s.cfg.tbufSize

/-- The engine performs this access: a 32-bit access to a 4-byte-aligned offset inside the window, or the reset input
(R48, R132). -/
def HostAccess.admitted : HostAccess → Bool
  | .read width off => accessOk width off
  | .write width off _ => accessOk width off
  | .resetInput => true

/-- The host has issued only accesses the engine performs: a run from such a state never stops. -/
def State.hostSafe (s : State) : Bool := s.pending.all HostAccess.admitted

end Sys2Proof.Machine
end

