-- ==== Sys2Proof/Reference.lean ====
section
/-! DEFINITION. The spec's own mathematical terms, over the real numbers and as a grammar, in which statements about
the machine are made: the value of a register (spec/00_scope.md R13), ROUND_p of an exact real (spec/40_arithmetic.md
R70), the pseudocode of the arithmetic commands (R74..R80, R88, R89), the text of a value (spec/44_format.md R97..R109),
the grammar of a NUMBER (spec/45_parse.md R114), and what a command leaves unchanged (spec/10_state.md R38). The machine
does not use this file. -/

namespace Sys2Proof

/-! ## What a command reads and writes (R38, R67) -/

/-- The value operands a command reads, each with the precision its image must be well formed at (R67). -/
def Instr.sources : Instr → List (Prec × RegId)
  | .nop => []
  | .add p _ ra rb => [(p, ra), (p, rb)]
  | .sub p _ ra rb => [(p, ra), (p, rb)]
  | .mul p _ ra rb => [(p, ra), (p, rb)]
  | .div p _ ra rb => [(p, ra), (p, rb)]
  | .sqrt p _ ra => [(p, ra)]
  | .cmp p ra rb => [(p, ra), (p, rb)]
  | .floor p _ ra => [(p, ra)]
  | .trunc p _ ra => [(p, ra)]
  | .neg p _ ra => [(p, ra)]
  | .iszero p ra => [(p, ra)]
  | .isinf p ra => [(p, ra)]
  | .isnan p ra => [(p, ra)]
  | .isint p ra => [(p, ra)]
  | .mov _ _ => []
  | .ldi _ _ _ => []
  | .cvti _ _ => []
  | .cvtsx _ ra => [(.S, ra)]
  | .cvtxs _ ra => [(.X, ra)]
  | .fmt p ra _ _ _ _ _ => [(p, ra)]
  | .parse _ _ _ _ => []

/-- The precision of the value a command writes to V[RD]; none for a command that writes no value, and for MOV, which
copies an image (R26, R69, R92). -/
def Instr.resultPrec : Instr → Option Prec
  | .nop => none
  | .add p _ _ _ => some p
  | .sub p _ _ _ => some p
  | .mul p _ _ _ => some p
  | .div p _ _ _ => some p
  | .sqrt p _ _ => some p
  | .cmp _ _ _ => none
  | .floor p _ _ => some p
  | .trunc p _ _ => some p
  | .neg p _ _ => some p
  | .iszero _ _ => none
  | .isinf _ _ => none
  | .isnan _ _ => none
  | .isint _ _ => none
  | .mov _ _ => none
  | .ldi p _ _ => some p
  | .cvti p _ => some p
  | .cvtsx _ _ => some .X
  | .cvtxs _ _ => some .S
  | .fmt _ _ _ _ _ _ _ => none
  | .parse p _ _ _ => some p

end Sys2Proof

namespace Sys2Proof.Machine

open Config (Params)

/-! ## Values (R13) and rounding (R70) -/

/-- The sign factor `(-1)^neg`. -/
def signFactor (neg : Bool) : ℝ := if neg then -1 else 1

/-- `val(x)` of a finite value of `n` groups: `(-1)^neg * sum of g[i] * 10000^(exp - i)` (R13). -/
noncomputable def VReg.val (n : Nat) (x : VReg) : ℝ :=
  signFactor x.neg * ∑ i ∈ Finset.range n, (x.groupAt i : ℝ) * (10000 : ℝ) ^ (x.e - (i : Int))

/-- R70's lines from `guard` on, for the window M and the exponent E of a number of sign `s`: a guard group of 5000 or
more increments the retained groups, and a carry out of the leading group moves the exponent up. -/
def roundWindowRef (c : Params) (p : Prec) (s : Bool) (m : Nat) (e : Int) : Result :=
  let n := groupCount c p
  let k := if 5000 ≤ m % 10000 then m / 10000 + 1 else m / 10000
  let (k, e) := if 5000 ≤ m % 10000 ∧ k = 10000 ^ n then (10000 ^ (n - 1), e + 1) else (k, e)
  if c.expMax < e then (infV c p s, if s then .negOverflow else .posOverflow)
  else if e < c.expMin then (zeroV c p, if s then .negUnderflow else .posUnderflow)
  else (finiteV c p ((List.range n).map fun i => k / 10000 ^ (n - 1 - i) % 10000) e s, .ok)

/-- `ROUND_p(r)` of an exact nonzero real r, as R70 writes it: E = ilog_10000(|r|), M = floor(|r| * 10000^(N-E)), then
the lines from `guard` on. -/
noncomputable def roundReal (c : Params) (p : Prec) (r : ℝ) : Result :=
  let e := Int.log 10000 |r|
  roundWindowRef c p (decide (r < 0)) ⌊|r| * (10000 : ℝ) ^ ((groupCount c p : Int) - e)⌋.toNat e

/-- `rhu(a, f) = floor(a * 10^f + 1/2)` (44_format.md section 3). -/
noncomputable def rhuReal (a : ℝ) (f : Int) : Int := ⌊a * (10 : ℝ) ^ f + 1 / 2⌋

/-! ## The pseudocode of the value-producing commands -/

/-- R74's A: the larger operand in the window of N+1 groups. -/
def sumA (n : Nat) (l : VReg) : Nat := ∑ i ∈ Finset.range n, l.groupAt i * 10000 ^ (n - i)

/-- R74's B: the sum over j = d..N with j-d <= N-1 of S.g[j-d] * 10000^(N-j). -/
def sumB (n d : Nat) (s : VReg) : Nat :=
  ∑ j ∈ (Finset.range (n + 1)).filter (fun j => d ≤ j ∧ j - d ≤ n - 1), s.groupAt (j - d) * 10000 ^ (n - j)

/-- R74's last case for L with sign sL and S with sign sS. -/
noncomputable def addFiniteRef (c : Params) (p : Prec) (l : VReg) (sl : Bool) (s : VReg) (ss : Bool) : Result :=
  let n := groupCount c p
  let a : Int := sumA n l
  let b : Int := sumB n (l.e - s.e).toNat s
  let t := if sl = ss then a + b else a - b
  if t = 0 then (zeroV c p, .ok)
  else roundReal c p (signFactor sl * (t : ℝ) * (10000 : ℝ) ^ (l.e - (n : Int)))

/-- `x.g[0..n-1] >= y.g[0..n-1]` lexicographically: equal, or larger at the first group that differs (R74). -/
abbrev LexGe (n : Nat) (x y : VReg) : Prop :=
  (∀ i < n, x.groupAt i = y.groupAt i) ∨
  ∃ i < n, y.groupAt i < x.groupAt i ∧ ∀ j < i, x.groupAt j = y.groupAt j

/-- R74's pseudocode with `sy` the sign used for y (R75 inverts it). -/
noncomputable def addRef (c : Params) (p : Prec) (x y : VReg) (sy : Bool) : Result :=
  let n := groupCount c p
  if x.isNaN ∨ y.isNaN then (nanV c p, .ok)
  else if x.isInf ∧ y.isInf then (if x.neg = sy then infV c p x.neg else nanV c p, .ok)
  else if x.isInf then (infV c p x.neg, .ok)
  else if y.isInf then (infV c p sy, .ok)
  else if x.isZero n ∧ y.isZero n then (zeroV c p, .ok)
  else if y.isZero n then (finiteV c p (x.groups n) x.e x.neg, .ok)
  else if x.isZero n then (finiteV c p (y.groups n) y.e sy, .ok)
  else if y.e < x.e ∨ (x.e = y.e ∧ LexGe n x y) then addFiniteRef c p x x.neg y sy
  else addFiniteRef c p y sy x x.neg

/-- R77's pseudocode. -/
noncomputable def mulRef (c : Params) (p : Prec) (x y : VReg) : Result :=
  let n := groupCount c p
  if x.isNaN ∨ y.isNaN then (nanV c p, .ok)
  else if x.isInf ∨ y.isInf then
    (if x.isZero n ∨ y.isZero n then nanV c p else infV c p (x.neg ^^ y.neg), .ok)
  else if x.isZero n ∨ y.isZero n then (zeroV c p, .ok)
  else roundReal c p (x.val n * y.val n)

/-- R78's pseudocode. -/
noncomputable def divRef (c : Params) (p : Prec) (x y : VReg) : Result :=
  let n := groupCount c p
  if x.isNaN ∨ y.isNaN then (nanV c p, .ok)
  else if x.isInf ∧ y.isInf then (nanV c p, .ok)
  else if x.isInf then (infV c p (if y.isZero n then x.neg else x.neg ^^ y.neg), .ok)
  else if y.isInf then (zeroV c p, .ok)
  else if y.isZero n then (if x.isZero n then nanV c p else infV c p x.neg, .ok)
  else if x.isZero n then (zeroV c p, .ok)
  else roundReal c p (x.val n / y.val n)

/-- R80's pseudocode, with the real square root. -/
noncomputable def sqrtRef (c : Params) (p : Prec) (x : VReg) : Result :=
  let n := groupCount c p
  if x.isNaN then (nanV c p, .ok)
  else if x.isInf then (if x.neg then nanV c p else infV c p false, .ok)
  else if x.isZero n then (zeroV c p, .ok)
  else if x.neg then (nanV c p, .ok)
  else roundReal c p (Real.sqrt (x.val n))

/-- `(z = 0) ? zero : ROUND_p(z)` (R88, R89, R93, R94) with the outcome of R69: OK unless R70 says otherwise (log
entry 9). -/
noncomputable def integerRef (c : Params) (p : Prec) (z : Int) : Result :=
  if z = 0 then (zeroV c p, .ok) else roundReal c p (z : ℝ)

/-- R88's and R89's pseudocode, `f` being the integer taken of val(x). -/
noncomputable def integerPartRef (c : Params) (p : Prec) (f : ℝ → Int) (x : VReg) : Result :=
  let n := groupCount c p
  if x.isNaN then (nanV c p, .ok)
  else if x.isInf then (infV c p x.neg, .ok)
  else if x.isZero n then (zeroV c p, .ok)
  else integerRef c p (f (x.val n))

/-- `sign(r) * floor(|r|)` (R89). -/
noncomputable def truncReal (r : ℝ) : Int := if r < 0 then -⌊|r|⌋ else ⌊|r|⌋

/-- R96's pseudocode. -/
noncomputable def narrowRef (c : Params) (x : VReg) : Result :=
  if x.isNaN then (nanV c .S, .ok)
  else if x.isInf then (infV c .S x.neg, .ok)
  else if x.isZero c.nX then (zeroV c .S, .ok)
  else roundReal c .S (x.val c.nX)

/-! ## Comparison (R82, R83) -/

/-- The rank of a value that is not NaN, in the extended reals (R82). -/
noncomputable def VReg.rankReal (n : Nat) (x : VReg) : EReal :=
  if x.isInf then (if x.neg then ⊥ else ⊤) else (x.val n : EReal)

/-- R83's pseudocode. -/
noncomputable def cmpRef (n : Nat) (x y : VReg) : CmpResult :=
  if x.isNaN ∨ y.isNaN then .un
  else if x.rankReal n = y.rankReal n then .eq
  else if x.rankReal n < y.rankReal n then .lt
  else .gt

/-! ## The formatter (R97..R109)

The text of R97 written out from the spec's pseudocode over the real magnitude, sharing none of the machine's layout
functions. Characters are the ASCII codes of R100 and R101 (log entry 16). -/

/-- `dec(n)`: the decimal digits of `n`, no leading zeros, `dec(0)` = `0`. -/
def decRef (n : Nat) : Text :=
  if n = 0 then [0x30#8] else (Nat.digits 10 n).reverse.map fun d => BitVec.ofNat 8 (0x30 + d)

/-- `decs(x)`: `dec(x)`, or `-` and `dec(-x)` for a negative x (R104). -/
def decsRef (x : Int) : Text := if x < 0 then 0x2D#8 :: decRef x.natAbs else decRef x.natAbs

/-- The fraction behind its radix character; nothing for an empty fraction (R104..R106). -/
def fractionRef (radix : Byte) (frac : Text) : Text := if frac = [] then [] else radix :: frac

/-- Trailing `0` characters removed where `strip` = 1 (R104, R106). -/
def stripRef (strip : Bool) (frac : Text) : Text := if strip then frac.rdropWhile (· == 0x30#8) else frac

/-- R104's M and X for `m` significant digits of the magnitude `a`, after the rounding carry. -/
noncomputable def sciShown (a : ℝ) (m : Nat) : Nat × Int :=
  let x := Int.log 10 a
  let r := (rhuReal a ((m : Int) - 1 - x)).toNat
  if r = 10 ^ m then (10 ^ (m - 1), x + 1) else (r, x)

/-- SCI(a, m, radix, strip) (R104). -/
noncomputable def sciRef (a : ℝ) (m : Nat) (radix : Byte) (strip : Bool) : Text :=
  let d := decRef (sciShown a m).1
  d.take 1 ++ fractionRef radix (stripRef strip d.tail) ++ 0x45#8 :: decsRef (sciShown a m).2

/-- ENG(a, m, radix) (R105): k + 1 integer digits and the exponent X3 = X - k, k in 0..2, a multiple of 3. -/
noncomputable def engRef (a : ℝ) (m : Nat) (radix : Byte) : Text :=
  let x3 := 3 * ((sciShown a m).2 / 3)
  let k := ((sciShown a m).2 - x3).toNat
  let d := decRef (sciShown a m).1
  let d := d ++ List.replicate (k + 1 - d.length) 0x30#8
  d.take (k + 1) ++ fractionRef radix (d.drop (k + 1)) ++ 0x45#8 :: decsRef x3

/-- R106's R and f, the number shown being R * 10^(-f); none is FALLBACK. `w` is MAX_SIG. -/
noncomputable def fixedShown (w : Nat) (a : ℝ) (fmax : Nat) : Option (Nat × Nat) :=
  let k := max (Int.log 10 a + 1) 1
  if (w : Int) < k then none
  else
    let f := min fmax (w - k.toNat)
    let r := (rhuReal a f).toNat
    let l := (decRef (r / 10 ^ f)).length
    if r = 0 then none
    else if l + f ≤ w then some (r, f)
    else if w < l then none
    else some ((rhuReal a ((w - l : Nat) : Int)).toNat, w - l)

/-- GROUP(ip, sep) (R109): `sep` before each digit that has a multiple of three digits from itself to the right end,
but for the first digit. -/
def groupRef (ip : Text) (sep : Byte) : Text :=
  (List.range ip.length).flatMap fun i =>
    if i ≠ 0 ∧ (ip.length - i) % 3 = 0 then [sep, ip.getD i 0] else [ip.getD i 0]

/-- The text FIXED returns for its R and f (R106). -/
def fixedRef (r f : Nat) (grp : Bool) (radix sep : Byte) (strip : Bool) : Text :=
  let ip := decRef (r / 10 ^ f)
  let d := decRef (r % 10 ^ f)
  let frac := if f = 0 then [] else List.replicate (f - d.length) 0x30#8 ++ d
  (if grp then groupRef ip sep else ip) ++ fractionRef radix (stripRef strip frac)

/-- ZERO_STR(MODE, d, m, radix) (R103). -/
def zeroRef (w : Nat) (mode : Mode) (d m : Nat) (radix : Byte) : Text :=
  match mode with
  | .fix => 0x30#8 :: fractionRef radix (List.replicate (min d (w - 1)) 0x30#8)
  | .sci => 0x30#8 :: fractionRef radix (List.replicate (m - 1) 0x30#8) ++ [0x45#8, 0x30#8]
  | .eng => 0x30#8 :: fractionRef radix (List.replicate (m - 1) 0x30#8) ++ [0x45#8, 0x30#8]
  | .all => [0x30#8]

/-- The text of the magnitude `a` in a mode, with the fallback of R107 (R97). -/
noncomputable def magnitudeRef (w : Nat) (mode : Mode) (d m : Nat) (a : ℝ) (grp : Bool) (radix sep : Byte) : Text :=
  match mode with
  | .fix =>
    match fixedShown w a d with
    | some (r, f) => fixedRef r f grp radix sep false
    | none => sciRef a m radix false
  | .sci => sciRef a m radix false
  | .eng => engRef a m radix
  | .all =>
    match fixedShown w a w with
    | some (r, f) => fixedRef r f grp radix sep true
    | none => sciRef a w radix true

/-- R97's text of V[RA] before truncation: "NaN", "Inf", "-Inf" (R102), ZERO_STR, or the sign and the text of
`a = |val(x)|`, with d and m of R99 and the separators of R100. -/
noncomputable def formatRef (c : Params) (p : Prec) (x : VReg) (mode : Mode) (dig : BitVec 4) (grp : Bool)
    (loc : Loc) : Text :=
  let n := groupCount c p
  let d := min dig.toNat c.maxSig
  let m := max d 1
  let radix := if loc = .point then 0x2E#8 else 0x2C#8
  let sep := if loc = .point then 0x2C#8 else 0x2E#8
  if x.isNaN then [0x4E#8, 0x61#8, 0x4E#8]
  else if x.isInf then (if x.neg then [0x2D#8] else []) ++ [0x49#8, 0x6E#8, 0x66#8]
  else if x.isZero n then zeroRef c.maxSig mode d m radix
  else (if x.neg then [0x2D#8] else []) ++ magnitudeRef c.maxSig mode d m |x.val n| grp radix sep

/-- The magnitude SCI and ENG display: M * 10^(X - (m - 1)) (R104, R105). -/
noncomputable def sciDisplayed (a : ℝ) (m : Nat) : ℝ :=
  ((sciShown a m).1 : ℝ) * (10 : ℝ) ^ ((sciShown a m).2 - ((m : Int) - 1))

/-- The magnitude a mode displays for `a`: R * 10^(-f) where FIXED gives a text, and SCI's where it falls back. -/
noncomputable def magnitudeDisplayed (w : Nat) (mode : Mode) (d m : Nat) (a : ℝ) : ℝ :=
  match mode with
  | .fix =>
    match fixedShown w a d with
    | some (r, f) => (r : ℝ) * (10 : ℝ) ^ (-(f : Int))
    | none => sciDisplayed a m
  | .sci => sciDisplayed a m
  | .eng => sciDisplayed a m
  | .all =>
    match fixedShown w a w with
    | some (r, f) => (r : ℝ) * (10 : ℝ) ^ (-(f : Int))
    | none => sciDisplayed a w

/-- The displayed decimal of a finite value (R111): 0 for zero, else the displayed magnitude with the sign of x. -/
noncomputable def displayedValue (c : Params) (p : Prec) (x : VReg) (mode : Mode) (dig : BitVec 4) : ℝ :=
  let n := groupCount c p
  let d := min dig.toNat c.maxSig
  if x.isZero n then 0 else signFactor x.neg * magnitudeDisplayed c.maxSig mode d (max d 1) |x.val n|

/-! ## The grammar of a NUMBER (R113, R114) -/

/-- SIGN? : nothing or `+` (positive), or `-` (negative). -/
def SignOf (t : Text) (neg : Bool) : Prop :=
  (t = [] ∧ neg = false) ∨ (t = [chPlus] ∧ neg = false) ∨ (t = [chMinus] ∧ neg = true)

/-- DIGIT* with its digit values. -/
def DigitsOf (t : Text) (ds : List Nat) : Prop := (∀ b ∈ t, isDigit b = true) ∧ ds = t.map digitVal

/-- (SEP? DIGIT)* with its digit values. -/
inductive IntTailOf (sep : Byte) : Text → List Nat → Prop
  | nil : IntTailOf sep [] []
  | digit (b : Byte) (t : Text) (ds : List Nat) :
      isDigit b = true → IntTailOf sep t ds → IntTailOf sep (b :: t) (digitVal b :: ds)
  | sepDigit (b : Byte) (t : Text) (ds : List Nat) :
      isDigit b = true → IntTailOf sep t ds → IntTailOf sep (sep :: b :: t) (digitVal b :: ds)

/-- INTPART := DIGIT (SEP? DIGIT)*. -/
def IntPartOf (sep : Byte) (t : Text) (ds : List Nat) : Prop :=
  ∃ b u es, t = b :: u ∧ isDigit b = true ∧ IntTailOf sep u es ∧ ds = digitVal b :: es

/-- MANTISSA := INTPART (RADIX DIGIT*)? | RADIX DIGIT+. -/
def MantissaOf (radix sep : Byte) (t : Text) (ints fracs : List Nat) : Prop :=
  (IntPartOf sep t ints ∧ fracs = []) ∨
  (∃ u v, t = u ++ radix :: v ∧ IntPartOf sep u ints ∧ DigitsOf v fracs) ∨
  (∃ v, t = radix :: v ∧ v ≠ [] ∧ DigitsOf v fracs ∧ ints = [])

/-- EXPONENT? with its signed value, 0 where there is none. -/
def ExponentOf (t : Text) (x : Int) : Prop :=
  (t = [] ∧ x = 0) ∨
  (∃ b s v neg ds, t = b :: (s ++ v) ∧ (b = chE ∨ b = chLowerE) ∧ SignOf s neg ∧ DigitsOf v ds ∧ ds ≠ [] ∧
    x = if neg then -(fromDigits ds : Int) else (fromDigits ds : Int))

/-- NUMBER := SIGN? MANTISSA EXPONENT? , the whole text, with its parts. -/
def NumberOf (radix sep : Byte) (t : Text) (q : NumberParts) : Prop :=
  ∃ s m e, t = s ++ m ++ e ∧ SignOf s q.neg ∧ MantissaOf radix sep m q.ints q.fracs ∧ ExponentOf e q.exp

/-- The exact real a NUMBER denotes: `(-1)^s * m * 10^(x - length(F))` (R116). -/
noncomputable def NumberParts.value (q : NumberParts) : ℝ :=
  signFactor q.neg * (fromDigits (q.ints ++ q.fracs) : ℝ) * (10 : ℝ) ^ (q.exp - (q.fracs.length : Int))

/-! ## What a command leaves unchanged (R12, R38) -/

/-- Everything but the value registers and STATUS is unchanged; TBUF byte by byte. -/
structure SameRest (s t : State) : Prop where
  cfg : t.cfg = s.cfg
  intin : t.intin = s.intin
  bytes : ∀ a, t.readByte a = s.readByte a
  pending : t.pending = s.pending
  rdata : t.rdata = s.rdata

/-- `t` is `s` with V[rd] and STATUS.OUTCOME written by a result and nothing else changed (R38, R69). -/
structure WritesResult (s t : State) (rd : RegId) (r : Result) : Prop where
  value : t.getV rd = r.1
  others : ∀ k, k ≠ rd → t.getV k = s.getV k
  status : t.status = { s.status with outcome := r.2 }
  rest : SameRest s t

/-- `t` is `s` with STATUS as given and nothing else changed. -/
structure WritesStatus (s t : State) (st : Status) : Prop where
  regs : ∀ k, t.getV k = s.getV k
  status : t.status = st
  rest : SameRest s t

/-- `t` is `s` with TBUF[0..L-1] and STATUS.LEN written by a text and nothing else changed (R38, R97, R98). -/
structure WritesText (s t : State) (text : Text) : Prop where
  regs : ∀ k, t.getV k = s.getV k
  status : t.status = { s.status with len := BitVec.ofNat 8 text.length }
  written : ∀ i (h : i < text.length), t.readByte i = text[i]
  others : ∀ a, text.length ≤ a → t.readByte a = s.readByte a
  cfg : t.cfg = s.cfg
  intin : t.intin = s.intin
  pending : t.pending = s.pending
  rdata : t.rdata = s.rdata

end Sys2Proof.Machine
end

