-- ==== Sys2Proof/Certificates/Slice0/Obligations.lean ====
section
/-! DEFINITION. The statements about the machine. Each docstring names the rule of spec/ it formalises. -/

open Sys2Proof Sys2Proof.Machine

/-! ## Encoding (30_encoding.md) -/

/-- R63, R61: the word of a well-formed command decodes to that command, whatever its operands. -/
def Obligations.DecodeOfEncode : Prop :=
  ∀ (c : Config.Params) (i : Instr), i.wellFormed c = true → decode c (encode i) = .ok i

/-- R62: a word that decodes is the word of exactly that command, and the command is well formed. -/
def Obligations.EncodeOfDecode : Prop :=
  ∀ (c : Config.Params) (w : Word) (i : Instr), decode c w = .ok i → encode i = w ∧ i.wellFormed c = true

/-- R63: no word is selected by two rows of the opcode map. -/
def Obligations.OpcodeRowsDisjoint : Prop :=
  opcodeRows.Pairwise fun a b => ∀ w : Word, ¬ (w &&& a.mask = a.value ∧ w &&& b.mask = b.value)

/-- The fields R61 marks 0, as a mask over bits [25:0], by opcode. -/
def mustBeZero : List Word := [
  0x03FFFFFF, 0x0000FFFF, 0x0000FFFF, 0x0000FFFF, 0x0000FFFF, 0x0007FFFF, 0x01C0FFFF, 0x0007FFFF, 0x0007FFFF,
  0x0007FFFF, 0x01C7FFFF, 0x01C7FFFF, 0x01C7FFFF, 0x01C7FFFF, 0x0207FFFF, 0x003F0000, 0x003FFFFF, 0x0207FFFF,
  0x0207FFFF, 0x01C70000, 0x003FFE00]

/-- The opcodes whose row of R61 uses RD, RA, RB. -/
def usesRd (op : Nat) : Bool := [1, 2, 3, 4, 5, 7, 8, 9, 14, 15, 16, 17, 18, 20].contains op
def usesRa (op : Nat) : Bool := [1, 2, 3, 4, 5, 6, 7, 8, 9, 10, 11, 12, 13, 14, 17, 18, 19].contains op
def usesRb (op : Nat) : Bool := [1, 2, 3, 4, 6].contains op

/-- R62: a word is illegal exactly when its OP is reserved, or a field the map marks 0 is nonzero, or a used register
field is NREG or more. -/
def Obligations.IllegalWords : Prop :=
  ∀ (c : Config.Params) (w : Word),
    (∃ e, decode c w = .error e) ↔
      (0x15 ≤ (opField w).toNat ∨
        w &&& mustBeZero.getD (opField w).toNat 0 ≠ 0 ∨
        (usesRd (opField w).toNat = true ∧ c.nreg ≤ (rdField w).val) ∨
        (usesRa (opField w).toNat = true ∧ c.nreg ≤ (raField w).val) ∨
        (usesRb (opField w).toNat = true ∧ c.nreg ≤ (rbField w).val))

/-- R56, R61: one word of each command, written out as {OP, P, RD, RA, RB, AUX}, decodes to that command. -/
def Obligations.SampleWordsDecode : Prop :=
  decode Config.default 0x00000000#32 = .ok .nop ∧
  decode Config.default 0x04530000#32 = .ok (.add .S 1 2 3) ∧
  decode Config.default 0x0A530000#32 = .ok (.sub .X 1 2 3) ∧
  decode Config.default 0x0D2E0000#32 = .ok (.mul .S 4 5 6) ∧
  decode Config.default 0x10CA0000#32 = .ok (.div .S 3 1 2) ∧
  decode Config.default 0x16880000#32 = .ok (.sqrt .X 2 1) ∧
  decode Config.default 0x18210000#32 = .ok (.cmp .S 4 1) ∧
  decode Config.default 0x1CC80000#32 = .ok (.floor .S 3 1) ∧
  decode Config.default 0x23100000#32 = .ok (.trunc .X 4 2) ∧
  decode Config.default 0x25700000#32 = .ok (.neg .S 5 6) ∧
  decode Config.default 0x28080000#32 = .ok (.iszero .S 1) ∧
  decode Config.default 0x2C200000#32 = .ok (.isinf .S 4) ∧
  decode Config.default 0x32380000#32 = .ok (.isnan .X 7) ∧
  decode Config.default 0x34000000#32 = .ok (.isint .S 0) ∧
  decode Config.default 0x38C80000#32 = .ok (.mov 3 1) ∧
  decode Config.default 0x3E40FFFB#32 = .ok (.ldi .X 1 0xFFFB#16) ∧
  decode Config.default 0x43C00000#32 = .ok (.cvti .X 7) ∧
  decode Config.default 0x44880000#32 = .ok (.cvtsx 2 1) ∧
  decode Config.default 0x48D00000#32 = .ok (.cvtxs 3 2) ∧
  decode Config.default 0x4C080B20#32 = .ok (.fmt .S 1 .fix 2#4 true .comma 32#8) ∧
  decode Config.default 0x50800107#32 = .ok (.parse .S 2 .comma 7#8)

/-! ## Rounding and canonical results (40_arithmetic.md R70..R72, 10_state.md R25) -/

/-- R70, R71: when ROUND_p reports OK, the value written has the sign of the exact number and its magnitude is within
half a unit of the last retained group; where the distance is exactly half a unit, it is the larger of the two
neighbours: ties go away from zero, not to the even one. -/
def Obligations.RoundWithinHalfUnit : Prop :=
  ∀ (c : Config.Params) (p : Prec) (neg : Bool) (num den : Nat) (k : Int),
    c.valid = true → num ≠ 0 → den ≠ 0 → (roundScaled c p neg num den k).2 = .ok →
    let r := (num : ℝ) / den * (10000 : ℝ) ^ k
    let v := (roundScaled c p neg num den k).1.val (groupCount c p)
    ∃ e : Int, (10000 : ℝ) ^ e ≤ r ∧ r < (10000 : ℝ) ^ (e + 1) ∧
      let half := (10000 : ℝ) ^ (e - ((groupCount c p : Int) - 1)) / 2
      v = signFactor neg * |v| ∧ |(|v| - r)| ≤ half ∧ (|(|v| - r)| = half → r < |v|)

/-- R72: an exact magnitude r that rounds to a group exponent above EXP_MAX gives an Infinity with an OVERFLOW outcome,
one that rounds to a group exponent below EXP_MIN the canonical zero with an UNDERFLOW outcome, both by the sign of the
exact result, and every other r gives OK. `half e` is half a unit of the last retained group at exponent e. -/
def Obligations.RangeOutcomes : Prop :=
  ∀ (c : Config.Params) (p : Prec) (neg : Bool) (num den : Nat) (k : Int),
    c.valid = true → num ≠ 0 → den ≠ 0 →
    let r := (num : ℝ) / den * (10000 : ℝ) ^ k
    let half := fun e : Int => 5000 * (10000 : ℝ) ^ (e - (groupCount c p : Int))
    ((10000 : ℝ) ^ (c.expMax + 1) - half c.expMax ≤ r →
      roundScaled c p neg num den k = (infV c p neg, if neg then .negOverflow else .posOverflow)) ∧
    (r < (10000 : ℝ) ^ c.expMin - half (c.expMin - 1) →
      roundScaled c p neg num den k = (zeroV c p, if neg then .negUnderflow else .posUnderflow)) ∧
    ((10000 : ℝ) ^ c.expMin - half (c.expMin - 1) ≤ r → r < (10000 : ℝ) ^ (c.expMax + 1) - half c.expMax →
      (roundScaled c p neg num den k).2 = .ok)

/-- R25, R26: every value a command writes as its result is canonical at the command's precision, said field by field
and by the model's own check, so it is well formed for the next command. -/
def Obligations.ResultsCanonical : Prop :=
  ∀ (i : Instr) (s t : State) (p : Prec) (rd : RegId),
    s.cfg.valid = true → i.resultPrec = some p → i.rd? = some rd → exec i s = .next t →
    t.status.fault = none → t.status.outcome ≠ .syntaxError →
    let x := t.getV rd
    let n := groupCount s.cfg p
    x.prec = p ∧ ¬ (x.nan = true ∧ x.inf = true) ∧
    (x.nan = true ∨ x.inf = true ∨ x.groupAt 0 = 0 → x.exp = 0 ∧ ∀ j, x.groupAt j = 0) ∧
    (x.nan = true ∨ (x.inf = false ∧ x.groupAt 0 = 0) → x.neg = false) ∧
    (x.groupAt 0 ≠ 0 → (∀ j < n, x.groupAt j ≤ 9999) ∧ (∀ j, n ≤ j → x.groupAt j = 0) ∧
      s.cfg.expMin ≤ x.exp.toInt ∧ x.exp.toInt ≤ s.cfg.expMax) ∧
    x.canonical s.cfg p = true ∧ x.wf s.cfg p = true

/-! ## Arithmetic (40_arithmetic.md) -/

/-- R74: ADD writes what R74's pseudocode gives, and nothing else but OUTCOME. -/
def Obligations.AddFollowsPseudocode : Prop :=
  ∀ (s : State) (p : Prec) (rd ra rb : RegId),
    s.cfg.valid = true → (s.getV ra).wf s.cfg p = true → (s.getV rb).wf s.cfg p = true →
    ∃ t, exec (.add p rd ra rb) s = .next t ∧
      WritesResult s t rd (addRef s.cfg p (s.getV ra) (s.getV rb) (s.getV rb).neg)

/-- R75: SUB is R74's pseudocode with the sign of y inverted. -/
def Obligations.SubFollowsPseudocode : Prop :=
  ∀ (s : State) (p : Prec) (rd ra rb : RegId),
    s.cfg.valid = true → (s.getV ra).wf s.cfg p = true → (s.getV rb).wf s.cfg p = true →
    ∃ t, exec (.sub p rd ra rb) s = .next t ∧
      WritesResult s t rd (addRef s.cfg p (s.getV ra) (s.getV rb) (!(s.getV rb).neg))

/-- R76: ADD is commutative in every case: the two orders of the sources give the same state. -/
def Obligations.AddCommutes : Prop :=
  ∀ (s : State) (p : Prec) (rd ra rb : RegId),
    s.cfg.valid = true → exec (.add p rd ra rb) s = exec (.add p rd rb ra) s

/-- R76: SUB(x, y) = ADD(x, NEG(y)) for well-formed x and y. -/
def Obligations.SubIsAddOfNeg : Prop :=
  ∀ (s : State) (p : Prec) (rd ra rb rt : RegId),
    s.cfg.valid = true → (s.getV ra).wf s.cfg p = true → (s.getV rb).wf s.cfg p = true → rt ≠ ra →
    ∃ t u v, exec (.sub p rd ra rb) s = .next t ∧ exec (.neg p rt rb) s = .next u ∧
      exec (.add p rd ra rt) u = .next v ∧
      t.getV rd = v.getV rd ∧ t.status.outcome = v.status.outcome

/-- R77: MUL writes what R77's pseudocode gives: ROUND_p of the exact product for finite nonzero operands. -/
def Obligations.MulFollowsPseudocode : Prop :=
  ∀ (s : State) (p : Prec) (rd ra rb : RegId),
    s.cfg.valid = true → (s.getV ra).wf s.cfg p = true → (s.getV rb).wf s.cfg p = true →
    ∃ t, exec (.mul p rd ra rb) s = .next t ∧ WritesResult s t rd (mulRef s.cfg p (s.getV ra) (s.getV rb))

/-- R78: DIV writes what R78's pseudocode gives: ROUND_p of the exact quotient for finite nonzero operands. -/
def Obligations.DivFollowsPseudocode : Prop :=
  ∀ (s : State) (p : Prec) (rd ra rb : RegId),
    s.cfg.valid = true → (s.getV ra).wf s.cfg p = true → (s.getV rb).wf s.cfg p = true →
    ∃ t, exec (.div p rd ra rb) s = .next t ∧ WritesResult s t rd (divRef s.cfg p (s.getV ra) (s.getV rb))

/-- R80: SQRT writes what R80's pseudocode gives: ROUND_p of the real square root for a positive finite operand. -/
def Obligations.SqrtFollowsPseudocode : Prop :=
  ∀ (s : State) (p : Prec) (rd ra : RegId),
    s.cfg.valid = true → (s.getV ra).wf s.cfg p = true →
    ∃ t, exec (.sqrt p rd ra) s = .next t ∧ WritesResult s t rd (sqrtRef s.cfg p (s.getV ra))

/-! ## Comparison and tests (41_compare_classify.md) -/

/-- R83, R82: CMP writes STATUS.CMP by rank and nothing else. -/
def Obligations.CmpFollowsRank : Prop :=
  ∀ (s : State) (p : Prec) (ra rb : RegId),
    (s.getV ra).wf s.cfg p = true → (s.getV rb).wf s.cfg p = true →
    ∃ t, exec (.cmp p ra rb) s = .next t ∧
      WritesStatus s t { s.status with cmp := cmpRef (groupCount s.cfg p) (s.getV ra) (s.getV rb) }

/-- R84..R87: each test writes STATUS.T by its predicate and nothing else. -/
def Obligations.TestsWriteT : Prop :=
  ∀ (s : State) (p : Prec) (ra : RegId), (s.getV ra).wf s.cfg p = true →
    (∃ t b, exec (.iszero p ra) s = .next t ∧ WritesStatus s t { s.status with t := b } ∧
      (b = true ↔ (s.getV ra).nan = false ∧ (s.getV ra).inf = false ∧
        ∀ i < groupCount s.cfg p, (s.getV ra).groupAt i = 0)) ∧
    (∃ t b, exec (.isinf p ra) s = .next t ∧ WritesStatus s t { s.status with t := b } ∧
      (b = true ↔ (s.getV ra).nan = false ∧ (s.getV ra).inf = true)) ∧
    (∃ t b, exec (.isnan p ra) s = .next t ∧ WritesStatus s t { s.status with t := b } ∧
      (b = true ↔ (s.getV ra).nan = true)) ∧
    (∃ t b, exec (.isint p ra) s = .next t ∧ WritesStatus s t { s.status with t := b } ∧
      (b = true ↔ (s.getV ra).nan = false ∧ (s.getV ra).inf = false ∧
        ∃ z : Int, (s.getV ra).val (groupCount s.cfg p) = z))

/-! ## Integer part and sign (42_integer_sign.md) -/

/-- R88, R89, R69: FLOOR and TRUNC write ROUND_p of the integer their pseudocode takes of val(x), with the outcome R69
gives: OK, and OVERFLOW where ROUND_p leaves a narrowed exponent range (log entry 9). -/
def Obligations.FloorTruncFollowPseudocode : Prop :=
  ∀ (s : State) (p : Prec) (rd ra : RegId),
    s.cfg.valid = true → (s.getV ra).wf s.cfg p = true →
    (∃ t, exec (.floor p rd ra) s = .next t ∧
      WritesResult s t rd (integerPartRef s.cfg p Int.floor (s.getV ra))) ∧
    (∃ t, exec (.trunc p rd ra) s = .next t ∧
      WritesResult s t rd (integerPartRef s.cfg p truncReal (s.getV ra)))

/-- R88, R89: the integer is exactly representable, so ROUND_p returns it unchanged with outcome OK: for FLOOR where
`x.exp >= N_p - 1` or `x.exp + 1 <= EXP_MAX`, the two cases of R88's derivation, one of which always holds at the
defaults; for TRUNC always. -/
def Obligations.FloorTruncExact : Prop :=
  ∀ (s : State) (p : Prec) (rd ra : RegId),
    s.cfg.valid = true → (s.getV ra).wf s.cfg p = true → (s.getV ra).isFinite = true →
    let n := groupCount s.cfg p
    ((n : Int) - 1 ≤ (s.getV ra).e ∨ (s.getV ra).e + 1 ≤ s.cfg.expMax →
      ∃ t, exec (.floor p rd ra) s = .next t ∧ t.status.outcome = .ok ∧
        (t.getV rd).val n = ⌊(s.getV ra).val n⌋) ∧
    (∃ t, exec (.trunc p rd ra) s = .next t ∧ t.status.outcome = .ok ∧
      (t.getV rd).val n = truncReal ((s.getV ra).val n))

/-- R90: NEG of NaN, Infinity, zero and a finite nonzero value, whose image keeps its groups and exponent and has the
other sign; of every finite value NEG is the exact negation. -/
def Obligations.NegFollowsPseudocode : Prop :=
  ∀ (s : State) (p : Prec) (rd ra : RegId),
    s.cfg.valid = true → (s.getV ra).wf s.cfg p = true →
    let x := s.getV ra
    let n := groupCount s.cfg p
    ∃ t r, exec (.neg p rd ra) s = .next t ∧ WritesResult s t rd (r, .ok) ∧
      (x.isNaN = true → r = nanV s.cfg p) ∧
      (x.isInf = true → r = infV s.cfg p (!x.neg)) ∧
      (x.isZero n = true → r = zeroV s.cfg p) ∧
      (x.isFinite = true → x.isZero n = false → r = finiteV s.cfg p (x.groups n) x.e (!x.neg) ∧
        r.nan = false ∧ r.inf = false ∧ r.neg = !x.neg ∧ r.exp = x.exp ∧ ∀ j < n, r.groupAt j = x.groupAt j) ∧
      (x.isFinite = true → r.isFinite = true ∧ r.val n = -x.val n)

/-! ## Moves and conversions (43_move_convert.md) -/

/-- R91, R92: NOP changes nothing; MOV copies the stored image, checked or not, and changes nothing else. -/
def Obligations.NopAndMov : Prop :=
  ∀ (s : State) (rd ra : RegId),
    exec .nop s = .next s ∧
    ∃ t, exec (.mov rd ra) s = .next t ∧ WritesResult s t rd (s.getV ra, s.status.outcome)

/-- R93, R94, R69: LDI and CVTI write ROUND_p of their integer (zero for 0) with the outcome R69 gives: OK, and OVERFLOW
where ROUND_p leaves a narrowed exponent range (log entry 9). -/
def Obligations.IntegerLoads : Prop :=
  ∀ (s : State) (p : Prec) (rd : RegId) (imm : BitVec 16), s.cfg.valid = true →
    (∃ t, exec (.ldi p rd imm) s = .next t ∧ WritesResult s t rd (integerRef s.cfg p imm.toInt)) ∧
    (∃ t, exec (.cvti p rd) s = .next t ∧ WritesResult s t rd (integerRef s.cfg p s.intin.toInt))

/-- R93, R94: LDI is never out of range where EXP_MAX >= 1, and exact with two groups; CVTI is never out of range where
EXP_MAX >= 4, and exact with five groups. All of these hold at the defaults. -/
def Obligations.IntegerLoadsExact : Prop :=
  ∀ (s : State) (p : Prec) (rd : RegId) (imm : BitVec 16), s.cfg.valid = true →
    (1 ≤ s.cfg.expMax → ∃ t, exec (.ldi p rd imm) s = .next t ∧ t.status.outcome = .ok ∧
      (2 ≤ groupCount s.cfg p → (t.getV rd).val (groupCount s.cfg p) = imm.toInt)) ∧
    (4 ≤ s.cfg.expMax → ∃ t, exec (.cvti p rd) s = .next t ∧ t.status.outcome = .ok ∧
      (5 ≤ groupCount s.cfg p → (t.getV rd).val (groupCount s.cfg p) = s.intin.toInt))

/-- R95: CVTSX keeps the class and the sign of an Infinity and is exact on finite values. -/
def Obligations.WideningExact : Prop :=
  ∀ (s : State) (rd ra : RegId),
    s.cfg.valid = true → (s.getV ra).wf s.cfg .S = true →
    ∃ t r, exec (.cvtsx rd ra) s = .next t ∧ WritesResult s t rd (r, .ok) ∧ r.canonical s.cfg .X = true ∧
      ((s.getV ra).isNaN = true → r = nanV s.cfg .X) ∧
      ((s.getV ra).isInf = true → r = infV s.cfg .X (s.getV ra).neg) ∧
      ((s.getV ra).isFinite = true → r.isFinite = true ∧ r.val s.cfg.nX = (s.getV ra).val s.cfg.nS)

/-- R96: CVTXS writes what R96's pseudocode gives: ROUND_S of the X value. -/
def Obligations.NarrowFollowsPseudocode : Prop :=
  ∀ (s : State) (rd ra : RegId),
    s.cfg.valid = true → (s.getV ra).wf s.cfg .X = true →
    ∃ t, exec (.cvtxs rd ra) s = .next t ∧ WritesResult s t rd (narrowRef s.cfg (s.getV ra))

/-- R96: CVTXS(CVTSX(x)) = x for a canonical S value x. -/
def Obligations.NarrowOfWiden : Prop :=
  ∀ (s : State) (rd ra : RegId),
    s.cfg.valid = true → (s.getV ra).canonical s.cfg .S = true →
    ∃ t u, exec (.cvtsx rd ra) s = .next t ∧ exec (.cvtxs rd rd) t = .next u ∧ u.getV rd = s.getV ra ∧
      u.status.outcome = .ok

/-! ## Formatter (44_format.md) -/

/-- R97, R98: FMT writes the text of R97 (the layout of R102..R109 as Reference.lean writes it out, with the characters of
log entry 16), truncated by R110, to TBUF[0..L-1] and its length to LEN, and changes no
other byte and no other state. -/
def Obligations.FmtWritesText : Prop :=
  ∀ (s : State) (p : Prec) (ra : RegId) (mode : Mode) (dig : BitVec 4) (grp : Bool) (loc : Loc) (cap : BitVec 8),
    s.cfg.valid = true → (s.getV ra).wf s.cfg p = true → cap.toNat ≤ s.cfg.tbufSize →
    ∃ t, exec (.fmt p ra mode dig grp loc cap) s = .next t ∧
      WritesText s t (truncateText s.cfg.sentinel (formatRef s.cfg p (s.getV ra) mode dig grp loc) cap.toNat)

/-- R110: LEN is min(L, CAP); a text that fits is written whole, and of one that does not fit CAP - 1 characters are
written and then the sentinel. -/
def Obligations.FmtTruncates : Prop :=
  ∀ (s t : State) (p : Prec) (ra : RegId) (mode : Mode) (dig : BitVec 4) (grp : Bool) (loc : Loc) (cap : BitVec 8),
    (s.getV ra).wf s.cfg p = true → cap.toNat ≤ s.cfg.tbufSize →
    exec (.fmt p ra mode dig grp loc cap) s = .next t →
    let text := formatValue s.cfg p (s.getV ra) mode dig grp loc
    t.status.len.toNat = min text.length cap.toNat ∧
    (∀ i (h : i < text.length), text.length ≤ cap.toNat ∨ i + 1 < cap.toNat → t.readByte i = text[i]) ∧
    (cap.toNat < text.length → cap ≠ 0#8 → t.readByte (cap.toNat - 1) = s.cfg.sentinel)

/-- R102, R103: the texts of NaN, the Infinities and zero, in every mode. The byte literals are the ASCII codes of log
entry 16 (PRESUMED by the spec, I9). -/
def Obligations.SpecialTexts : Prop :=
  ∀ (c : Config.Params) (p : Prec) (x : VReg) (mode : Mode) (dig : BitVec 4) (grp : Bool) (loc : Loc),
    let d := min dig.toNat c.maxSig
    let m := max d 1
    let zeros := fun n : Nat => if n = 0 then [0x30#8] else 0x30#8 :: radixOf loc :: List.replicate n 0x30#8
    (x.isNaN = true → formatValue c p x mode dig grp loc = [0x4E#8, 0x61#8, 0x4E#8]) ∧
    (x.isInf = true → x.neg = false → formatValue c p x mode dig grp loc = [0x49#8, 0x6E#8, 0x66#8]) ∧
    (x.isInf = true → x.neg = true → formatValue c p x mode dig grp loc = [0x2D#8, 0x49#8, 0x6E#8, 0x66#8]) ∧
    (x.isZero (groupCount c p) = true →
      formatValue c p x .fix dig grp loc = zeros (min d (c.maxSig - 1)) ∧
      formatValue c p x .sci dig grp loc = zeros (m - 1) ++ [0x45#8, 0x30#8] ∧
      formatValue c p x .eng dig grp loc = zeros (m - 1) ++ [0x45#8, 0x30#8] ∧
      formatValue c p x .all dig grp loc = [0x30#8])

/-- 44_format.md section 3: the formatter's integer logarithm and rounding are ilog_10 and rhu of the exact magnitude. -/
def Obligations.FormatterRoundsExactly : Prop :=
  ∀ (m : Nat) (k f : Int), m ≠ 0 →
    ilog10 m k = Int.log 10 ((m : ℝ) * (10 : ℝ) ^ k) ∧
    (rhu m k f : Int) = rhuReal ((m : ℝ) * (10 : ℝ) ^ k) f

/-- R104: SCI shows exactly d significant digits: the rounded mantissa has d digits, carry included. -/
def Obligations.SciHasDigitCount : Prop :=
  ∀ (m : Nat) (k : Int) (d : Nat), m ≠ 0 → 1 ≤ d →
    10 ^ (d - 1) ≤ (sciParts (ilog10 m k) (rhu m k) d).1 ∧ (sciParts (ilog10 m k) (rhu m k) d).1 < 10 ^ d ∧
    (decText (sciParts (ilog10 m k) (rhu m k) d).1).length = d

/-- R106: the digits of a fixed-point text never exceed MAX_SIG; signs, the radix and separators do not count. -/
def Obligations.FixedWithinDisplayWidth : Prop :=
  ∀ (maxSig m : Nat) (k : Int) (fmax : Nat) (grp : Bool) (loc : Loc) (strip : Bool) (t : Text),
    m ≠ 0 → 1 ≤ maxSig →
    fixedText maxSig (ilog10 m k) (rhu m k) fmax grp (radixOf loc) (sepOf loc) strip = some t →
    t.countP isDigit ≤ maxSig

/-- R110: at the defaults no text is longer than 21 characters, so CAP >= 21 never truncates. -/
def Obligations.LongestText : Prop :=
  ∀ (p : Prec) (x : VReg) (mode : Mode) (dig : BitVec 4) (grp : Bool) (loc : Loc),
    x.wf Config.default p = true → (formatValue Config.default p x mode dig grp loc).length ≤ 21

/-- R105, R109: the exponent of an ENG text is a multiple of 3 and its mantissa has one to three integer digits, the
first not `0`; GROUP puts a separator after every three digits from the right end and keeps the digits. The characters
are those of log entry 16. -/
def Obligations.EngAndGroupingInThrees : Prop :=
  (∀ (c : Config.Params) (p : Prec) (x : VReg) (dig : BitVec 4) (grp : Bool) (loc : Loc),
    c.valid = true → x.wf c p = true → x.isFinite = true → x.isZero (groupCount c p) = false →
    ∃ (ip frac : Text) (z : Int),
      formatValue c p x .eng dig grp loc = (if x.neg then [0x2D#8] else []) ++ ip ++
        (if frac = [] then [] else radixOf loc :: frac) ++ 0x45#8 :: decsText (3 * z) ∧
      1 ≤ ip.length ∧ ip.length ≤ 3 ∧ ip.head? ≠ some 0x30#8 ∧ (∀ b ∈ ip ++ frac, isDigit b = true) ∧
      (ip ++ frac).length = max ip.length (max (min dig.toNat c.maxSig) 1)) ∧
  (∀ (ip : Text) (sep : Byte),
    (groupText ip sep).length = ip.length + (ip.length - 1) / 3 ∧
    ∀ i < (groupText ip sep).length, (groupText ip sep).reverse[i]? =
      if i % 4 = 3 then some sep else ip.reverse[i - i / 4]?)

/-! ## Parser (45_parse.md) -/

/-- R114: the scanner accepts exactly the texts of the grammar and reads their parts. -/
def Obligations.ScannerIsGrammar : Prop :=
  ∀ (loc : Loc) (t : Text) (q : NumberParts),
    scanNumber (radixOf loc) (sepOf loc) t = some q ↔ NumberOf (radixOf loc) (sepOf loc) t q

/-- R112, R115, R116: PARSE writes ROUND_p of the number the text denotes, or zero for an all-zero mantissa; a text
that is no NUMBER or has too many digits gives SYNTAX_ERROR and leaves V[RD] unchanged. -/
def Obligations.ParseFollowsPseudocode : Prop :=
  ∀ (s : State) (p : Prec) (rd : RegId) (loc : Loc) (len : BitVec 8),
    s.cfg.valid = true → len.toNat ≤ s.cfg.tbufSize →
    let text := s.memRead 0 len.toNat
    (∀ q, NumberOf (radixOf loc) (sepOf loc) text q → q.digitCount ≤ s.cfg.maxParseDigits →
      ∃ t, exec (.parse p rd loc len) s = .next t ∧
        WritesResult s t rd (if q.mantissa = 0 then (zeroV s.cfg p, .ok) else roundReal s.cfg p q.value)) ∧
    ((¬ ∃ q, NumberOf (radixOf loc) (sepOf loc) text q ∧ q.digitCount ≤ s.cfg.maxParseDigits) →
      ∃ t, exec (.parse p rd loc len) s = .next t ∧ WritesStatus s t { s.status with outcome := .syntaxError })

/-- R138: PARSE depends on exactly LEN bytes: two states that agree on TBUF[0..LEN-1], the parameters and V[RD] get the
same V[RD] and OUTCOME. -/
def Obligations.ParseReadsOnlyItsBytes : Prop :=
  ∀ (s s' t t' : State) (p : Prec) (rd : RegId) (loc : Loc) (len : BitVec 8),
    s'.cfg = s.cfg → s'.getV rd = s.getV rd → (∀ a < len.toNat, s'.readByte a = s.readByte a) →
    len.toNat ≤ s.cfg.tbufSize →
    exec (.parse p rd loc len) s = .next t → exec (.parse p rd loc len) s' = .next t' →
    t'.getV rd = t.getV rd ∧ t'.status.outcome = t.status.outcome

/-- R111, R114, at the default display width and digit limit. The whole text FMT makes of a finite value, before
truncation, is a NUMBER that denotes the displayed decimal, so PARSE gives ROUND_p of that decimal; the grouped text
parses to the same; a truncated text does not parse; and PARSE at S gives a canonical S value back exactly when the
text displays its value. -/
def Obligations.FormattedTextParses : Prop :=
  ∀ (p p' : Prec) (x : VReg) (mode : Mode) (dig : BitVec 4) (loc : Loc),
    x.wf Config.default p = true → x.isFinite = true →
    let c := Config.default
    let text := formatValue c p x mode dig false loc
    let shown := displayedValue c p x mode dig
    (∃ q, NumberOf (radixOf loc) (sepOf loc) text q ∧ q.digitCount ≤ c.maxParseDigits ∧ q.value = shown) ∧
    parseText c p' loc text = some (if shown = 0 then (zeroV c p', .ok) else roundReal c p' shown) ∧
    parseText c p' loc (formatValue c p x mode dig true loc) = parseText c p' loc text ∧
    (∀ grp cap, cap < (formatValue c p x mode dig grp loc).length →
      parseText c p' loc (truncateText c.sentinel (formatValue c p x mode dig grp loc) cap) = none) ∧
    (p = .S → x.canonical c .S = true →
      (parseText c .S loc text = some (x, .ok) ↔ shown = x.val (groupCount c .S)))

/-! ## Faults (60_exceptions.md) -/

/-- R67, R121: a command that reads a register that is not well formed at its precision raises BAD_OPERAND and changes
nothing but STATUS.FAULT. -/
def Obligations.BadOperandRaised : Prop :=
  ∀ (i : Instr) (s : State), (∃ q ∈ i.sources, (s.getV q.2).wf s.cfg q.1 = false) →
    ∃ t, exec i s = .next t ∧ WritesStatus s t { s.status with fault := some .badOperand }

/-- R68: FMT with CAP > TBUF_SIZE and PARSE with LEN > TBUF_SIZE raise BAD_BUFFER and change nothing else; with CAP or
LEN at most TBUF_SIZE they raise no fault. -/
def Obligations.BadBufferRaised : Prop :=
  ∀ (s : State) (p : Prec) (r : RegId) (mode : Mode) (dig : BitVec 4) (grp : Bool) (loc : Loc) (n : BitVec 8),
    (s.cfg.tbufSize < n.toNat →
      ((s.getV r).wf s.cfg p = true → ∃ t, exec (.fmt p r mode dig grp loc n) s = .next t ∧
        WritesStatus s t { s.status with fault := some .badBuffer }) ∧
      (∃ t, exec (.parse p r loc n) s = .next t ∧
        WritesStatus s t { s.status with fault := some .badBuffer })) ∧
    (n.toNat ≤ s.cfg.tbufSize →
      ((s.getV r).wf s.cfg p = true → ∃ t, exec (.fmt p r mode dig grp loc n) s = .next t ∧
        t.status.fault = s.status.fault) ∧
      (∃ t, exec (.parse p r loc n) s = .next t ∧ t.status.fault = s.status.fault))

/-- R38, R67, R68: what no command changes, and which commands change each register, STATUS field and byte. FAULT
changes only to BAD_OPERAND, by a command that reads an operand that is not well formed, or to BAD_BUFFER, by FMT or
PARSE with CAP or LEN above TBUF_SIZE. -/
def Obligations.CommandFrame : Prop :=
  ∀ (i : Instr) (s t : State), exec i s = .next t →
    (∀ k, i.rd? ≠ some k → t.getV k = s.getV k) ∧
    ((∀ p ra rb, i ≠ .cmp p ra rb) → t.status.cmp = s.status.cmp) ∧
    ((∀ p ra, i ≠ .iszero p ra ∧ i ≠ .isinf p ra ∧ i ≠ .isnan p ra ∧ i ≠ .isint p ra) → t.status.t = s.status.t) ∧
    ((∀ p ra mode dig grp loc cap, i ≠ .fmt p ra mode dig grp loc cap) →
      t.status.len = s.status.len ∧ ∀ a, t.readByte a = s.readByte a) ∧
    (i.resultPrec = none → t.status.outcome = s.status.outcome) ∧
    (t.status.fault ≠ s.status.fault →
      (t.status.fault = some .badOperand ∧ ∃ q ∈ i.sources, (s.getV q.2).wf s.cfg q.1 = false) ∨
      (t.status.fault = some .badBuffer ∧ ∃ (p : Prec) (r : RegId) (mode : Mode) (dig : BitVec 4) (grp : Bool)
        (loc : Loc) (n : BitVec 8), (i = .fmt p r mode dig grp loc n ∨ i = .parse p r loc n) ∧
          s.cfg.tbufSize < n.toNat)) ∧
    t.cfg = s.cfg ∧ t.intin = s.intin ∧ t.pending = s.pending ∧ t.rdata = s.rdata

/-- R119, R140: every command, on every state, ends in a next state: nothing is refused and nothing stops. -/
def Obligations.EveryCommandEnds : Prop := ∀ (i : Instr) (s : State), ∃ t, exec i s = .next t

/-- R62, R66: an illegal word written to CMD with no fault pending raises ILLEGAL_CMD and changes nothing else. -/
def Obligations.IllegalWordRaises : Prop :=
  ∀ (s : State) (w : Word) (rest : List HostAccess) (e : Illegal),
    s.pending = .write .word 0x000 w :: rest → s.status.fault = none → decode s.cfg w = .error e →
    ∃ t, step s = .next t ∧
      WritesStatus { s with pending := rest } t { s.status with fault := some .illegalCmd }

/-- R122: while a fault is pending a word written to CMD is discarded: it changes no state. -/
def Obligations.PendingFaultDiscards : Prop :=
  ∀ (s : State) (w : Word) (rest : List HostAccess) (f : FaultCode),
    s.pending = .write .word 0x000 w :: rest → s.status.fault = some f → step s = .next { s with pending := rest }

/-- R32, R122, R123: a pending fault keeps its code until CTRL is written with SRESET or CLRFLT, or the reset input. -/
def Obligations.FaultIsSticky : Prop :=
  ∀ (s t : State) (f : FaultCode), s.status.fault = some f → step s = .next t → t.status.fault ≠ some f →
    (∃ w rest, s.pending = .write .word 0x008 w :: rest ∧ (w.getLsbD 0 = true ∨ w.getLsbD 1 = true)) ∨
    (∃ rest, s.pending = .resetInput :: rest)

/-- R35, R123, R133: CTRL: CLRFLT clears STATUS.FAULT only; SRESET wins and performs the soft reset; other bits do
nothing. -/
def Obligations.CtrlWrites : Prop :=
  ∀ (s : State) (w : Word) (rest : List HostAccess), s.pending = .write .word 0x008 w :: rest →
    ∃ t, step s = .next t ∧
      (w.getLsbD 0 = true →
        (∀ k, t.getV k = VReg.reset s.cfg) ∧ t.status = Status.reset ∧ t.intin = 0 ∧
        (∀ a, t.readByte a = s.readByte a) ∧ t.cfg = s.cfg ∧ t.pending = rest ∧ t.rdata = s.rdata) ∧
      (w.getLsbD 0 = false → w.getLsbD 1 = true →
        WritesStatus { s with pending := rest } t { s.status with fault := none }) ∧
      (w.getLsbD 0 = false → w.getLsbD 1 = false → t = { s with pending := rest })

/-! ## Host window and memory (20_memory.md, 10_state.md) -/

/-- R34, R50, R66, with accesses as log entry 3 holds them: the next access being a write of `w` to CMD, with no fault
pending and `w` the word of a well-formed command, the step is `exec` of that command on the state without that
access. -/
def Obligations.StepRunsDecoded : Prop :=
  ∀ (s : State) (w : Word) (rest : List HostAccess) (i : Instr),
    s.pending = .write .word 0x000 w :: rest → s.status.fault = none → decode s.cfg w = .ok i →
    step s = exec i { s with pending := rest }

/-- R49: a host read the engine performs changes nothing but the word returned. -/
def Obligations.ReadsHaveNoSideEffect : Prop :=
  ∀ (s t : State) (width : Width) (off : Nat) (rest : List HostAccess),
    s.pending = .read width off :: rest → step s = .next t →
    ∃ d, t = { s with pending := rest, rdata := some d }

/-- R17, R44: the words of a value register. Group word j is g[j] in bits [15:0] and 0 above; the trailer word is EXP in
[13:0], INF in [14], NAN in [15], NEG in [16], 0 in [30:17] and PREC in [31], 0 = S and 1 = X. A read returns these
fields, a write sets them and nothing else, unchecked, and a word reads back what was written, less the bits that are
not stored. -/
def Obligations.RegisterWordsReadBack : Prop :=
  ∀ (s : State) (k : RegId) (w : Word) (rest : List HostAccess), s.Inv → k.val < s.cfg.nreg →
    let x := s.getV k
    let after := { s with pending := rest }
    let trailerAt := 0x100 + 0x80 * k.val + 0x7C
    (∀ j < s.cfg.nX,
      let groupWordAt := 0x100 + 0x80 * k.val + 4 * j
      (s.pending = .read .word groupWordAt :: rest → ∃ d, step s = .next { after with rdata := some d } ∧
        d.extractLsb' 0 16 = x.g.getD j 0 ∧ d.extractLsb' 16 16 = 0) ∧
      (s.pending = .write .word groupWordAt w :: rest →
        ∃ t y, step s = .next t ∧ WritesResult after t k (y, s.status.outcome) ∧
          y.g.length = x.g.length ∧ y.g.getD j 0 = w.extractLsb' 0 16 ∧ (∀ i, i ≠ j → y.g.getD i 0 = x.g.getD i 0) ∧
          y.prec = x.prec ∧ y.exp = x.exp ∧ y.neg = x.neg ∧ y.inf = x.inf ∧ y.nan = x.nan) ∧
      (s.pending = .write .word groupWordAt w :: .read .word groupWordAt :: rest →
        ∃ t u, step s = .next t ∧ step t = .next u ∧ u.rdata = some (w &&& 0x0000FFFF#32) ∧
          ∀ k', k' ≠ k → u.getV k' = s.getV k')) ∧
    (s.pending = .read .word trailerAt :: rest → ∃ d, step s = .next { after with rdata := some d } ∧
      d.extractLsb' 0 14 = x.exp ∧ d.getLsbD 14 = x.inf ∧ d.getLsbD 15 = x.nan ∧ d.getLsbD 16 = x.neg ∧
      d.extractLsb' 17 14 = 0 ∧ (d.getLsbD 31 = true ↔ x.prec = .X)) ∧
    (s.pending = .write .word trailerAt w :: rest →
      ∃ t y, step s = .next t ∧ WritesResult after t k (y, s.status.outcome) ∧ y.g = x.g ∧
        y.exp = w.extractLsb' 0 14 ∧ y.inf = w.getLsbD 14 ∧ y.nan = w.getLsbD 15 ∧ y.neg = w.getLsbD 16 ∧
        (y.prec = .X ↔ w.getLsbD 31 = true)) ∧
    (s.pending = .write .word trailerAt w :: .read .word trailerAt :: rest →
      ∃ t u, step s = .next t ∧ step t = .next u ∧ u.rdata = some (w &&& 0x8001FFFF#32) ∧
        ∀ k', k' ≠ k → u.getV k' = s.getV k')

/-- R45: the word at 0x1000 + 4m is the four bytes TBUF[4m..4m+3], the first in bits [7:0]: a read returns them and a
host write replaces exactly them. -/
def Obligations.TextWordsLittleEndian : Prop :=
  ∀ (s : State) (m : Nat) (w : Word) (rest : List HostAccess), s.cfg.valid = true → 4 * m < s.cfg.tbufSize →
    (s.pending = .read .word (0x1000 + 4 * m) :: rest →
      ∃ t d, step s = .next t ∧ t.rdata = some d ∧
        d.extractLsb' 0 8 = s.readByte (4 * m) ∧ d.extractLsb' 8 8 = s.readByte (4 * m + 1) ∧
        d.extractLsb' 16 8 = s.readByte (4 * m + 2) ∧ d.extractLsb' 24 8 = s.readByte (4 * m + 3)) ∧
    (s.pending = .write .word (0x1000 + 4 * m) w :: rest →
      ∃ t, step s = .next t ∧
        t.readByte (4 * m) = w.extractLsb' 0 8 ∧ t.readByte (4 * m + 1) = w.extractLsb' 8 8 ∧
        t.readByte (4 * m + 2) = w.extractLsb' 16 8 ∧ t.readByte (4 * m + 3) = w.extractLsb' 24 8 ∧
        (∀ a, (a < 4 * m ∨ 4 * m + 4 ≤ a) → t.readByte a = s.readByte a) ∧
        (∀ k, t.getV k = s.getV k) ∧ t.status = s.status ∧ t.intin = s.intin ∧ t.cfg = s.cfg ∧ t.pending = rest)

/-- R64, R65: the host writes STR stands for put the text into TBUF from offset 0, padded with 0x00 to a whole word, and
change nothing else. -/
def Obligations.StrWritesText : Prop :=
  ∀ (s : State) (text : Text) (rest : List HostAccess), s.cfg.valid = true → text.length ≤ s.cfg.tbufSize →
    s.pending = expandPseudo (.str text) ++ rest →
    ∃ t : State, Host.Core.run Sys2Proof.core (expandPseudo (.str text)).length s = .next t ∧
      (∀ i (h : i < text.length), t.readByte i = text[i]) ∧
      (∀ i, text.length ≤ i → i < (text.length + 3) / 4 * 4 → t.readByte i = 0x00#8) ∧
      (∀ i, (text.length + 3) / 4 * 4 ≤ i → t.readByte i = s.readByte i) ∧
      (∀ k, t.getV k = s.getV k) ∧ t.status = s.status ∧ t.intin = s.intin ∧ t.pending = rest

/-- R36: the two INTIN words read back what was written, low word at 0x010 and high word at 0x014, and nothing else
changes. -/
def Obligations.IntinReadsBack : Prop :=
  ∀ (s : State) (lo hi : Word) (rest : List HostAccess),
    s.pending = .write .word 0x010 lo :: .write .word 0x014 hi :: .read .word 0x010 :: .read .word 0x014 :: rest →
    ∃ t u a b, step s = .next t ∧ step t = .next u ∧ step u = .next a ∧ step a = .next b ∧
      b.intin = hi ++ lo ∧ a.rdata = some lo ∧ b.rdata = some hi ∧
      (∀ k, b.getV k = s.getV k) ∧ b.status = s.status ∧ b.cfg = s.cfg ∧ b.pending = rest ∧
      ∀ i, b.readByte i = s.readByte i

/-- R46: a write to a reserved word or a read-only register is ignored, and a read of a reserved word or of CMD or CTRL
returns 0. -/
def Obligations.ReservedWords : Prop :=
  ∀ (s : State) (off : Nat) (w : Word) (rest : List HostAccess),
    s.cfg.valid = true → off % 4 = 0 → off < 0x2000 →
    let reserved := (0x01C ≤ off ∧ off < 0x100) ∨ (0x100 + 0x80 * s.cfg.nreg ≤ off ∧ off < 0x1000) ∨
      0x1000 + s.cfg.tbufSize ≤ off ∨
      (0x100 ≤ off ∧ off < 0x1000 ∧ 4 * s.cfg.nX ≤ (off - 0x100) % 0x80 ∧ (off - 0x100) % 0x80 < 0x7C)
    (reserved ∨ off = 0x004 ∨ off = 0x00C ∨ off = 0x018 →
      s.pending = .write .word off w :: rest → step s = .next { s with pending := rest }) ∧
    (reserved ∨ off = 0x000 ∨ off = 0x008 →
      s.pending = .read .word off :: rest → step s = .next { s with pending := rest, rdata := some 0#32 })

/-- R28..R33, R37, R118: what a read of STATUS, CONFIG0 and CONFIG1 returns, field by field, with the number of each
OUTCOME, CMP and FAULT code. -/
def Obligations.StatusAndConfigWords : Prop :=
  ∀ (s : State) (rest : List HostAccess), s.cfg.valid = true → s.cfg.maxParseDigits < 256 →
    (s.pending = .read .word 0x004 :: rest → ∃ t d, step s = .next t ∧ t.rdata = some d ∧
      (s.status.outcome, d.extractLsb' 0 3) ∈ [(.ok, 0#3), (.posOverflow, 1#3), (.negOverflow, 2#3),
        (.posUnderflow, 3#3), (.negUnderflow, 4#3), (.syntaxError, 5#3)] ∧
      (s.status.cmp, d.extractLsb' 3 2) ∈ [(.eq, 0#2), (.lt, 1#2), (.gt, 2#2), (.un, 3#2)] ∧
      d.getLsbD 5 = s.status.t ∧ d.extractLsb' 6 2 = 0 ∧
      (s.status.fault, d.extractLsb' 8 4) ∈ [(none, 0#4), (some .illegalCmd, 1#4), (some .badOperand, 2#4),
        (some .badBuffer, 3#4)] ∧
      d.extractLsb' 12 4 = 0 ∧ d.extractLsb' 16 8 = s.status.len ∧ d.extractLsb' 24 8 = 0) ∧
    (s.pending = .read .word 0x00C :: rest → ∃ t d, step s = .next t ∧ t.rdata = some d ∧
      d.toNat = s.cfg.nreg * 2 ^ 24 + s.cfg.maxSig * 2 ^ 16 + s.cfg.nX * 2 ^ 8 + s.cfg.nS) ∧
    (s.pending = .read .word 0x018 :: rest → ∃ t d, step s = .next t ∧ t.rdata = some d ∧
      d.toNat = s.cfg.maxParseDigits * 2 ^ 16 + (s.cfg.tbufSize - 1))

/-- R48: an access of another width, unaligned or outside the window is refused; the machine takes no step, by the fault
of log entry 5. -/
def Obligations.RefusedAccessStops : Prop :=
  ∀ (s : State) (width : Width) (off : Nat) (w : Word) (rest : List HostAccess),
    (s.pending = .read width off :: rest ∨ s.pending = .write width off w :: rest) →
    (width ≠ .word ∨ off % 4 ≠ 0 ∨ 0x2000 ≤ off) → step s = .fault .refusedAccess

/-! ## Reset and invariants (70_reset_and_hazards.md) -/

/-- R41, R132: the state after power-on reset: canonical S zeros, STATUS 0 and INTIN 0; TBUF's bytes are the free draws
of log entry 1, whatever their values. -/
def Obligations.ResetValues : Prop :=
  (∀ k, State.reset.getV k = zeroV Config.default .S ∧ (State.reset.getV k).trailer = 0 ∧
    ∀ j, (State.reset.getV k).groupWord j = 0) ∧
  State.reset.status.word = 0 ∧ State.reset.intin = 0 ∧ State.reset.cfg = Config.default ∧
  ∀ a, State.reset.readByte a = Config.tbufDraw State.reset.epoch a

/-- R132: the reset input, an access of log entry 12, sets every register, STATUS and INTIN as at power-on. -/
def Obligations.ResetInput : Prop :=
  ∀ (s : State) (rest : List HostAccess), s.pending = .resetInput :: rest →
    ∃ t, step s = .next t ∧ (∀ k, t.getV k = VReg.reset s.cfg) ∧ t.status.word = 0 ∧ t.intin = 0 ∧
      t.cfg = s.cfg ∧ t.pending = rest

/-- The model's invariant holds after reset (log entries 1, 3, 7). -/
def Obligations.InvAtReset : Prop := State.reset.Inv

/-- Every step keeps the invariant: the parameters' constraints, N_X slots in every register, absent registers at their
reset value, TBUF's canonical form, and LEN within TBUF. -/
def Obligations.StepKeepsInv : Prop := ∀ s t : State, s.Inv → step s = .next t → t.Inv

/-- From a state whose host has issued only admitted accesses every step answers a next state of the same kind, and the
parameters never change: such a run never stops (log entries 3, 4, 5). -/
def Obligations.SafeRunsGoOn : Prop :=
  ∀ s : State, s.Inv → s.hostSafe = true → ∃ t, step s = .next t ∧ t.Inv ∧ t.hostSafe = true ∧ t.cfg = s.cfg
end

