-- ==== Sys2Proof/Laws/Numeric.lean ====
section
/-! SUPPORT. The exact integer arithmetic of the machine agrees with the real numbers: integer logarithm and root,
scaled floors, the value of a register, and ROUND_p. -/

namespace Sys2Proof.Machine

open Config (Params)

/-! ## Integer logarithm -/

theorem ilogAux_eq_log (b : Nat) (hb : 1 < b) : ∀ fuel n, n < b ^ (fuel + 1) → ilogAux b fuel n = Nat.log b n := by
  intro fuel
  induction fuel with
  | zero =>
    intro n h
    simp only [zero_add, pow_one] at h
    simp [ilogAux, Nat.log_of_lt h]
  | succ f ih =>
    intro n h
    unfold ilogAux
    split
    · next hn => simp [Nat.log_of_lt hn]
    · next hn =>
      have hn : b ≤ n := by omega
      rw [ih, Nat.log_of_one_lt_of_le hb hn]
      rw [Nat.div_lt_iff_lt_mul (by omega)]
      rwa [pow_succ] at h

theorem ilog_eq_log (b : Nat) (hb : 1 < b) (n : Nat) : ilog b n = Nat.log b n := by
  refine ilogAux_eq_log b hb _ _ ?_
  by_cases hn : n = 0
  · subst hn; positivity
  · calc n < 2 ^ (n.log2 + 1) := (Nat.log2_lt hn).1 (by omega)
      _ ≤ b ^ (n.log2 + 1) := Nat.pow_le_pow_left (by omega) _

theorem ilog_le (b n : Nat) (hb : 1 < b) (hn : n ≠ 0) : b ^ ilog b n ≤ n := by
  rw [ilog_eq_log b hb]; exact Nat.pow_log_le_self b hn

theorem lt_ilog (b n : Nat) (hb : 1 < b) : n < b ^ (ilog b n + 1) := by
  rw [ilog_eq_log b hb]; exact Nat.lt_pow_succ_log_self hb n

/-! ## Scaled powers -/

/-- A power of an integer base with an integer exponent, as a quotient of natural powers. -/
theorem zpow_eq_div (b : Nat) (hb : 0 < b) (t : Int) :
    (b : ℝ) ^ t = (b : ℝ) ^ t.toNat / (b : ℝ) ^ (-t).toNat := by
  have hb' : (b : ℝ) ≠ 0 := by positivity
  rw [← zpow_natCast, ← zpow_natCast, ← zpow_sub₀ hb']
  congr 1
  omega

/-- The integer logarithm is the only exponent that brackets its argument (R9). -/
theorem log_unique (b : Nat) (hb : 1 < b) (r : ℝ) (hr : 0 < r) (e : Int)
    (h1 : (b : ℝ) ^ e ≤ r) (h2 : r < (b : ℝ) ^ (e + 1)) : Int.log b r = e := by
  have a1 := (Int.zpow_le_iff_le_log hb hr).1 h1
  have a2 := (Int.lt_zpow_iff_log_lt hb hr).1 h2
  omega

theorem ilogRat_eq_log (b num den : Nat) (hb : 1 < b) (hn : num ≠ 0) (hd : den ≠ 0) :
    ilogRat b num den = Int.log b ((num : ℝ) / den) := by
  have hb0 : (0 : ℝ) < b := by positivity
  have hb1 : (1 : ℝ) < b := by exact_mod_cast hb
  have hd0 : (0 : ℝ) < den := by positivity
  have hn0 : (0 : ℝ) < num := by positivity
  have hr : (0 : ℝ) < (num : ℝ) / den := by positivity
  have h1 : (b : ℝ) ^ (ilog b num : Int) ≤ num := by
    rw [zpow_natCast]; exact_mod_cast ilog_le b num hb hn
  have h2 : (num : ℝ) < (b : ℝ) ^ ((ilog b num : Int) + 1) := by
    have := lt_ilog b num hb
    rw [show ((ilog b num : Int) + 1) = ((ilog b num + 1 : Nat) : Int) by push_cast; rfl, zpow_natCast]
    exact_mod_cast this
  have h3 : (b : ℝ) ^ (ilog b den : Int) ≤ den := by
    rw [zpow_natCast]; exact_mod_cast ilog_le b den hb hd
  have h4 : (den : ℝ) < (b : ℝ) ^ ((ilog b den : Int) + 1) := by
    have := lt_ilog b den hb
    rw [show ((ilog b den : Int) + 1) = ((ilog b den + 1 : Nat) : Int) by push_cast; rfl, zpow_natCast]
    exact_mod_cast this
  symm
  unfold ilogRat
  have key : (den * b ^ ((ilog b num : Int) - ilog b den).toNat ≤
      num * b ^ (-((ilog b num : Int) - ilog b den)).toNat) ↔
      (b : ℝ) ^ ((ilog b num : Int) - ilog b den) ≤ (num : ℝ) / den := by
    rw [zpow_eq_div b (by omega), div_le_div_iff₀ (by positivity) hd0, mul_comm (den : Nat)]
    exact_mod_cast Iff.rfl
  have up : (num : ℝ) / den < (b : ℝ) ^ ((ilog b num : Int) - ilog b den + 1) := by
    rw [div_lt_iff₀ hd0, show ((ilog b num : Int) - ilog b den + 1) = ((ilog b num : Int) + 1) - ilog b den by ring,
      zpow_sub₀ hb0.ne', div_mul_eq_mul_div, lt_div_iff₀ (by positivity)]
    exact mul_lt_mul h2 h3 (by positivity) (by positivity)
  have lo : (b : ℝ) ^ ((ilog b num : Int) - ilog b den - 1) ≤ (num : ℝ) / den := by
    rw [le_div_iff₀ hd0, show ((ilog b num : Int) - ilog b den - 1) = (ilog b num : Int) - (ilog b den + 1) by ring,
      zpow_sub₀ hb0.ne', div_mul_eq_mul_div, div_le_iff₀ (by positivity)]
    exact mul_le_mul h1 h4.le (by positivity) (by positivity)
  dsimp only
  split
  · next h => exact log_unique b hb _ hr _ (key.1 h) up
  · next h =>
    refine log_unique b hb _ hr _ lo ?_
    rw [sub_add_cancel]
    exact not_le.1 (fun h' => h (key.2 h'))

/-! ## Scaled floors -/

theorem floorScaled_eq_floor (b num den : Nat) (hb : 1 < b) (t : Int) :
    floorScaled b num den t = ⌊(num : ℝ) / den * (b : ℝ) ^ t⌋.toNat := by
  unfold floorScaled
  rw [zpow_eq_div b (by omega), div_mul_div_comm, Int.floor_toNat,
    ← Nat.floor_div_eq_div (K := ℝ)]
  push_cast
  rfl

/-! ## Integer square root -/

theorem isqrtAux_spec : ∀ bits n r, r * r ≤ n → n < (r + 2 ^ bits) * (r + 2 ^ bits) →
    isqrtAux bits n r * isqrtAux bits n r ≤ n ∧ n < (isqrtAux bits n r + 1) * (isqrtAux bits n r + 1) := by
  intro bits
  induction bits with
  | zero => intro n r h1 h2; exact ⟨h1, by simpa [isqrtAux] using h2⟩
  | succ b ih =>
    intro n r h1 h2
    unfold isqrtAux
    split
    · next h => exact ih n _ h (by rw [pow_succ] at h2; convert h2 using 2 <;> ring)
    · next h => exact ih n r h1 (by omega)

theorem isqrt_eq_sqrt (n : Nat) : isqrt n = Nat.sqrt n := by
  have h : n < (0 + 2 ^ (n.log2 / 2 + 1)) * (0 + 2 ^ (n.log2 / 2 + 1)) := by
    rw [zero_add, ← pow_add]
    by_cases hn : n = 0
    · subst hn; positivity
    · calc n < 2 ^ (n.log2 + 1) := (Nat.log2_lt hn).1 (by omega)
        _ ≤ _ := Nat.pow_le_pow_right (by omega) (by omega)
  have := isqrtAux_spec (n.log2 / 2 + 1) n 0 (by omega) h
  exact Nat.eq_sqrt.2 this

end Sys2Proof.Machine
end

