-- ==== Sys2Proof/Laws/Round.lean ====
section
/-! SUPPORT. The value of a register in terms of its significand, and ROUND_p over scaled integers equal to ROUND_p of
the real number they denote. -/

namespace Sys2Proof.Machine

open Config (Params)

theorem base_eq : base = 10000 := rfl

theorem base_cast : (base : ℝ) = 10000 := by norm_num [base]

theorem one_lt_base : 1 < base := by decide

/-! ## Significands -/

theorem foldl_groups (gs : List Nat) : ∀ acc, gs.foldl (fun acc d => acc * base + d) acc =
    acc * base ^ gs.length + fromGroups gs := by
  unfold fromGroups
  induction gs with
  | nil => intro acc; simp
  | cons d gs ih =>
    intro acc
    simp only [List.foldl_cons, List.length_cons, zero_mul, zero_add]
    rw [ih, ih d]
    ring

@[simp] theorem fromGroups_nil : fromGroups [] = 0 := rfl

theorem fromGroups_cons (d : Nat) (gs : List Nat) :
    fromGroups (d :: gs) = d * base ^ gs.length + fromGroups gs := by
  have := foldl_groups gs d
  simpa [fromGroups] using this

theorem fromGroups_append (gs hs : List Nat) :
    fromGroups (gs ++ hs) = fromGroups gs * base ^ hs.length + fromGroups hs := by
  have := foldl_groups hs (fromGroups gs)
  rw [fromGroups, List.foldl_append]
  exact this

theorem fromGroups_lt (gs : List Nat) (h : ∀ d ∈ gs, d < base) : fromGroups gs < base ^ gs.length := by
  induction gs with
  | nil => simp
  | cons d gs ih =>
    rw [fromGroups_cons, List.length_cons, pow_succ]
    have h1 := ih (fun e he => h e (List.mem_cons_of_mem _ he))
    have h2 : d + 1 ≤ base := h d (List.mem_cons_self ..)
    calc d * base ^ gs.length + fromGroups gs < (d + 1) * base ^ gs.length := by ring_nf; omega
      _ ≤ base * base ^ gs.length := Nat.mul_le_mul_right _ h2
      _ = _ := mul_comm _ _

theorem fromGroups_range (f : Nat → Nat) (n : Nat) :
    fromGroups ((List.range n).map f) = ∑ i ∈ Finset.range n, f i * base ^ (n - 1 - i) := by
  induction n with
  | zero => simp
  | succ n ih =>
    rw [List.range_succ, List.map_append, fromGroups_append, ih, Finset.sum_range_succ]
    simp only [List.map_cons, List.map_nil, List.length_cons, List.length_nil, zero_add, pow_one, fromGroups_cons,
      fromGroups_nil, pow_zero, mul_one, add_zero, Nat.add_sub_cancel, Nat.sub_self]
    rw [Finset.sum_mul]
    congr 1
    refine Finset.sum_congr rfl fun i hi => ?_
    rw [Finset.mem_range] at hi
    rw [mul_assoc, ← pow_succ]
    congr 2
    omega

theorem VReg.sig_eq_sum (n : Nat) (x : VReg) :
    x.sig n = ∑ i ∈ Finset.range n, x.groupAt i * base ^ (n - 1 - i) := fromGroups_range _ _

/-- The value is the signed significand scaled by the last group's weight. -/
theorem VReg.val_eq_sig (n : Nat) (x : VReg) :
    x.val n = signFactor x.neg * ((x.sig n : ℝ) * (10000 : ℝ) ^ (x.low n)) := by
  unfold VReg.val
  congr 1
  rw [VReg.sig_eq_sum, Nat.cast_sum, Finset.sum_mul]
  refine Finset.sum_congr rfl fun i hi => ?_
  rw [Finset.mem_range] at hi
  push_cast
  rw [base_cast, mul_assoc, ← zpow_natCast, ← zpow_add₀ (by norm_num)]
  congr 2
  unfold VReg.low
  omega

/-! ## Facts of a well-formed finite value (R18, R22, R23) -/

theorem VReg.mem_groups (n : Nat) (x : VReg) (d : Nat) : d ∈ x.groups n ↔ ∃ i < n, x.groupAt i = d := by
  simp [VReg.groups]

@[simp] theorem VReg.length_groups (n : Nat) (x : VReg) : (x.groups n).length = n := by simp [VReg.groups]

theorem VReg.groupsZero_iff (n : Nat) (x : VReg) : x.groupsZero n = true ↔ ∀ i < n, x.groupAt i = 0 := by
  simp [VReg.groupsZero, VReg.groups]

/-- What WF_p says of a finite value. -/
theorem VReg.wf_finite (c : Params) (p : Prec) (x : VReg) (h : x.wf c p = true) (hf : x.isFinite = true) :
    x.prec = p ∧ (∀ i < groupCount c p, x.groupAt i < base) ∧
    (∀ i, groupCount c p ≤ i → i < c.nX → x.groupAt i = 0) ∧
    (x.groupsZero (groupCount c p) = true ∨ (x.groupAt 0 ≠ 0 ∧ c.expMin ≤ x.e ∧ x.e ≤ c.expMax)) := by
  simp only [VReg.isFinite, Bool.and_eq_true, Bool.not_eq_true'] at hf
  simp only [VReg.wf, VReg.wfFinite, hf.1, hf.2, Bool.false_or, Bool.and_eq_true, beq_iff_eq, Bool.or_eq_true,
    List.all_eq_true, decide_eq_true_eq, VReg.mem_groups, List.mem_range, bne_iff_ne] at h
  obtain ⟨hp, ⟨h1, h2⟩, h3⟩ := h
  refine ⟨hp, fun i hi => ?_, fun i hi hi' => ?_, ?_⟩
  · have := h1 _ ⟨i, hi, rfl⟩
    rw [base_eq]; omega
  · rcases h2 i hi' with h | h
    · omega
    · exact h
  · rcases h3 with h | ⟨⟨h, h'⟩, h''⟩
    · exact Or.inl h
    · exact Or.inr ⟨h, h', h''⟩

theorem VReg.sig_eq_zero (n : Nat) (x : VReg) : x.sig n = 0 ↔ x.groupsZero n = true := by
  rw [VReg.sig_eq_sum, VReg.groupsZero_iff, Finset.sum_eq_zero_iff]
  simp [base]

theorem VReg.sig_ne_zero (n : Nat) (x : VReg) (hf : x.isFinite = true) (hz : x.isZero n = false) : x.sig n ≠ 0 := by
  intro h
  rw [VReg.sig_eq_zero] at h
  simp [VReg.isZero, hf, h] at hz

theorem VReg.sig_lt (c : Params) (p : Prec) (x : VReg) (h : x.wf c p = true) (hf : x.isFinite = true) :
    x.sig (groupCount c p) < base ^ groupCount c p := by
  have h1 := (VReg.wf_finite c p x h hf).2.1
  have := fromGroups_lt (x.groups (groupCount c p)) (by
    intro d hd
    obtain ⟨i, hi, rfl⟩ := (VReg.mem_groups _ _ _).1 hd
    exact h1 i hi)
  simpa [VReg.sig] using this

theorem VReg.le_sig (n : Nat) (hn : 0 < n) (x : VReg) (h : x.groupAt 0 ≠ 0) : base ^ (n - 1) ≤ x.sig n := by
  rw [VReg.sig_eq_sum]
  calc base ^ (n - 1) ≤ x.groupAt 0 * base ^ (n - 1 - 0) := Nat.le_mul_of_pos_left _ (by omega)
    _ ≤ _ := Finset.single_le_sum (f := fun i => x.groupAt i * base ^ (n - 1 - i)) (fun _ _ => Nat.zero_le _)
        (Finset.mem_range.2 hn)

/-! ## Signs -/

@[simp] theorem signFactor_abs (b : Bool) : |signFactor b| = 1 := by cases b <;> simp [signFactor]

theorem signFactor_mul_neg_iff (b : Bool) (r : ℝ) (hr : 0 < r) : decide (signFactor b * r < 0) = b := by
  cases b <;> simp [signFactor, hr, hr.le]

theorem signFactor_xor (a b : Bool) : signFactor (a ^^ b) = signFactor a * signFactor b := by
  cases a <;> cases b <;> simp [signFactor]

theorem signFactor_div (a b : Bool) : signFactor a / signFactor b = signFactor (a ^^ b) := by
  cases a <;> cases b <;> simp [signFactor]

theorem signFactor_ne_zero (a : Bool) : signFactor a ≠ 0 := by cases a <;> simp [signFactor]

/-! ## ROUND_p -/

theorem log_mul_zpow (b : Nat) (hb : 1 < b) (r : ℝ) (hr : 0 < r) (k : Int) :
    Int.log b (r * (b : ℝ) ^ k) = Int.log b r + k := by
  have hb0 : (0 : ℝ) < b := by positivity
  refine log_unique b hb _ (by positivity) _ ?_ ?_
  · rw [zpow_add₀ hb0.ne']
    exact mul_le_mul_of_nonneg_right (Int.zpow_log_le_self hb hr) (by positivity)
  · rw [show Int.log b r + k + 1 = (Int.log b r + 1) + k by ring, zpow_add₀ hb0.ne']
    exact mul_lt_mul_of_pos_right (Int.lt_zpow_succ_log_self hb r) (by positivity)

/-- The machine's guard step is R70's, as the reference writes it out. -/
theorem roundWindowRef_eq (c : Params) (p : Prec) (neg : Bool) (m : Nat) (e : Int) :
    roundWindowRef c p neg m e = roundGuard c p neg m e := by
  unfold roundWindowRef roundGuard
  have h : base / 2 = 5000 := rfl
  by_cases h1 : 5000 ≤ m % 10000
  · by_cases h2 : m / 10000 + 1 = 10000 ^ groupCount c p <;>
      simp [h1, h2, base_eq, overflowOutcome, underflowOutcome, toGroups]
  · simp [h1, base_eq, overflowOutcome, underflowOutcome, toGroups]

/-- ROUND_p of a real number is the machine's guard step on its window (R70). -/
theorem roundReal_eq (c : Params) (p : Prec) (r : ℝ) :
    roundReal c p r = roundGuard c p (decide (r < 0))
      ⌊|r| * (10000 : ℝ) ^ ((groupCount c p : Int) - Int.log 10000 |r|)⌋.toNat (Int.log 10000 |r|) :=
  roundWindowRef_eq _ _ _ _ _

/-- ROUND_p over scaled integers is ROUND_p of the number they denote (R70). -/
theorem roundScaled_eq_roundReal (c : Params) (p : Prec) (neg : Bool) (num den : Nat) (k : Int)
    (hn : num ≠ 0) (hd : den ≠ 0) :
    roundScaled c p neg num den k =
      roundReal c p (signFactor neg * ((num : ℝ) / den * (10000 : ℝ) ^ k)) := by
  have hpos : (0 : ℝ) < (num : ℝ) / den := by positivity
  have hpos' : (0 : ℝ) < (num : ℝ) / den * (10000 : ℝ) ^ k := by positivity
  have hlog : Int.log 10000 ((num : ℝ) / den * (10000 : ℝ) ^ k) = Int.log 10000 ((num : ℝ) / den) + k := by
    have := log_mul_zpow 10000 (by norm_num) _ hpos k
    simpa using this
  unfold roundScaled
  rw [roundReal_eq, signFactor_mul_neg_iff _ _ hpos', abs_mul, signFactor_abs, one_mul, abs_of_pos hpos', hlog]
  dsimp only
  rw [ilogRat_eq_log base num den one_lt_base hn hd, floorScaled_eq_floor base num den one_lt_base, base_cast, base_eq]
  congr 1
  · congr 2
    rw [mul_assoc, ← zpow_add₀ (by norm_num)]
    congr 2
    ring
  · ring

end Sys2Proof.Machine
end

