-- ==== Sys2Proof/Laws/Format.lean ====
section
/-! SUPPORT. The formatter's text functions: the machine's and the reference's agree, piece by piece, and what the digits
of a text denote (spec/44_format.md R104..R109). -/

namespace Sys2Proof.Machine

/-! ## Digits -/

@[simp] theorem length_paddedDigits (f n : Nat) : (paddedDigits f n).length = f := by simp [paddedDigits]

theorem digitVal_digitChar (d : Nat) (h : d < 10) : digitVal (digitChar d) = d := by interval_cases d <;> rfl

theorem isDigit_digitChar (d : Nat) (h : d < 10) : isDigit (digitChar d) = true := by interval_cases d <;> rfl

theorem isDigit_paddedDigits (f n : Nat) : ∀ b ∈ paddedDigits f n, isDigit b = true := by
  intro b hb
  simp only [paddedDigits, List.mem_map] at hb
  obtain ⟨i, _, rfl⟩ := hb
  exact isDigit_digitChar _ (Nat.mod_lt _ (by decide))

theorem isDigit_decText (n : Nat) : ∀ b ∈ decText n, isDigit b = true := isDigit_paddedDigits _ _

theorem decText_ne_nil (n : Nat) : decText n ≠ [] := by
  intro h
  have := congrArg List.length h
  simp [decText] at this

/-- `decText n` has l + 1 digits for 10^l <= n < 10^(l+1). -/
theorem length_decText (n l : Nat) (h : 10 ^ l ≤ n) (h' : n < 10 ^ (l + 1)) : (decText n).length = l + 1 := by
  rw [decText, length_paddedDigits, ilog_eq_log 10 (by decide), Nat.log_eq_of_pow_le_of_lt_pow h h']

theorem length_decText_le (n l : Nat) (h : n < 10 ^ l) (hl : 0 < l) : (decText n).length ≤ l := by
  rw [decText, length_paddedDigits, ilog_eq_log 10 (by decide)]
  by_cases h0 : n = 0
  · subst h0
    simp
    omega
  · exact Nat.log_lt_of_lt_pow h0 h

theorem foldl_digits (ds : List Nat) : ∀ acc, ds.foldl (fun acc d => acc * 10 + d) acc =
    acc * 10 ^ ds.length + fromDigits ds := by
  induction ds with
  | nil => intro acc; simp [fromDigits]
  | cons d ds ih =>
    intro acc
    simp only [List.foldl_cons, List.length_cons, fromDigits]
    rw [ih, ih (0 * 10 + d)]
    ring

theorem fromDigits_append (a b : List Nat) : fromDigits (a ++ b) = fromDigits a * 10 ^ b.length + fromDigits b := by
  unfold fromDigits
  rw [List.foldl_append, foldl_digits]
  rfl

/-- The low f digits of n denote n mod 10^f. -/
theorem fromDigits_paddedDigits (f n : Nat) : fromDigits ((paddedDigits f n).map digitVal) = n % 10 ^ f := by
  induction f generalizing n with
  | zero => simp [paddedDigits, fromDigits, Nat.mod_one]
  | succ f ih =>
    have h : paddedDigits (f + 1) n = paddedDigits f (n / 10) ++ [digitChar (n % 10)] := by
      unfold paddedDigits
      rw [List.range_succ, List.map_append]
      congr 1
      · refine List.map_congr_left fun i hi => ?_
        rw [List.mem_range] at hi
        rw [Nat.div_div_eq_div_mul, mul_comm 10, ← pow_succ]
        congr 3
        congr 1
        omega
      · simp
    rw [h, List.map_append, fromDigits_append, ih]
    simp only [List.map_cons, List.map_nil, fromDigits, List.foldl_cons, List.foldl_nil, List.length_singleton,
      digitVal_digitChar _ (Nat.mod_lt n (by decide : 0 < 10))]
    rw [pow_succ 10 f, mul_comm (10 ^ f) 10, Nat.mod_mul]
    ring

theorem fromDigits_decText (n : Nat) : fromDigits ((decText n).map digitVal) = n := by
  rw [decText, fromDigits_paddedDigits, Nat.mod_eq_of_lt (lt_ilog 10 n (by decide))]

/-- Stripping takes zeros off the right end and nothing else. -/
theorem stripZeros_append (t : Text) : ∃ k, t = stripZeros t ++ List.replicate k chZero := by
  refine ⟨(t.reverse.takeWhile (· == chZero)).length, ?_⟩
  have h := congrArg List.reverse (List.takeWhile_append_dropWhile (p := (· == chZero)) (l := t.reverse))
  have hz : t.reverse.takeWhile (· == chZero) =
      List.replicate (t.reverse.takeWhile (· == chZero)).length chZero := by
    refine List.eq_replicate_iff.2 ⟨rfl, fun b hb => ?_⟩
    simpa using List.mem_takeWhile_imp hb
  rw [List.reverse_append, List.reverse_reverse] at h
  conv_lhs => rw [← h]
  unfold stripZeros
  congr 1
  conv_lhs => rw [hz]
  simp

/-- Leading zeros fill a number of at most l digits up to f characters. -/
theorem paddedDigits_split (f l n : Nat) (h : n < 10 ^ l) (hl : l ≤ f) :
    paddedDigits f n = List.replicate (f - l) chZero ++ paddedDigits l n := by
  apply List.ext_getElem
  · simp
    omega
  · intro i h1 h2
    rw [length_paddedDigits] at h1
    rw [List.getElem_append]
    split
    · next hi =>
      simp only [List.length_replicate] at hi
      simp only [paddedDigits, List.getElem_map, List.getElem_range, List.getElem_replicate, chZero]
      congr 1
      have : 10 ^ l ≤ 10 ^ (f - 1 - i) := Nat.pow_le_pow_right (by decide) (by omega)
      rw [Nat.div_eq_of_lt (by omega)]
    · next hi =>
      simp only [List.length_replicate] at hi
      simp only [paddedDigits, List.getElem_map, List.getElem_range, List.length_replicate]
      congr 4
      omega

/-! ## The reference's pieces are the machine's -/

theorem decRef_eq (n : Nat) : decRef n = decText n := by
  unfold decRef decText
  split
  · next h => subst h; decide
  · next h =>
    have hl : (Nat.digits 10 n).length = ilog 10 n + 1 := by
      rw [Nat.length_digits 10 n (by decide) h, ilog_eq_log 10 (by decide)]
    apply List.ext_getElem
    · simp [hl]
    · intro i h1 h2
      have hi : i < ilog 10 n + 1 := by simpa [hl] using h1
      simp only [paddedDigits, List.getElem_map, List.getElem_range, List.getElem_reverse, digitChar]
      rw [← Nat.getD_digits n _ (by decide : 2 ≤ 10), List.getD_eq_getElem _ _ (by omega)]
      congr 3
      omega

theorem decsRef_eq (x : Int) : decsRef x = decsText x := by simp only [decsRef, decsText, decRef_eq, chMinus]

theorem stripRef_eq (strip : Bool) (t : Text) : stripRef strip t = if strip then stripZeros t else t := by
  cases strip <;> rfl

theorem fractionRef_eq (ip frac : Text) (radix : Byte) : ip ++ fractionRef radix frac = withFraction ip frac radix := by
  unfold fractionRef withFraction
  split <;> simp

theorem length_groupRev (sep : Byte) : ∀ t : Text, (groupRev sep t).length = t.length + (t.length - 1) / 3
  | [] => rfl
  | [_] => by simp [groupRev]
  | [_, _] => by simp [groupRev]
  | [_, _, _] => by simp [groupRev]
  | a :: b :: c :: d :: t => by
    simp only [groupRev, List.length_cons]
    rw [length_groupRev sep (d :: t)]
    simp only [List.length_cons]
    omega

/-- A new leading digit gets a separator behind it where a multiple of three digits stands behind it. -/
theorem groupRev_append (sep : Byte) (t : Text) (d : Byte) : groupRev sep (t ++ [d]) =
    groupRev sep t ++ (if t.length ≠ 0 ∧ t.length % 3 = 0 then [sep, d] else [d]) := by
  induction t using groupRev.induct with
  | case1 a b c e t ih =>
    simp only [List.cons_append, groupRev] at ih ⊢
    rw [ih]
    simp only [List.length_cons]
    have h : (t.length + 1 ≠ 0 ∧ (t.length + 1) % 3 = 0) ↔
        (t.length + 1 + 1 + 1 + 1 ≠ 0 ∧ (t.length + 1 + 1 + 1 + 1) % 3 = 0) := by omega
    simp only [h]
  | case2 t h =>
    match t, h with
    | [], _ => rfl
    | [a], _ => rfl
    | [a, b], _ => rfl
    | [a, b, c], _ => simp [groupRev]
    | a :: b :: c :: e :: t, h => exact absurd rfl (h a b c e t)

theorem groupRef_eq (ip : Text) (sep : Byte) : groupRef ip sep = groupText ip sep := by
  induction ip with
  | nil => rfl
  | cons d t ih =>
    unfold groupText
    rw [List.reverse_cons, groupRev_append, List.reverse_append]
    unfold groupRef
    rw [List.length_cons, List.range_succ_eq_map, List.flatMap_cons, List.flatMap_map]
    have hin : (List.range t.length).flatMap (fun i => if i.succ ≠ 0 ∧ (t.length + 1 - i.succ) % 3 = 0 then
        [sep, (d :: t).getD i.succ 0] else [(d :: t).getD i.succ 0]) =
        (if t.length ≠ 0 ∧ t.length % 3 = 0 then [sep] else []) ++ groupRef t sep := by
      unfold groupRef
      cases t with
      | nil => rfl
      | cons c u =>
        rw [List.length_cons, List.range_succ_eq_map, List.flatMap_cons, List.flatMap_cons, List.flatMap_map,
          List.flatMap_map]
        by_cases h : (u.length + 1) % 3 = 0 <;> simp [h]
    simp only [ne_eq, not_true_eq_false, false_and, if_false]
    rw [hin, ih]
    simp only [List.length_reverse, groupText]
    split <;> simp

theorem zeroRef_eq (w : Nat) (mode : Mode) (d m : Nat) (radix : Byte) :
    zeroRef w mode d m radix = zeroText w mode d m radix := by
  cases mode <;> simp [zeroRef, zeroText, fractionRef, withFraction, chZero, chE, digitChar] <;> split <;> simp [*]

theorem fixedRef_eq (r f : Nat) (grp : Bool) (radix sep : Byte) (strip : Bool) :
    fixedRef r f grp radix sep strip = fixedBody r f grp radix sep strip := by
  have hfrac : (if f = 0 then [] else List.replicate (f - (decText (r % 10 ^ f)).length) 0x30#8 ++
      decText (r % 10 ^ f)) = paddedDigits f (r % 10 ^ f) := by
    split
    · next h => subst h; rfl
    · next h =>
      have hlt := Nat.mod_lt r (show 0 < 10 ^ f by positivity)
      rw [decText, length_paddedDigits]
      refine (paddedDigits_split f _ _ (lt_ilog 10 _ (by decide)) ?_).symm
      rw [ilog_eq_log 10 (by decide)]
      by_cases h0 : r % 10 ^ f = 0
      · rw [h0]
        simp
        omega
      · exact Nat.log_lt_of_lt_pow h0 hlt
  simp only [fixedRef, decRef_eq, groupRef_eq, stripRef_eq, hfrac, fractionRef_eq, fixedBody]

section Magnitude

/-! For a magnitude `a` whose ilog_10 is `x` and whose rounding rhu is `r`. -/

variable (a : ℝ) (x : Int) (r : Int → Nat) (hx : Int.log 10 a = x) (hr : ∀ f, (rhuReal a f).toNat = r f)
include hx hr

theorem sciShown_eq (m : Nat) : sciShown a m = sciParts x r m := by simp only [sciShown, sciParts, hx, hr]

theorem sciRef_eq (m : Nat) (radix : Byte) (strip : Bool) : sciRef a m radix strip = sciText x r m radix strip := by
  simp only [sciRef, sciText, sciShown_eq a x r hx hr, decRef_eq, decsRef_eq, stripRef_eq, fractionRef_eq, chE,
    List.drop_one]

theorem engRef_eq (m : Nat) (radix : Byte) : engRef a m radix = engText x r m radix := by
  simp only [engRef, engText, sciShown_eq a x r hx hr, decRef_eq, decsRef_eq, fractionRef_eq, chE, chZero]
  rfl

/-- FIXED answers the text of the number R106 shows, and falls back exactly where R106 does. -/
theorem fixedText_eq (w fmax : Nat) (grp : Bool) (radix sep : Byte) (strip : Bool) :
    fixedText w x r fmax grp radix sep strip =
      (fixedShown w a fmax).map fun q => fixedBody q.1 q.2 grp radix sep strip := by
  simp only [fixedShown, fixedText, hx, hr, decRef_eq]
  by_cases h1 : (w : Int) < max (x + 1) 1
  · rw [if_pos (by omega), if_pos h1]
    rfl
  · rw [if_neg (by omega), if_neg h1]
    generalize min fmax (w - (max (x + 1) 1).toNat) = f
    by_cases h2 : r (f : Int) = 0
    · rw [if_pos h2, if_pos h2]
      rfl
    · rw [if_neg h2, if_neg h2]
      by_cases h3 : (decText (r (f : Int) / 10 ^ f)).length + f ≤ w
      · rw [if_pos h3, if_neg (by omega)]
        rfl
      · rw [if_neg h3, if_pos (by omega)]
        split <;> rfl

end Magnitude

/-- The magnitude the formatter reads: `|val(x)| = sig * 10^(4 * low)` (R13, R97). -/
theorem VReg.abs_val (n : Nat) (x : VReg) : |x.val n| = (x.sig n : ℝ) * (10 : ℝ) ^ (4 * x.low n) := by
  rw [VReg.val_eq_sig, abs_mul, signFactor_abs, one_mul, abs_of_nonneg (by positivity), zpow_mul]
  norm_num

end Sys2Proof.Machine
end

