-- ==== Sys2Proof/Laws/Image.lean ====
section
/-! SUPPORT. The images a command writes: their groups, exponent and value, that they are canonical and well formed, and
ROUND_p on windows and on numbers that need no rounding. -/

namespace Sys2Proof.Machine

open Config (Params)

/-! ## What the constraints of R7 say -/

/-- The constraints of R7 one by one. -/
structure ParamFacts (c : Params) : Prop where
  nS : 1 ≤ c.nS
  nSX : c.nS < c.nX
  nX : c.nX ≤ 31
  expMin : -8192 ≤ c.expMin ∧ c.expMin ≤ 0
  expMax : 0 ≤ c.expMax ∧ c.expMax ≤ 8191
  nreg : 1 ≤ c.nreg ∧ c.nreg ≤ 8
  tbuf : 4 ≤ c.tbufSize ∧ c.tbufSize ≤ 256 ∧ c.tbufSize % 4 = 0
  maxSig : 1 ≤ c.maxSig ∧ c.maxSig ≤ 16
  parse : 1 ≤ c.maxParseDigits

theorem paramFacts (c : Params) (h : c.valid = true) : ParamFacts c := by
  simp only [Params.valid, Bool.and_eq_true, decide_eq_true_eq, beq_iff_eq] at h
  constructor <;> omega

theorem groupCount_pos (c : Params) (hv : c.valid = true) (p : Prec) : 0 < groupCount c p := by
  have h := paramFacts c hv
  have := h.nS; have := h.nSX
  cases p <;> simp only [groupCount] <;> omega

theorem groupCount_le (c : Params) (hv : c.valid = true) (p : Prec) : groupCount c p ≤ c.nX := by
  have := (paramFacts c hv).nSX
  cases p <;> simp only [groupCount] <;> omega

/-! ## Built images -/

theorem groupAt_mkImage (c : Params) (p : Prec) (gs : List Nat) (e : Int) (neg inf nan : Bool)
    (h : ∀ d ∈ gs, d < base) (i : Nat) : (mkImage c p gs e neg inf nan).groupAt i = gs.getD i 0 := by
  unfold VReg.groupAt mkImage
  simp only
  by_cases hi : i < gs.length
  · have := h _ (List.getElem_mem hi)
    rw [base_eq] at this
    simp [List.getElem?_append, hi]
    omega
  · simp only [List.getD_eq_getElem?_getD]
    rw [List.getElem?_append_right (by simpa using hi), List.getElem?_replicate, List.getElem?_eq_none (by omega)]
    split <;> simp

theorem e_mkImage (c : Params) (p : Prec) (gs : List Nat) (e : Int) (neg inf nan : Bool) (h1 : -8192 ≤ e)
    (h2 : e ≤ 8191) : (mkImage c p gs e neg inf nan).e = e := by
  simp only [VReg.e, mkImage, BitVec.toInt_ofInt]
  rw [Int.bmod_eq_of_le] <;> simp <;> omega

theorem length_mkImage (c : Params) (p : Prec) (gs : List Nat) (e : Int) (neg inf nan : Bool)
    (h : gs.length ≤ c.nX) : (mkImage c p gs e neg inf nan).g.length = c.nX := by
  simp only [mkImage, List.length_append, List.length_map, List.length_replicate]
  omega

theorem groups_mkImage (c : Params) (p : Prec) (gs : List Nat) (e : Int) (neg inf nan : Bool) (n : Nat)
    (h : ∀ d ∈ gs, d < base) (hl : gs.length ≤ n) :
    (mkImage c p gs e neg inf nan).groups n = gs ++ List.replicate (n - gs.length) 0 := by
  apply List.ext_getElem
  · simp; omega
  · intro i h1 h2
    simp only [VReg.groups, List.getElem_map, List.getElem_range, groupAt_mkImage c p gs e neg inf nan h,
      List.getElem_append, List.getElem_replicate]
    split
    · next hi => simp [hi]
    · next hi => simp [Nat.le_of_not_lt hi]

theorem fromGroups_replicate (n : Nat) : fromGroups (List.replicate n 0) = 0 := by
  induction n with
  | zero => rfl
  | succ n ih => rw [List.replicate_succ, fromGroups_cons, ih]; simp

/-- The value of a finite image whose groups fill the first slots. -/
theorem val_finiteV (c : Params) (p : Prec) (gs : List Nat) (e : Int) (neg : Bool) (n : Nat) (h : ∀ d ∈ gs, d < base)
    (hl : gs.length ≤ n) (h1 : -8192 ≤ e) (h2 : e ≤ 8191) :
    (finiteV c p gs e neg).val n =
      signFactor neg * ((fromGroups gs : ℝ) * (10000 : ℝ) ^ (e - ((gs.length : Int) - 1))) := by
  have hE : (finiteV c p gs e neg).e = e := e_mkImage _ _ _ _ _ _ _ h1 h2
  rw [VReg.val_eq_sig, VReg.sig, VReg.low, hE, finiteV, groups_mkImage c p gs e neg false false n h hl,
    fromGroups_append, fromGroups_replicate, List.length_replicate]
  push_cast
  rw [base_cast, add_zero, mul_assoc, ← zpow_natCast, ← zpow_add₀ (by norm_num)]
  simp only [mkImage]
  congr 3
  omega

/-! ## Canonical images (R25) -/

theorem canonical_zeroV (c : Params) (p : Prec) : (zeroV c p).canonical c p = true := by simp [VReg.canonical]

theorem canonical_nanV (c : Params) (p : Prec) : (nanV c p).canonical c p = true := by simp [VReg.canonical]

theorem canonical_infV (c : Params) (p : Prec) (neg : Bool) : (infV c p neg).canonical c p = true := by
  simp [VReg.canonical, infV, mkImage]

theorem canonical_finiteV (c : Params) (hv : c.valid = true) (p : Prec) (gs : List Nat) (e : Int) (neg : Bool)
    (hl : gs.length ≤ groupCount c p) (hg : ∀ d ∈ gs, d < base) (h0 : gs.headD 0 ≠ 0)
    (he : c.expMin ≤ e) (he' : e ≤ c.expMax) : (finiteV c p gs e neg).canonical c p = true := by
  have V := paramFacts c hv
  have hle := groupCount_le c hv p
  have hE : (finiteV c p gs e neg).e = e :=
    e_mkImage _ _ _ _ _ _ _ (by have := V.expMin; omega) (by have := V.expMax; omega)
  have hG : ∀ i, (finiteV c p gs e neg).groupAt i = gs.getD i 0 := groupAt_mkImage c p gs e neg false false hg
  have hg0 : gs.getD 0 0 ≠ 0 := by
    cases gs with
    | nil => simp at h0
    | cons => simpa using h0
  simp only [VReg.canonical, Bool.or_eq_true, Bool.and_eq_true]
  refine Or.inr ⟨⟨⟨⟨?_, ?_⟩, ?_⟩, ?_⟩, ?_⟩
  · simp [finiteV, mkImage]
  · simp [finiteV, mkImage, VReg.isFinite]
  · exact beq_iff_eq.2 (length_mkImage c p gs e neg false false (by omega))
  · simp only [VReg.wfFinite, Bool.and_eq_true, Bool.or_eq_true, decide_eq_true_eq, hE, List.all_eq_true,
      List.mem_range, VReg.mem_groups, hG]
    refine ⟨⟨?_, ?_⟩, Or.inr ⟨⟨?_, he⟩, he'⟩⟩
    · rintro x ⟨i, hi, rfl⟩
      by_cases h : i < gs.length
      · have := hg _ (List.getElem_mem h)
        rw [base_eq] at this
        simp [h]
        omega
      · simp [Nat.le_of_not_lt h]
    · intro i hi
      by_cases h : i < groupCount c p
      · exact Or.inl h
      · exact Or.inr (by simp [show gs.length ≤ i by omega])
    · simpa using hg0
  · rw [hG]; simpa using hg0

/-- A canonical image is well formed (R25, R26). -/
theorem wf_of_canonical (c : Params) (p : Prec) (x : VReg) (h : x.canonical c p = true) : x.wf c p = true := by
  simp only [VReg.canonical, Bool.or_eq_true, Bool.and_eq_true, beq_iff_eq] at h
  rcases h with ((h | h) | h) | h
  · rw [h]
    have hG := groupAt_mkImage c p [] 0 false false false (by simp)
    simp [VReg.wf, zeroV, VReg.wfFinite, VReg.groupsZero, VReg.groups, hG]
    simp [mkImage]
  · rw [h]; simp [nanV, mkImage, VReg.wf]
  · rw [h]; simp [infV, mkImage, VReg.wf]
  · simp only [VReg.wf, Bool.and_eq_true, Bool.or_eq_true, beq_iff_eq]
    exact ⟨h.1.1.1.1, Or.inr h.1.2⟩

theorem VReg.groups_lt (c : Params) (p : Prec) (x : VReg) (hx : x.wf c p = true) (fx : x.isFinite = true) :
    ∀ d ∈ x.groups (groupCount c p), d < base := by
  intro d hd
  obtain ⟨i, hi, rfl⟩ := (VReg.mem_groups _ _ _).1 hd
  exact (VReg.wf_finite c p x hx fx).2.1 i hi

/-- The exponent and leading group of a well-formed finite nonzero value (R22, R24). -/
theorem VReg.wf_nonzero (c : Params) (p : Prec) (x : VReg) (hx : x.wf c p = true) (fx : x.isFinite = true)
    (hz : x.isZero (groupCount c p) = false) : x.groupAt 0 ≠ 0 ∧ c.expMin ≤ x.e ∧ x.e ≤ c.expMax := by
  rcases (VReg.wf_finite c p x hx fx).2.2.2 with h | h
  · simp [VReg.isZero, fx, h] at hz
  · exact h

/-- An exact copy of a finite nonzero value, at its own precision or a wider one, is canonical. -/
theorem canonical_copyFinite (c : Params) (hv : c.valid = true) (p q : Prec) (x : VReg) (neg : Bool)
    (hpq : groupCount c p ≤ groupCount c q) (hw : x.wf c p = true) (hf : x.isFinite = true)
    (hz : x.isZero (groupCount c p) = false) : (copyFinite c q (groupCount c p) x neg).canonical c q = true := by
  obtain ⟨h0, h1, h2⟩ := VReg.wf_nonzero c p x hw hf hz
  have hn := groupCount_pos c hv p
  refine canonical_finiteV c hv q _ _ _ (by simpa using hpq) (VReg.groups_lt c p x hw hf) ?_ h1 h2
  obtain ⟨m, hm⟩ : ∃ m, groupCount c p = m + 1 := ⟨_, (Nat.succ_pred_eq_of_pos hn).symm⟩
  rw [hm]
  simp [VReg.groups, List.range_succ_eq_map, h0]

/-- An exact copy has the value of the original with the sign given. -/
theorem val_copyFinite (c : Params) (hv : c.valid = true) (p q : Prec) (x : VReg) (neg : Bool) (n : Nat)
    (hn : groupCount c p ≤ n) (hw : x.wf c p = true) (hf : x.isFinite = true)
    (hz : x.isZero (groupCount c p) = false) :
    (copyFinite c q (groupCount c p) x neg).val n =
      signFactor neg * ((x.sig (groupCount c p) : ℝ) * (10000 : ℝ) ^ x.low (groupCount c p)) := by
  obtain ⟨_, h1, h2⟩ := VReg.wf_nonzero c p x hw hf hz
  have V := paramFacts c hv
  have := V.expMin; have := V.expMax
  rw [copyFinite, val_finiteV _ _ _ _ _ _ (VReg.groups_lt c p x hw hf) (by simpa using hn) (by omega) (by omega),
    VReg.length_groups]
  rfl

/-! ## Groups of an integer (R70) -/

@[simp] theorem length_toGroups (n k : Nat) : (toGroups n k).length = n := by simp [toGroups]

theorem toGroups_lt (n k : Nat) : ∀ d ∈ toGroups n k, d < base := by
  intro d hd
  simp only [toGroups, List.mem_map] at hd
  obtain ⟨i, _, rfl⟩ := hd
  exact Nat.mod_lt _ (by decide)

theorem toGroups_succ (n k : Nat) : toGroups (n + 1) k = toGroups n (k / base) ++ [k % base] := by
  unfold toGroups
  rw [List.range_succ, List.map_append]
  congr 1
  · refine List.map_congr_left fun i hi => ?_
    rw [List.mem_range] at hi
    rw [Nat.div_div_eq_div_mul, mul_comm base, ← pow_succ]
    congr 3
    omega
  · simp

theorem fromGroups_toGroups (n k : Nat) : fromGroups (toGroups n k) = k % base ^ n := by
  induction n generalizing k with
  | zero => simp [toGroups, Nat.mod_one]
  | succ n ih =>
    rw [toGroups_succ, fromGroups_append, ih]
    simp only [List.length_singleton, pow_one, fromGroups_cons, List.length_nil, pow_zero, mul_one, fromGroups_nil,
      add_zero]
    rw [pow_succ, mul_comm (base ^ n) base, Nat.mod_mul]
    ring

/-- Digit groups are read back from the integer they make. -/
theorem toGroups_fromGroups (gs : List Nat) (h : ∀ d ∈ gs, d < base) : toGroups gs.length (fromGroups gs) = gs := by
  induction gs using List.reverseRecOn with
  | nil => rfl
  | append_singleton gs d ih =>
    have hd : d < base := h d (by simp)
    rw [List.length_append, List.length_singleton, toGroups_succ, fromGroups_append]
    simp only [List.length_singleton, pow_one, fromGroups_cons, List.length_nil, pow_zero, mul_one, fromGroups_nil,
      add_zero]
    rw [show (fromGroups gs * base + d) % base = d by rw [Nat.mul_add_mod', Nat.mod_eq_of_lt hd], Nat.add_comm, Nat.add_mul_div_right _ _ (by decide), Nat.div_eq_of_lt hd, zero_add,
      ih (fun e he => h e (by simp [he]))]

theorem toGroups_head (n k : Nat) (hn : 0 < n) (h1 : base ^ (n - 1) ≤ k) (h2 : k < base ^ n) :
    (toGroups n k).headD 0 ≠ 0 := by
  obtain ⟨m, rfl⟩ : ∃ m, n = m + 1 := ⟨n - 1, by omega⟩
  have h : (toGroups (m + 1) k).headD 0 = k / base ^ m % base := by simp [toGroups, List.range_succ_eq_map]
  have hp : 0 < base ^ m := Nat.pow_pos (by decide)
  rw [Nat.add_sub_cancel] at h1
  have a : 1 ≤ k / base ^ m := (Nat.one_le_div_iff hp).2 h1
  have b : k / base ^ m < base := by rwa [Nat.div_lt_iff_lt_mul hp, mul_comm, ← pow_succ]
  rw [h, Nat.mod_eq_of_lt b]
  omega

/-! ## ROUND_p from its guard line on (R70) -/

/-- The retained groups after rounding, and whether the rounding carried out of the leading group (R70). -/
def keptGroups (n m : Nat) : Nat × Bool :=
  if base / 2 ≤ m % base then
    if m / base + 1 = base ^ n then (base ^ (n - 1), true) else (m / base + 1, false)
  else (m / base, false)

theorem roundGuard_eq (c : Params) (p : Prec) (neg : Bool) (m : Nat) (e : Int) :
    roundGuard c p neg m e =
      let q := keptGroups (groupCount c p) m
      let e' := if q.2 then e + 1 else e
      if c.expMax < e' then (infV c p neg, overflowOutcome neg)
      else if e' < c.expMin then (zeroV c p, underflowOutcome neg)
      else (finiteV c p (toGroups (groupCount c p) q.1) e' neg, .ok) := by
  unfold roundGuard keptGroups
  by_cases h1 : base / 2 ≤ m % base
  · by_cases h2 : m / base + 1 = base ^ groupCount c p
    · simp [h1, h2]
    · simp [h1, h2]
  · simp [h1]

theorem keptGroups_bounds (n m : Nat) (hn : 0 < n) (h1 : base ^ n ≤ m) (h2 : m < base ^ (n + 1)) :
    base ^ (n - 1) ≤ (keptGroups n m).1 ∧ (keptGroups n m).1 < base ^ n := by
  have hp : base ^ n = base ^ (n - 1) * base := by rw [← pow_succ]; congr 1; omega
  have a : base ^ (n - 1) ≤ m / base := by rw [Nat.le_div_iff_mul_le (by decide), ← hp]; exact h1
  have b : m / base < base ^ n := by rw [Nat.div_lt_iff_lt_mul (by decide), ← pow_succ]; exact h2
  have c : base ^ (n - 1) < base ^ n := Nat.pow_lt_pow_right (by decide) (by omega)
  unfold keptGroups
  split
  · split
    · exact ⟨le_rfl, c⟩
    · simp only
      omega
  · exact ⟨a, b⟩

theorem canonical_roundGuard (c : Params) (hv : c.valid = true) (p : Prec) (neg : Bool) (m : Nat) (e : Int)
    (h1 : base ^ groupCount c p ≤ m) (h2 : m < base ^ (groupCount c p + 1)) :
    (roundGuard c p neg m e).1.canonical c p = true := by
  rw [roundGuard_eq]
  have hn := groupCount_pos c hv p
  have hk := keptGroups_bounds _ m hn h1 h2
  generalize keptGroups (groupCount c p) m = q at hk
  dsimp only
  generalize (if q.2 = true then e + 1 else e) = e'
  split
  · exact canonical_infV _ _ _
  · split
    · exact canonical_zeroV _ _
    · exact canonical_finiteV c hv p _ _ neg (by simp) (toGroups_lt _ _) (toGroups_head _ _ hn hk.1 hk.2) (by omega)
        (by omega)

/-! ## ROUND_p of a real number -/

/-- The window of ROUND_p holds N + 1 groups, the leading one nonzero (R70). -/
theorem window_bounds (n : Nat) (a : ℝ) (ha : 0 < a) :
    base ^ n ≤ ⌊a * (10000 : ℝ) ^ ((n : Int) - Int.log 10000 a)⌋.toNat ∧
      ⌊a * (10000 : ℝ) ^ ((n : Int) - Int.log 10000 a)⌋.toNat < base ^ (n + 1) := by
  have b1 := Int.zpow_log_le_self (R := ℝ) (b := 10000) (by norm_num) ha
  have b2 := Int.lt_zpow_succ_log_self (R := ℝ) (b := 10000) (by norm_num) a
  push_cast at b1 b2
  set E := Int.log 10000 a
  have hp : (0 : ℝ) < (10000 : ℝ) ^ ((n : Int) - E) := by positivity
  rw [Int.floor_toNat]
  constructor
  · apply Nat.le_floor
    push_cast
    rw [base_cast]
    calc (10000 : ℝ) ^ n = (10000 : ℝ) ^ E * (10000 : ℝ) ^ ((n : Int) - E) := by
          rw [← zpow_add₀ (by norm_num), ← zpow_natCast]; congr 1; ring
      _ ≤ _ := mul_le_mul_of_nonneg_right b1 hp.le
  · rw [Nat.floor_lt (by positivity)]
    push_cast
    rw [base_cast]
    calc a * (10000 : ℝ) ^ ((n : Int) - E) < (10000 : ℝ) ^ (E + 1) * (10000 : ℝ) ^ ((n : Int) - E) :=
          mul_lt_mul_of_pos_right b2 hp
      _ = _ := by rw [← zpow_add₀ (by norm_num), ← zpow_natCast]; congr 1; push_cast; ring

theorem canonical_roundReal (c : Params) (hv : c.valid = true) (p : Prec) (r : ℝ) (hr : r ≠ 0) :
    (roundReal c p r).1.canonical c p = true := by
  have h := window_bounds (groupCount c p) |r| (abs_pos.2 hr)
  rw [roundReal_eq]
  exact canonical_roundGuard c hv p _ _ _ h.1 h.2

theorem canonical_roundScaled (c : Params) (hv : c.valid = true) (p : Prec) (neg : Bool) (num den : Nat) (k : Int)
    (hn : num ≠ 0) (hd : den ≠ 0) : (roundScaled c p neg num den k).1.canonical c p = true := by
  rw [roundScaled_eq_roundReal _ _ _ _ _ _ hn hd]
  refine canonical_roundReal _ hv _ _ ?_
  have := signFactor_ne_zero neg
  positivity

/-- ROUND_p keeps the groups of a number of at most N_p groups; only its exponent can leave the range (R70: a guard of 0
never rounds). -/
theorem roundReal_groups (c : Params) (hv : c.valid = true) (p : Prec) (neg : Bool) (k : Nat) (e : Int)
    (h1 : base ^ (groupCount c p - 1) ≤ k) (h2 : k < base ^ groupCount c p) :
    roundReal c p (signFactor neg * ((k : ℝ) * (10000 : ℝ) ^ (e - ((groupCount c p : Int) - 1)))) =
      if c.expMax < e then (infV c p neg, overflowOutcome neg)
      else if e < c.expMin then (zeroV c p, underflowOutcome neg)
      else (finiteV c p (toGroups (groupCount c p) k) e neg, .ok) := by
  have hn := groupCount_pos c hv p
  set n := groupCount c p
  have hk : (0 : ℝ) < k := by
    have : 0 < base ^ (n - 1) := Nat.pow_pos (by decide)
    exact_mod_cast (by omega : 0 < k)
  have hpos : (0 : ℝ) < (k : ℝ) * (10000 : ℝ) ^ (e - ((n : Int) - 1)) := by positivity
  have k1 : (10000 : ℝ) ^ ((n : Int) - 1) ≤ k := by
    have : ((base ^ (n - 1) : Nat) : ℝ) ≤ k := by exact_mod_cast h1
    rw [Nat.cast_pow, base_cast, ← zpow_natCast] at this
    rwa [show ((n - 1 : Nat) : Int) = (n : Int) - 1 by omega] at this
  have k2 : (k : ℝ) < (10000 : ℝ) ^ (n : Int) := by
    have : (k : ℝ) < ((base ^ n : Nat) : ℝ) := by exact_mod_cast h2
    rwa [Nat.cast_pow, base_cast, ← zpow_natCast] at this
  have hlog : Int.log 10000 ((k : ℝ) * (10000 : ℝ) ^ (e - ((n : Int) - 1))) = e := by
    refine log_unique 10000 (by norm_num) _ hpos e ?_ ?_
    · push_cast
      calc (10000 : ℝ) ^ e = (10000 : ℝ) ^ ((n : Int) - 1) * (10000 : ℝ) ^ (e - ((n : Int) - 1)) := by
            rw [← zpow_add₀ (by norm_num)]; congr 1; ring
        _ ≤ _ := mul_le_mul_of_nonneg_right k1 (by positivity)
    · push_cast
      calc (k : ℝ) * (10000 : ℝ) ^ (e - ((n : Int) - 1)) < (10000 : ℝ) ^ (n : Int) * (10000 : ℝ) ^ (e - ((n : Int) - 1)) :=
            mul_lt_mul_of_pos_right k2 (by positivity)
        _ = _ := by rw [← zpow_add₀ (by norm_num)]; congr 1; ring
  have hM : ⌊(k : ℝ) * (10000 : ℝ) ^ (e - ((n : Int) - 1)) * (10000 : ℝ) ^ ((n : Int) - e)⌋.toNat = k * base := by
    rw [mul_assoc, ← zpow_add₀ (by norm_num), show e - ((n : Int) - 1) + ((n : Int) - e) = 1 by ring, zpow_one]
    have : (k : ℝ) * 10000 = ((k * base : Nat) : ℝ) := by push_cast; rw [base_cast]
    rw [this, Int.floor_toNat, Nat.floor_natCast]
  rw [roundReal_eq, signFactor_mul_neg_iff _ _ hpos, abs_mul, signFactor_abs, one_mul, abs_of_pos hpos, hlog]
  rw [hM, roundGuard_eq]
  have hkept : keptGroups n (k * base) = (k, false) := by
    have : ¬ base / 2 ≤ k * base % base := by rw [Nat.mul_mod_left]; decide
    rw [keptGroups, if_neg this, Nat.mul_div_cancel _ (by decide)]
  have hkept' : keptGroups (groupCount c p) (k * base) = (k, false) := hkept
  rw [hkept']
  simp only [Bool.false_eq_true, if_false]
  rfl

/-- ROUND_p keeps a number of at most N_p groups whose exponent is in range. -/
theorem roundReal_exact (c : Params) (hv : c.valid = true) (p : Prec) (neg : Bool) (k : Nat) (e : Int)
    (h1 : base ^ (groupCount c p - 1) ≤ k) (h2 : k < base ^ groupCount c p) (he : c.expMin ≤ e) (he' : e ≤ c.expMax) :
    roundReal c p (signFactor neg * ((k : ℝ) * (10000 : ℝ) ^ (e - ((groupCount c p : Int) - 1)))) =
      (finiteV c p (toGroups (groupCount c p) k) e neg, .ok) := by
  rw [roundReal_groups c hv p neg k e h1 h2, if_neg (by omega), if_neg (by omega)]

/-- ROUND_p of a nonzero integer that fits in N_p groups and in the exponent range is that integer. -/
theorem roundReal_integer (c : Params) (hv : c.valid = true) (p : Prec) (neg : Bool) (z m : Nat) (hz : z ≠ 0)
    (hlt : z < base ^ m) (hm : m ≤ groupCount c p) (hm' : (m : Int) - 1 ≤ c.expMax) :
    (roundReal c p (signFactor neg * (z : ℝ))).2 = .ok ∧
      (roundReal c p (signFactor neg * (z : ℝ))).1.val (groupCount c p) = signFactor neg * (z : ℝ) := by
  have hn := groupCount_pos c hv p
  have V := paramFacts c hv
  set n := groupCount c p with hndef
  obtain ⟨l, hl⟩ : ∃ l, l = Nat.log base z := ⟨_, rfl⟩
  have l1 : base ^ l ≤ z := hl ▸ Nat.pow_log_le_self base hz
  have l2 : z < base ^ (l + 1) := hl ▸ Nat.lt_pow_succ_log_self (by decide) z
  have hlm : l < m := (Nat.pow_lt_pow_iff_right (by decide : 1 < base)).1 (lt_of_le_of_lt l1 hlt)
  have k1 : base ^ (n - 1) ≤ z * base ^ (n - 1 - l) := by
    calc base ^ (n - 1) = base ^ l * base ^ (n - 1 - l) := by rw [← pow_add]; congr 1; omega
      _ ≤ _ := Nat.mul_le_mul_right _ l1
  have k2 : z * base ^ (n - 1 - l) < base ^ n := by
    calc z * base ^ (n - 1 - l) < base ^ (l + 1) * base ^ (n - 1 - l) :=
          Nat.mul_lt_mul_of_pos_right l2 (Nat.pow_pos (by decide))
      _ = _ := by rw [← pow_add]; congr 1; omega
  have hval : (z : ℝ) = ((z * base ^ (n - 1 - l) : Nat) : ℝ) * (10000 : ℝ) ^ ((l : Int) - ((n : Int) - 1)) := by
    push_cast
    rw [base_cast, mul_assoc, ← zpow_natCast, ← zpow_add₀ (by norm_num),
      show ((n - 1 - l : Nat) : Int) + ((l : Int) - ((n : Int) - 1)) = 0 by omega]
    simp
  have h := roundReal_exact c hv p neg (z * base ^ (n - 1 - l)) l k1 k2 (by have := V.expMin; omega) (by omega)
  rw [← hndef, ← hval] at h
  rw [h]
  refine ⟨rfl, ?_⟩
  have := V.expMax
  rw [val_finiteV _ _ _ _ _ _ (toGroups_lt _ _) (by simp) (by omega) (by omega), fromGroups_toGroups,
    Nat.mod_eq_of_lt k2, length_toGroups, ← hval]

end Sys2Proof.Machine
end

