-- ==== Sys2Proof/Laws/State.lean ====
section
/-! SUPPORT. One lemma for each field of State and each update of it, and register access after an update. -/

namespace Sys2Proof.Machine

/-! ## setV -/

@[simp] theorem State.cfg_setV (s : State) (k : RegId) (x : VReg) : (s.setV k x).cfg = s.cfg := rfl
@[simp] theorem State.v_setV (s : State) (k : RegId) (x : VReg) : (s.setV k x).v = s.v.set k x := rfl
@[simp] theorem State.status_setV (s : State) (k : RegId) (x : VReg) : (s.setV k x).status = s.status := rfl
@[simp] theorem State.intin_setV (s : State) (k : RegId) (x : VReg) : (s.setV k x).intin = s.intin := rfl
@[simp] theorem State.tbuf_setV (s : State) (k : RegId) (x : VReg) : (s.setV k x).tbuf = s.tbuf := rfl
@[simp] theorem State.epoch_setV (s : State) (k : RegId) (x : VReg) : (s.setV k x).epoch = s.epoch := rfl
@[simp] theorem State.pending_setV (s : State) (k : RegId) (x : VReg) : (s.setV k x).pending = s.pending := rfl
@[simp] theorem State.rdata_setV (s : State) (k : RegId) (x : VReg) : (s.setV k x).rdata = s.rdata := rfl
@[simp] theorem State.readByte_setV (s : State) (k : RegId) (x : VReg) (j : Nat) : (s.setV k x).readByte j = s.readByte j := rfl

/-! ## setOutcome -/

@[simp] theorem State.cfg_setOutcome (s : State) (o : RangeOutcome) : (s.setOutcome o).cfg = s.cfg := rfl
@[simp] theorem State.v_setOutcome (s : State) (o : RangeOutcome) : (s.setOutcome o).v = s.v := rfl
@[simp] theorem State.status_setOutcome (s : State) (o : RangeOutcome) : (s.setOutcome o).status = { s.status with outcome := o } := rfl
@[simp] theorem State.intin_setOutcome (s : State) (o : RangeOutcome) : (s.setOutcome o).intin = s.intin := rfl
@[simp] theorem State.tbuf_setOutcome (s : State) (o : RangeOutcome) : (s.setOutcome o).tbuf = s.tbuf := rfl
@[simp] theorem State.epoch_setOutcome (s : State) (o : RangeOutcome) : (s.setOutcome o).epoch = s.epoch := rfl
@[simp] theorem State.pending_setOutcome (s : State) (o : RangeOutcome) : (s.setOutcome o).pending = s.pending := rfl
@[simp] theorem State.rdata_setOutcome (s : State) (o : RangeOutcome) : (s.setOutcome o).rdata = s.rdata := rfl
@[simp] theorem State.getV_setOutcome (s : State) (o : RangeOutcome) (j : RegId) : (s.setOutcome o).getV j = s.getV j := rfl
@[simp] theorem State.readByte_setOutcome (s : State) (o : RangeOutcome) (j : Nat) : (s.setOutcome o).readByte j = s.readByte j := rfl

/-! ## setCmp -/

@[simp] theorem State.cfg_setCmp (s : State) (r : CmpResult) : (s.setCmp r).cfg = s.cfg := rfl
@[simp] theorem State.v_setCmp (s : State) (r : CmpResult) : (s.setCmp r).v = s.v := rfl
@[simp] theorem State.status_setCmp (s : State) (r : CmpResult) : (s.setCmp r).status = { s.status with cmp := r } := rfl
@[simp] theorem State.intin_setCmp (s : State) (r : CmpResult) : (s.setCmp r).intin = s.intin := rfl
@[simp] theorem State.tbuf_setCmp (s : State) (r : CmpResult) : (s.setCmp r).tbuf = s.tbuf := rfl
@[simp] theorem State.epoch_setCmp (s : State) (r : CmpResult) : (s.setCmp r).epoch = s.epoch := rfl
@[simp] theorem State.pending_setCmp (s : State) (r : CmpResult) : (s.setCmp r).pending = s.pending := rfl
@[simp] theorem State.rdata_setCmp (s : State) (r : CmpResult) : (s.setCmp r).rdata = s.rdata := rfl
@[simp] theorem State.getV_setCmp (s : State) (r : CmpResult) (j : RegId) : (s.setCmp r).getV j = s.getV j := rfl
@[simp] theorem State.readByte_setCmp (s : State) (r : CmpResult) (j : Nat) : (s.setCmp r).readByte j = s.readByte j := rfl

/-! ## setT -/

@[simp] theorem State.cfg_setT (s : State) (b : Bool) : (s.setT b).cfg = s.cfg := rfl
@[simp] theorem State.v_setT (s : State) (b : Bool) : (s.setT b).v = s.v := rfl
@[simp] theorem State.status_setT (s : State) (b : Bool) : (s.setT b).status = { s.status with t := b } := rfl
@[simp] theorem State.intin_setT (s : State) (b : Bool) : (s.setT b).intin = s.intin := rfl
@[simp] theorem State.tbuf_setT (s : State) (b : Bool) : (s.setT b).tbuf = s.tbuf := rfl
@[simp] theorem State.epoch_setT (s : State) (b : Bool) : (s.setT b).epoch = s.epoch := rfl
@[simp] theorem State.pending_setT (s : State) (b : Bool) : (s.setT b).pending = s.pending := rfl
@[simp] theorem State.rdata_setT (s : State) (b : Bool) : (s.setT b).rdata = s.rdata := rfl
@[simp] theorem State.getV_setT (s : State) (b : Bool) (j : RegId) : (s.setT b).getV j = s.getV j := rfl
@[simp] theorem State.readByte_setT (s : State) (b : Bool) (j : Nat) : (s.setT b).readByte j = s.readByte j := rfl

/-! ## setLen -/

@[simp] theorem State.cfg_setLen (s : State) (n : BitVec 8) : (s.setLen n).cfg = s.cfg := rfl
@[simp] theorem State.v_setLen (s : State) (n : BitVec 8) : (s.setLen n).v = s.v := rfl
@[simp] theorem State.status_setLen (s : State) (n : BitVec 8) : (s.setLen n).status = { s.status with len := n } := rfl
@[simp] theorem State.intin_setLen (s : State) (n : BitVec 8) : (s.setLen n).intin = s.intin := rfl
@[simp] theorem State.tbuf_setLen (s : State) (n : BitVec 8) : (s.setLen n).tbuf = s.tbuf := rfl
@[simp] theorem State.epoch_setLen (s : State) (n : BitVec 8) : (s.setLen n).epoch = s.epoch := rfl
@[simp] theorem State.pending_setLen (s : State) (n : BitVec 8) : (s.setLen n).pending = s.pending := rfl
@[simp] theorem State.rdata_setLen (s : State) (n : BitVec 8) : (s.setLen n).rdata = s.rdata := rfl
@[simp] theorem State.getV_setLen (s : State) (n : BitVec 8) (j : RegId) : (s.setLen n).getV j = s.getV j := rfl
@[simp] theorem State.readByte_setLen (s : State) (n : BitVec 8) (j : Nat) : (s.setLen n).readByte j = s.readByte j := rfl

/-! ## setFault -/

@[simp] theorem State.cfg_setFault (s : State) (f : Option FaultCode) : (s.setFault f).cfg = s.cfg := rfl
@[simp] theorem State.v_setFault (s : State) (f : Option FaultCode) : (s.setFault f).v = s.v := rfl
@[simp] theorem State.status_setFault (s : State) (f : Option FaultCode) : (s.setFault f).status = { s.status with fault := f } := rfl
@[simp] theorem State.intin_setFault (s : State) (f : Option FaultCode) : (s.setFault f).intin = s.intin := rfl
@[simp] theorem State.tbuf_setFault (s : State) (f : Option FaultCode) : (s.setFault f).tbuf = s.tbuf := rfl
@[simp] theorem State.epoch_setFault (s : State) (f : Option FaultCode) : (s.setFault f).epoch = s.epoch := rfl
@[simp] theorem State.pending_setFault (s : State) (f : Option FaultCode) : (s.setFault f).pending = s.pending := rfl
@[simp] theorem State.rdata_setFault (s : State) (f : Option FaultCode) : (s.setFault f).rdata = s.rdata := rfl
@[simp] theorem State.getV_setFault (s : State) (f : Option FaultCode) (j : RegId) : (s.setFault f).getV j = s.getV j := rfl
@[simp] theorem State.readByte_setFault (s : State) (f : Option FaultCode) (j : Nat) : (s.setFault f).readByte j = s.readByte j := rfl

/-! ## memWrite -/

@[simp] theorem State.cfg_memWrite (s : State) (a : Nat) (t : Text) : (s.memWrite a t).cfg = s.cfg := rfl
@[simp] theorem State.v_memWrite (s : State) (a : Nat) (t : Text) : (s.memWrite a t).v = s.v := rfl
@[simp] theorem State.status_memWrite (s : State) (a : Nat) (t : Text) : (s.memWrite a t).status = s.status := rfl
@[simp] theorem State.intin_memWrite (s : State) (a : Nat) (t : Text) : (s.memWrite a t).intin = s.intin := rfl
@[simp] theorem State.tbuf_memWrite (s : State) (a : Nat) (t : Text) : (s.memWrite a t).tbuf = Memory.writeAll s.tbuf a t := rfl
@[simp] theorem State.epoch_memWrite (s : State) (a : Nat) (t : Text) : (s.memWrite a t).epoch = s.epoch := rfl
@[simp] theorem State.pending_memWrite (s : State) (a : Nat) (t : Text) : (s.memWrite a t).pending = s.pending := rfl
@[simp] theorem State.rdata_memWrite (s : State) (a : Nat) (t : Text) : (s.memWrite a t).rdata = s.rdata := rfl
@[simp] theorem State.getV_memWrite (s : State) (a : Nat) (t : Text) (j : RegId) : (s.memWrite a t).getV j = s.getV j := rfl

/-! ## Register access -/

@[simp] theorem State.getV_setV_self (s : State) (k : RegId) (x : VReg) : (s.setV k x).getV k = x := by
  simp [State.getV, State.setV]

theorem State.getV_setV_ne (s : State) (k j : RegId) (x : VReg) (h : j ≠ k) : (s.setV k x).getV j = s.getV j := by
  have : k.val ≠ j.val := fun e => h (Fin.ext e.symm)
  simp [State.getV, State.setV, this]

theorem State.getV_setV (s : State) (k j : RegId) (x : VReg) :
    (s.setV k x).getV j = if j = k then x else s.getV j := by
  split
  · next h => subst h; simp
  · next h => exact State.getV_setV_ne s k j x h

/-- Two states with the same fields, the registers read one by one, are the same state. -/
theorem State.ext_getV {s t : State} (hcfg : t.cfg = s.cfg) (hv : ∀ k, t.getV k = s.getV k) (hst : t.status = s.status)
    (hin : t.intin = s.intin) (hm : t.tbuf = s.tbuf) (he : t.epoch = s.epoch) (hp : t.pending = s.pending)
    (hr : t.rdata = s.rdata) : t = s := by
  have : t.v = s.v := by
    ext i hi
    exact hv ⟨i, hi⟩
  cases s; cases t; simp_all

@[simp] theorem State.getV_powerOn (c : Config.Params) (k : RegId) : (State.powerOn c).getV k = VReg.reset c := by
  simp [State.getV, State.powerOn]

@[simp] theorem getV_softReset (s : State) (k : RegId) : (softReset s).getV k = VReg.reset s.cfg := by
  simp [State.getV, softReset]

@[simp] theorem getV_powerOnReset (s : State) (k : RegId) : (powerOnReset s).getV k = VReg.reset s.cfg := by
  simp [State.getV, powerOnReset, softReset]

@[simp] theorem readByte_softReset (s : State) (a : Nat) : (softReset s).readByte a = s.readByte a := rfl

end Sys2Proof.Machine
end

