-- ==== Sys2Proof/Laws/Memory.lean ====
section
/-! SUPPORT. TBUF: a read after a write, and every memory operation keeps the canonical form. -/

namespace Sys2Proof.Machine

/-! ## Read after write -/

theorem Memory.lookup_write (m : Memory) (x : Nat) (b : Byte) (y : Nat) :
    Memory.lookup (Memory.write m x b) y = if y = x then some b else Memory.lookup m y := by
  induction m with
  | nil => simp [Memory.write, Memory.lookup]
  | cons e m ih =>
    obtain ⟨a, c⟩ := e
    unfold Memory.write
    split
    · simp [Memory.lookup]
    · split
      · next h => subst h; simp only [Memory.lookup]; split <;> simp_all
      · next h1 h2 =>
        simp only [Memory.lookup, ih]
        split
        · next h3 => subst h3; simp [Ne.symm h2]
        · rfl

theorem Memory.lookup_writeAll (t : Text) : ∀ (m : Memory) (a y : Nat),
    Memory.lookup (Memory.writeAll m a t) y =
      if h : a ≤ y ∧ y - a < t.length then some (t[y - a]'h.2) else Memory.lookup m y := by
  induction t with
  | nil => intro m a y; simp [Memory.writeAll]
  | cons b t ih =>
    intro m a y
    rw [Memory.writeAll, ih, Memory.lookup_write]
    by_cases h0 : y = a
    · subst h0; simp
    · by_cases h1 : a + 1 ≤ y ∧ y - (a + 1) < t.length
      · have e : y - a = (y - (a + 1)) + 1 := by omega
        have h2 : a ≤ y ∧ y - a < (b :: t).length := by simp only [List.length_cons]; omega
        rw [dif_pos h1, dif_pos h2]
        simp only [e, List.getElem_cons_succ]
      · have h2 : ¬ (a ≤ y ∧ y - a < (b :: t).length) := by simp only [List.length_cons]; omega
        rw [dif_neg h1, dif_neg h2, if_neg h0]

theorem State.readByte_memWrite (s : State) (a : Nat) (t : Text) (y : Nat) :
    (s.memWrite a t).readByte y = if h : a ≤ y ∧ y - a < t.length then t[y - a]'h.2 else s.readByte y := by
  unfold State.readByte State.memWrite
  simp only [Memory.lookup_writeAll]
  split
  · next b h =>
    split at h
    · next h' => rw [dif_pos h']; exact (Option.some.inj h).symm
    · next h' => rw [dif_neg h', h]
  · next h =>
    split at h
    · cases h
    · next h' => rw [dif_neg h', h]

/-! ## The canonical form -/

theorem Memory.risingFrom_cons (lo : Option Nat) (a : Nat) (b : Byte) (m : Memory) :
    Memory.risingFrom lo ((a, b) :: m) = true ↔
      (∀ l, lo = some l → l < a) ∧ Memory.risingFrom (some a) m = true := by
  cases lo <;> simp [Memory.risingFrom]

theorem Memory.risingFrom_write (m : Memory) (x : Nat) (b : Byte) : ∀ lo, (∀ l, lo = some l → l < x) →
    Memory.risingFrom lo m = true → Memory.risingFrom lo (Memory.write m x b) = true := by
  induction m with
  | nil => intro lo hlo _; rw [Memory.write, Memory.risingFrom_cons]; exact ⟨hlo, by simp [Memory.risingFrom]⟩
  | cons e m ih =>
    obtain ⟨a, c⟩ := e
    intro lo hlo h
    rw [Memory.risingFrom_cons] at h
    unfold Memory.write
    split
    · next hxa =>
      rw [Memory.risingFrom_cons, Memory.risingFrom_cons]
      exact ⟨hlo, by simpa using hxa, h.2⟩
    · split
      · next _ hx => subst hx; rw [Memory.risingFrom_cons]; exact ⟨hlo, h.2⟩
      · next h1 h2 =>
        rw [Memory.risingFrom_cons]
        exact ⟨h.1, ih (some a) (by simp; omega) h.2⟩

theorem Memory.mem_write (m : Memory) (x : Nat) (b : Byte) (e : Host.Cell) (h : e ∈ Memory.write m x b) :
    e = (x, b) ∨ e ∈ m := by
  induction m with
  | nil => simpa [Memory.write] using h
  | cons d m ih =>
    obtain ⟨a, c⟩ := d
    unfold Memory.write at h
    split at h
    · simpa using h
    · split at h
      · simp only [List.mem_cons] at h ⊢; tauto
      · simp only [List.mem_cons] at h ⊢
        rcases h with h | h
        · exact Or.inr (Or.inl h)
        · rcases ih h with h | h <;> tauto

/-- A write inside the buffer keeps the canonical form. -/
theorem Memory.wf_write (size : Nat) (m : Memory) (x : Nat) (b : Byte) (hx : x < size)
    (h : Memory.wf size m = true) : Memory.wf size (Memory.write m x b) = true := by
  simp only [Memory.wf, Bool.and_eq_true, List.all_eq_true, decide_eq_true_eq] at h ⊢
  refine ⟨Memory.risingFrom_write m x b none (by simp) h.1, fun e he => ?_⟩
  rcases Memory.mem_write m x b e he with rfl | he
  · exact hx
  · exact h.2 e he

/-- Writing a text inside the buffer keeps the canonical form. -/
theorem Memory.wf_writeAll (size : Nat) (t : Text) : ∀ (m : Memory) (a : Nat), a + t.length ≤ size →
    Memory.wf size m = true → Memory.wf size (Memory.writeAll m a t) = true := by
  induction t with
  | nil => intro m a _ h; exact h
  | cons b t ih =>
    intro m a ha h
    simp only [List.length_cons] at ha
    exact ih _ _ (by omega) (Memory.wf_write size m a b (by omega) h)

theorem Memory.wf_nil (size : Nat) : Memory.wf size [] = true := by simp [Memory.wf, Memory.risingFrom]

/-- The reset memory is in canonical form. -/
theorem reset_memory_wf : Memory.wf State.reset.cfg.tbufSize State.reset.tbuf = true := Memory.wf_nil _

theorem Memory.lookup_of_le (m : Memory) : ∀ l, Memory.risingFrom (some l) m = true → ∀ x ≤ l,
    Memory.lookup m x = none := by
  induction m with
  | nil => intro l _ x _; rfl
  | cons e m ih =>
    obtain ⟨a, b⟩ := e
    intro l h x hx
    rw [Memory.risingFrom_cons] at h
    have hla := h.1 l rfl
    rw [Memory.lookup, if_neg (by omega)]
    exact ih a h.2 x (by omega)

/-- Two buffers in canonical form in which the same offsets hold the same written bytes are the same data. -/
theorem Memory.ext_lookup (m : Memory) : ∀ (m' : Memory) (lo : Option Nat), Memory.risingFrom lo m = true →
    Memory.risingFrom lo m' = true → (∀ x, Memory.lookup m x = Memory.lookup m' x) → m = m' := by
  induction m with
  | nil =>
    intro m' lo _ _ h
    cases m' with
    | nil => rfl
    | cons e m' => have := h e.1; simp [Memory.lookup] at this
  | cons e m ih =>
    obtain ⟨a, b⟩ := e
    intro m' lo h1 h2 h
    cases m' with
    | nil => have := h a; simp [Memory.lookup] at this
    | cons e' m' =>
      obtain ⟨a', b'⟩ := e'
      rw [Memory.risingFrom_cons] at h1 h2
      have haa : a = a' := by
        rcases Nat.lt_trichotomy a a' with hlt | rfl | hlt
        · have := h a
          rw [Memory.lookup, Memory.lookup, if_pos rfl, if_neg (by omega),
            Memory.lookup_of_le m' a' h2.2 a (by omega)] at this
          cases this
        · rfl
        · have := h a'
          rw [Memory.lookup, Memory.lookup, if_pos rfl, if_neg (by omega),
            Memory.lookup_of_le m a h1.2 a' (by omega)] at this
          cases this
      subst haa
      have hb : b = b' := by have := h a; simpa [Memory.lookup] using this
      subst hb
      congr 1
      refine ih m' (some a) h1.2 h2.2 fun x => ?_
      by_cases hx : x = a
      · subst hx
        rw [Memory.lookup_of_le m x h1.2 x le_rfl, Memory.lookup_of_le m' x h2.2 x le_rfl]
      · have := h x
        simpa [Memory.lookup, hx] using this

end Sys2Proof.Machine
end

