-- ==== Sys2Proof/Laws/Ops.lean ====
section
/-! SUPPORT. What each shared operation can do, once: the operand and buffer checks, the write-backs, fault entry. -/

namespace Sys2Proof.Machine

/-! ## Frames of the write-backs -/

theorem SameRest.refl (s : State) : SameRest s s := ⟨rfl, rfl, fun _ => rfl, rfl, rfl⟩

theorem writeResult_writes (s : State) (rd : RegId) (r : Result) : WritesResult s (writeResult rd r s) rd r where
  value := by simp [writeResult]
  others := fun k hk => by simp [writeResult, State.getV_setV_ne _ _ _ _ hk]
  status := rfl
  rest := ⟨rfl, rfl, fun _ => rfl, rfl, rfl⟩

theorem setCmp_writes (s : State) (r : CmpResult) : WritesStatus s (s.setCmp r) { s.status with cmp := r } :=
  ⟨fun _ => rfl, rfl, rfl, rfl, fun _ => rfl, rfl, rfl⟩

theorem setT_writes (s : State) (b : Bool) : WritesStatus s (s.setT b) { s.status with t := b } :=
  ⟨fun _ => rfl, rfl, rfl, rfl, fun _ => rfl, rfl, rfl⟩

theorem setOutcome_writes (s : State) (o : RangeOutcome) :
    WritesStatus s (s.setOutcome o) { s.status with outcome := o } :=
  ⟨fun _ => rfl, rfl, rfl, rfl, fun _ => rfl, rfl, rfl⟩

/-- Fault entry writes STATUS.FAULT and nothing else (R12, R121). -/
theorem raiseFault_writes (s : State) (f : FaultCode) :
    WritesStatus s (raiseFault s f) { s.status with fault := some f } :=
  ⟨fun _ => rfl, rfl, rfl, rfl, fun _ => rfl, rfl, rfl⟩

theorem clearFault_writes (s : State) : WritesStatus s (clearFault s) { s.status with fault := none } :=
  ⟨fun _ => rfl, rfl, rfl, rfl, fun _ => rfl, rfl, rfl⟩

theorem writeText_writes (s : State) (t : Text) : WritesText s (writeText t s) t where
  regs := fun _ => rfl
  status := rfl
  written := fun i h => by
    simp only [writeText, State.readByte_setLen, State.readByte_memWrite]
    rw [dif_pos ⟨Nat.zero_le _, by simpa using h⟩]
    simp
  others := fun a h => by
    simp only [writeText, State.readByte_setLen, State.readByte_memWrite]
    rw [dif_neg (by omega)]
  cfg := rfl
  intin := rfl
  pending := rfl
  rdata := rfl

/-! ## The checks -/

theorem withOperand_wf (p : Prec) (r : RegId) (s : State) (k : VReg → StepResult)
    (h : (s.getV r).wf s.cfg p = true) : withOperand p r s k = k (s.getV r) := by simp [withOperand, h]

theorem withOperand_not_wf (p : Prec) (r : RegId) (s : State) (k : VReg → StepResult)
    (h : (s.getV r).wf s.cfg p = false) : withOperand p r s k = .next (raiseFault s .badOperand) := by
  simp [withOperand, h]

theorem withBuffer_ok (n : BitVec 8) (s : State) (k : StepResult) (h : n.toNat ≤ s.cfg.tbufSize) :
    withBuffer n s k = k := by simp [withBuffer, h]

theorem withBuffer_bad (n : BitVec 8) (s : State) (k : StepResult) (h : s.cfg.tbufSize < n.toNat) :
    withBuffer n s k = .next (raiseFault s .badBuffer) := by simp [withBuffer, Nat.not_le.2 h]

/-- A one-operand command either raises BAD_OPERAND or writes its result. -/
theorem unaryOp_cases (p : Prec) (rd ra : RegId) (f : VReg → Result) (s : State) :
    ((s.getV ra).wf s.cfg p = true ∧ unaryOp p rd ra f s = .next (writeResult rd (f (s.getV ra)) s)) ∨
    ((s.getV ra).wf s.cfg p = false ∧ unaryOp p rd ra f s = .next (raiseFault s .badOperand)) := by
  cases h : (s.getV ra).wf s.cfg p
  · exact Or.inr ⟨rfl, withOperand_not_wf _ _ _ _ h⟩
  · exact Or.inl ⟨rfl, withOperand_wf _ _ _ _ h⟩

/-- A two-operand command either raises BAD_OPERAND or writes its result. -/
theorem binaryOp_cases (p : Prec) (rd ra rb : RegId) (f : VReg → VReg → Result) (s : State) :
    ((s.getV ra).wf s.cfg p = true ∧ (s.getV rb).wf s.cfg p = true ∧
      binaryOp p rd ra rb f s = .next (writeResult rd (f (s.getV ra) (s.getV rb)) s)) ∨
    (((s.getV ra).wf s.cfg p = false ∨ (s.getV rb).wf s.cfg p = false) ∧
      binaryOp p rd ra rb f s = .next (raiseFault s .badOperand)) := by
  cases ha : (s.getV ra).wf s.cfg p
  · exact Or.inr ⟨Or.inl rfl, withOperand_not_wf _ _ _ _ ha⟩
  · cases hb : (s.getV rb).wf s.cfg p
    · exact Or.inr ⟨Or.inr rfl, by rw [binaryOp, withOperand_wf _ _ _ _ ha, withOperand_not_wf _ _ _ _ hb]⟩
    · exact Or.inl ⟨rfl, rfl, by rw [binaryOp, withOperand_wf _ _ _ _ ha, withOperand_wf _ _ _ _ hb]⟩

/-- A test either raises BAD_OPERAND or writes STATUS.T. -/
theorem testOp_cases (p : Prec) (ra : RegId) (f : VReg → Bool) (s : State) :
    ((s.getV ra).wf s.cfg p = true ∧ testOp p ra f s = .next (s.setT (f (s.getV ra)))) ∨
    ((s.getV ra).wf s.cfg p = false ∧ testOp p ra f s = .next (raiseFault s .badOperand)) := by
  cases h : (s.getV ra).wf s.cfg p
  · exact Or.inr ⟨rfl, withOperand_not_wf _ _ _ _ h⟩
  · exact Or.inl ⟨rfl, withOperand_wf _ _ _ _ h⟩

/-- CMP either raises BAD_OPERAND or writes STATUS.CMP. -/
theorem execCmp_cases (p : Prec) (ra rb : RegId) (s : State) :
    ((s.getV ra).wf s.cfg p = true ∧ (s.getV rb).wf s.cfg p = true ∧
      execCmp p ra rb s = .next (s.setCmp (cmpV (groupCount s.cfg p) (s.getV ra) (s.getV rb)))) ∨
    (((s.getV ra).wf s.cfg p = false ∨ (s.getV rb).wf s.cfg p = false) ∧
      execCmp p ra rb s = .next (raiseFault s .badOperand)) := by
  cases ha : (s.getV ra).wf s.cfg p
  · exact Or.inr ⟨Or.inl rfl, withOperand_not_wf _ _ _ _ ha⟩
  · cases hb : (s.getV rb).wf s.cfg p
    · exact Or.inr ⟨Or.inr rfl, by rw [execCmp, withOperand_wf _ _ _ _ ha, withOperand_not_wf _ _ _ _ hb]⟩
    · exact Or.inl ⟨rfl, rfl, by rw [execCmp, withOperand_wf _ _ _ _ ha, withOperand_wf _ _ _ _ hb]⟩

/-- FMT raises BAD_OPERAND, or else BAD_BUFFER, or else writes its text. -/
theorem execFmt_cases (p : Prec) (ra : RegId) (mode : Mode) (dig : BitVec 4) (grp : Bool) (loc : Loc) (cap : BitVec 8)
    (s : State) :
    ((s.getV ra).wf s.cfg p = true ∧ cap.toNat ≤ s.cfg.tbufSize ∧
      execFmt p ra mode dig grp loc cap s = .next (writeText
        (truncateText s.cfg.sentinel (formatValue s.cfg p (s.getV ra) mode dig grp loc) cap.toNat) s)) ∨
    ((s.getV ra).wf s.cfg p = true ∧ s.cfg.tbufSize < cap.toNat ∧
      execFmt p ra mode dig grp loc cap s = .next (raiseFault s .badBuffer)) ∨
    ((s.getV ra).wf s.cfg p = false ∧
      execFmt p ra mode dig grp loc cap s = .next (raiseFault s .badOperand)) := by
  cases ha : (s.getV ra).wf s.cfg p
  · exact Or.inr (Or.inr ⟨rfl, withOperand_not_wf _ _ _ _ ha⟩)
  · by_cases hb : cap.toNat ≤ s.cfg.tbufSize
    · exact Or.inl ⟨rfl, hb, by rw [execFmt, withOperand_wf _ _ _ _ ha, withBuffer_ok _ _ _ hb]⟩
    · exact Or.inr (Or.inl ⟨rfl, by omega, by
        rw [execFmt, withOperand_wf _ _ _ _ ha, withBuffer_bad _ _ _ (by omega)]⟩)

/-- PARSE either raises BAD_BUFFER or writes what parsing gives. -/
theorem execParse_cases (p : Prec) (rd : RegId) (loc : Loc) (len : BitVec 8) (s : State) :
    (len.toNat ≤ s.cfg.tbufSize ∧ execParse p rd loc len s =
      .next (writeParsed rd (parseText s.cfg p loc (s.memRead 0 len.toNat)) s)) ∨
    (s.cfg.tbufSize < len.toNat ∧ execParse p rd loc len s = .next (raiseFault s .badBuffer)) := by
  by_cases hb : len.toNat ≤ s.cfg.tbufSize
  · exact Or.inl ⟨hb, withBuffer_ok _ _ _ hb⟩
  · exact Or.inr ⟨by omega, withBuffer_bad _ _ _ (by omega)⟩

/-- Everything a command can do to the state (R12, R38): nothing, a fault, a result or a copied image in V[rd], one of
the STATUS fields CMP, T or OUTCOME, or a text. -/
inductive Effect (i : Instr) (s : State) : State → Prop
  | none : i = .nop → Effect i s s
  | fault (f : FaultCode) : Effect i s (raiseFault s f)
  | result (p : Prec) (rd : RegId) (r : Result) :
      i.resultPrec = some p → i.rd? = some rd → Effect i s (writeResult rd r s)
  | copy (rd ra : RegId) : i = .mov rd ra → Effect i s (s.setV rd (s.getV ra))
  | cmp (p : Prec) (ra rb : RegId) (r : CmpResult) : i = .cmp p ra rb → Effect i s (s.setCmp r)
  | test (b : Bool) : (∃ p ra, i = .iszero p ra ∨ i = .isinf p ra ∨ i = .isnan p ra ∨ i = .isint p ra) →
      Effect i s (s.setT b)
  | syntaxError (p : Prec) (rd : RegId) (loc : Loc) (len : BitVec 8) : i = .parse p rd loc len →
      Effect i s (s.setOutcome .syntaxError)
  | text (p : Prec) (ra : RegId) (mode : Mode) (dig : BitVec 4) (grp : Bool) (loc : Loc) (cap : BitVec 8) (t : Text) :
      i = .fmt p ra mode dig grp loc cap → t.length ≤ cap.toNat → cap.toNat ≤ s.cfg.tbufSize →
      Effect i s (writeText t s)

theorem length_truncateText (sentinel : Byte) (t : Text) (cap : Nat) :
    (truncateText sentinel t cap).length = min t.length cap := by
  unfold truncateText
  split
  · omega
  · split
    · simp; omega
    · simp; omega

theorem unaryOp_effect (i : Instr) (p q : Prec) (rd ra : RegId) (f : VReg → Result) (s : State)
    (hp : i.resultPrec = some q) (hr : i.rd? = some rd) : ∃ t, unaryOp p rd ra f s = .next t ∧ Effect i s t := by
  rcases unaryOp_cases p rd ra f s with ⟨_, h⟩ | ⟨_, h⟩
  · exact ⟨_, h, .result q rd _ hp hr⟩
  · exact ⟨_, h, .fault _⟩

theorem binaryOp_effect (i : Instr) (p q : Prec) (rd ra rb : RegId) (f : VReg → VReg → Result) (s : State)
    (hp : i.resultPrec = some q) (hr : i.rd? = some rd) :
    ∃ t, binaryOp p rd ra rb f s = .next t ∧ Effect i s t := by
  rcases binaryOp_cases p rd ra rb f s with ⟨_, _, h⟩ | ⟨_, h⟩
  · exact ⟨_, h, .result q rd _ hp hr⟩
  · exact ⟨_, h, .fault _⟩

theorem testOp_effect (i : Instr) (p : Prec) (ra : RegId) (f : VReg → Bool) (s : State)
    (hi : ∃ p ra, i = .iszero p ra ∨ i = .isinf p ra ∨ i = .isnan p ra ∨ i = .isint p ra) :
    ∃ t, testOp p ra f s = .next t ∧ Effect i s t := by
  rcases testOp_cases p ra f s with ⟨_, h⟩ | ⟨_, h⟩
  · exact ⟨_, h, .test _ hi⟩
  · exact ⟨_, h, .fault _⟩

/-- Every command answers a next state, by one of the effects. -/
theorem exec_effect (i : Instr) (s : State) : ∃ t, exec i s = .next t ∧ Effect i s t := by
  cases i with
  | nop => exact ⟨s, rfl, .none rfl⟩
  | add p rd ra rb => exact binaryOp_effect _ p p rd ra rb _ s rfl rfl
  | sub p rd ra rb => exact binaryOp_effect _ p p rd ra rb _ s rfl rfl
  | mul p rd ra rb => exact binaryOp_effect _ p p rd ra rb _ s rfl rfl
  | div p rd ra rb => exact binaryOp_effect _ p p rd ra rb _ s rfl rfl
  | sqrt p rd ra => exact unaryOp_effect _ p p rd ra _ s rfl rfl
  | cmp p ra rb =>
    rcases execCmp_cases p ra rb s with ⟨_, _, h⟩ | ⟨_, h⟩
    · exact ⟨_, h, .cmp p ra rb _ rfl⟩
    · exact ⟨_, h, .fault _⟩
  | floor p rd ra => exact unaryOp_effect _ p p rd ra _ s rfl rfl
  | trunc p rd ra => exact unaryOp_effect _ p p rd ra _ s rfl rfl
  | neg p rd ra => exact unaryOp_effect _ p p rd ra _ s rfl rfl
  | iszero p ra => exact testOp_effect _ p ra _ s ⟨p, ra, .inl rfl⟩
  | isinf p ra => exact testOp_effect _ p ra _ s ⟨p, ra, .inr (.inl rfl)⟩
  | isnan p ra => exact testOp_effect _ p ra _ s ⟨p, ra, .inr (.inr (.inl rfl))⟩
  | isint p ra =>
    exact testOp_effect _ p ra (fun x => x.isFinite && x.isInteger (groupCount s.cfg p)) s ⟨p, ra, .inr (.inr (.inr rfl))⟩
  | mov rd ra => exact ⟨_, rfl, .copy rd ra rfl⟩
  | ldi p rd imm => exact ⟨_, rfl, .result p rd _ rfl rfl⟩
  | cvti p rd => exact ⟨_, rfl, .result p rd _ rfl rfl⟩
  | cvtsx rd ra => exact unaryOp_effect _ .S .X rd ra _ s rfl rfl
  | cvtxs rd ra => exact unaryOp_effect _ .X .S rd ra _ s rfl rfl
  | fmt p ra mode dig grp loc cap =>
    rcases execFmt_cases p ra mode dig grp loc cap s with ⟨_, hb, h⟩ | ⟨_, _, h⟩ | ⟨_, h⟩
    · refine ⟨_, h, .text p ra mode dig grp loc cap _ rfl ?_ hb⟩
      rw [length_truncateText]
      exact Nat.min_le_right _ _
    · exact ⟨_, h, .fault _⟩
    · exact ⟨_, h, .fault _⟩
  | parse p rd loc len =>
    rcases execParse_cases p rd loc len s with ⟨_, h⟩ | ⟨_, h⟩
    · refine ⟨_, h, ?_⟩
      cases parseText s.cfg p loc (s.memRead 0 len.toNat) with
      | none => exact .syntaxError p rd loc len rfl
      | some r => exact .result p rd r rfl rfl
    · exact ⟨_, h, .fault _⟩

end Sys2Proof.Machine
end

