-- ==== Sys2Proof/Laws/PerInstr.lean ====
section
/-! SUPPORT. The fields of a command word read back, and, per instruction, the row of the opcode map its word selects. -/

namespace Sys2Proof

/-! ## Fields of a built word (R56, R59, R60) -/

theorem opField_commandWord (op : BitVec 6) (p : BitVec 1) (rd ra rb : BitVec 3) (aux : BitVec 16) :
    opField (commandWord op p rd ra rb aux) = op := by
  unfold opField commandWord
  ext i hi
  simp only [BitVec.getElem_extractLsb', BitVec.getLsbD_append]
  interval_cases i <;> simp

theorem extract_prec_commandWord (op : BitVec 6) (p : BitVec 1) (rd ra rb : BitVec 3) (aux : BitVec 16) :
    (commandWord op p rd ra rb aux).extractLsb' 25 1 = p := by
  unfold commandWord
  ext i hi
  simp only [BitVec.getElem_extractLsb', BitVec.getLsbD_append]
  interval_cases i
  simp

theorem precField_commandWord (op : BitVec 6) (p : Prec) (rd ra rb : BitVec 3) (aux : BitVec 16) :
    precField (commandWord op p.bit rd ra rb aux) = p := by
  unfold precField
  rw [extract_prec_commandWord]
  cases p <;> rfl

theorem rdField_commandWord (op : BitVec 6) (p : BitVec 1) (rd : RegId) (ra rb : BitVec 3) (aux : BitVec 16) :
    rdField (commandWord op p (regBits rd) ra rb aux) = rd := by
  have : (commandWord op p (regBits rd) ra rb aux).extractLsb' 22 3 = regBits rd := by
    unfold commandWord
    ext i hi
    simp only [BitVec.getElem_extractLsb', BitVec.getLsbD_append]
    interval_cases i <;> simp
  rw [rdField, this]; rfl

theorem raField_commandWord (op : BitVec 6) (p : BitVec 1) (rd : BitVec 3) (ra : RegId) (rb : BitVec 3)
    (aux : BitVec 16) : raField (commandWord op p rd (regBits ra) rb aux) = ra := by
  have : (commandWord op p rd (regBits ra) rb aux).extractLsb' 19 3 = regBits ra := by
    unfold commandWord
    ext i hi
    simp only [BitVec.getElem_extractLsb', BitVec.getLsbD_append]
    interval_cases i <;> simp
  rw [raField, this]; rfl

theorem rbField_commandWord (op : BitVec 6) (p : BitVec 1) (rd ra : BitVec 3) (rb : RegId) (aux : BitVec 16) :
    rbField (commandWord op p rd ra (regBits rb) aux) = rb := by
  have : (commandWord op p rd ra (regBits rb) aux).extractLsb' 16 3 = regBits rb := by
    unfold commandWord
    ext i hi
    simp only [BitVec.getElem_extractLsb', BitVec.getLsbD_append]
    interval_cases i <;> simp
  rw [rbField, this]; rfl

theorem auxField_commandWord (op : BitVec 6) (p : BitVec 1) (rd ra rb : BitVec 3) (aux : BitVec 16) :
    auxField (commandWord op p rd ra rb aux) = aux := by
  unfold auxField commandWord
  ext i hi
  simp only [BitVec.getElem_extractLsb', BitVec.getLsbD_append]
  simp [hi]

theorem modeField_fmtAux (mode : Mode) (dig : BitVec 4) (grp : Bool) (loc : Loc) (cap : BitVec 8) :
    modeField (fmtAux mode dig grp loc cap) = mode := by
  have : (fmtAux mode dig grp loc cap).extractLsb' 14 2 = mode.bits := by
    unfold fmtAux
    ext i hi
    simp only [BitVec.getElem_extractLsb', BitVec.getLsbD_append]
    interval_cases i <;> simp
  rw [modeField, this]; cases mode <;> rfl

theorem digField_fmtAux (mode : Mode) (dig : BitVec 4) (grp : Bool) (loc : Loc) (cap : BitVec 8) :
    digField (fmtAux mode dig grp loc cap) = dig := by
  unfold digField fmtAux
  ext i hi
  simp only [BitVec.getElem_extractLsb', BitVec.getLsbD_append]
  interval_cases i <;> simp

theorem grpField_fmtAux (mode : Mode) (dig : BitVec 4) (grp : Bool) (loc : Loc) (cap : BitVec 8) :
    grpField (fmtAux mode dig grp loc cap) = grp := by
  have : (fmtAux mode dig grp loc cap).extractLsb' 9 1 = BitVec.ofBool grp := by
    unfold fmtAux
    ext i hi
    simp only [BitVec.getElem_extractLsb', BitVec.getLsbD_append]
    interval_cases i
    simp
  rw [grpField, this]; cases grp <;> rfl

theorem locField_fmtAux (mode : Mode) (dig : BitVec 4) (grp : Bool) (loc : Loc) (cap : BitVec 8) :
    locField (fmtAux mode dig grp loc cap) = loc := by
  have : (fmtAux mode dig grp loc cap).extractLsb' 8 1 = loc.bit := by
    unfold fmtAux
    ext i hi
    simp only [BitVec.getElem_extractLsb', BitVec.getLsbD_append]
    interval_cases i
    simp
  rw [locField, this]; cases loc <;> rfl

theorem lowByteField_fmtAux (mode : Mode) (dig : BitVec 4) (grp : Bool) (loc : Loc) (cap : BitVec 8) :
    lowByteField (fmtAux mode dig grp loc cap) = cap := by
  unfold lowByteField fmtAux
  ext i hi
  simp only [BitVec.getElem_extractLsb', BitVec.getLsbD_append]
  simp [hi]

theorem locField_parseAux (loc : Loc) (len : BitVec 8) : locField (parseAux loc len) = loc := by
  have : (parseAux loc len).extractLsb' 8 1 = loc.bit := by
    unfold parseAux
    ext i hi
    simp only [BitVec.getElem_extractLsb', BitVec.getLsbD_append]
    interval_cases i
    simp
  rw [locField, this]; cases loc <;> rfl

theorem lowByteField_parseAux (loc : Loc) (len : BitVec 8) : lowByteField (parseAux loc len) = len := by
  unfold lowByteField parseAux
  ext i hi
  simp only [BitVec.getElem_extractLsb', BitVec.getLsbD_append]
  simp [hi]

/-! ## Masks -/

theorem and_commandWord (op op' : BitVec 6) (p p' : BitVec 1) (rd ra rb rd' ra' rb' : BitVec 3)
    (aux aux' : BitVec 16) :
    commandWord op p rd ra rb aux &&& commandWord op' p' rd' ra' rb' aux' =
      commandWord (op &&& op') (p &&& p') (rd &&& rd') (ra &&& ra') (rb &&& rb') (aux &&& aux') := by
  refine BitVec.eq_of_getLsbD_eq fun i hi => ?_
  simp only [commandWord, BitVec.getLsbD_and, BitVec.getLsbD_append]
  split <;> (try split) <;> (try split) <;> (try split) <;> (try split) <;> rfl

theorem parseAux_and (loc : Loc) (len : BitVec 8) : parseAux loc len &&& 0xFE00#16 = 0#16 := by
  unfold parseAux
  ext i hi
  simp only [BitVec.getElem_and, BitVec.getElem_append]
  interval_cases i <;> simp

theorem and_op (op : BitVec 6) : op &&& 0x3F#6 = op := by ext j hj; interval_cases j <;> simp

namespace Laws.Selects

/-- The word of the command matches a row of the opcode map, and that row reads the command back from it (R61). -/
def Statement (i : Instr) : Prop := ∃ r ∈ opcodeRows, encode i &&& r.mask = r.value ∧ r.build (encode i) = i

theorem nop : Statement .nop := by
  refine ⟨opcodeRows[0], List.getElem_mem _, ?_, ?_⟩
  · change commandWord _ _ _ _ _ _ &&& _ = commandWord 0#6 0#1 0#3 0#3 0#3 0#16
    rw [show opcodeRows[0].mask = commandWord 0x3F#6 1#1 7#3 7#3 7#3 0xffff#16 by decide, and_commandWord, and_op]
    simp
  · rfl

theorem add (p : Prec) (rd ra rb : RegId) : Statement (.add p rd ra rb) := by
  refine ⟨opcodeRows[1], List.getElem_mem _, ?_, ?_⟩
  · change commandWord _ _ _ _ _ _ &&& _ = commandWord 1#6 0#1 0#3 0#3 0#3 0#16
    rw [show opcodeRows[1].mask = commandWord 0x3F#6 0#1 0#3 0#3 0#3 0xffff#16 by decide, and_commandWord, and_op]
    simp
  · simp [opcodeRows, opcodeRowsLow, opcodeRowsHigh, encode, precField_commandWord, rdField_commandWord, raField_commandWord, rbField_commandWord]

theorem sub (p : Prec) (rd ra rb : RegId) : Statement (.sub p rd ra rb) := by
  refine ⟨opcodeRows[2], List.getElem_mem _, ?_, ?_⟩
  · change commandWord _ _ _ _ _ _ &&& _ = commandWord 2#6 0#1 0#3 0#3 0#3 0#16
    rw [show opcodeRows[2].mask = commandWord 0x3F#6 0#1 0#3 0#3 0#3 0xffff#16 by decide, and_commandWord, and_op]
    simp
  · simp [opcodeRows, opcodeRowsLow, opcodeRowsHigh, encode, precField_commandWord, rdField_commandWord, raField_commandWord, rbField_commandWord]

theorem mul (p : Prec) (rd ra rb : RegId) : Statement (.mul p rd ra rb) := by
  refine ⟨opcodeRows[3], List.getElem_mem _, ?_, ?_⟩
  · change commandWord _ _ _ _ _ _ &&& _ = commandWord 3#6 0#1 0#3 0#3 0#3 0#16
    rw [show opcodeRows[3].mask = commandWord 0x3F#6 0#1 0#3 0#3 0#3 0xffff#16 by decide, and_commandWord, and_op]
    simp
  · simp [opcodeRows, opcodeRowsLow, opcodeRowsHigh, encode, precField_commandWord, rdField_commandWord, raField_commandWord, rbField_commandWord]

theorem div (p : Prec) (rd ra rb : RegId) : Statement (.div p rd ra rb) := by
  refine ⟨opcodeRows[4], List.getElem_mem _, ?_, ?_⟩
  · change commandWord _ _ _ _ _ _ &&& _ = commandWord 4#6 0#1 0#3 0#3 0#3 0#16
    rw [show opcodeRows[4].mask = commandWord 0x3F#6 0#1 0#3 0#3 0#3 0xffff#16 by decide, and_commandWord, and_op]
    simp
  · simp [opcodeRows, opcodeRowsLow, opcodeRowsHigh, encode, precField_commandWord, rdField_commandWord, raField_commandWord, rbField_commandWord]

theorem sqrt (p : Prec) (rd ra : RegId) : Statement (.sqrt p rd ra) := by
  refine ⟨opcodeRows[5], List.getElem_mem _, ?_, ?_⟩
  · change commandWord _ _ _ _ _ _ &&& _ = commandWord 5#6 0#1 0#3 0#3 0#3 0#16
    rw [show opcodeRows[5].mask = commandWord 0x3F#6 0#1 0#3 0#3 7#3 0xffff#16 by decide, and_commandWord, and_op]
    simp
  · simp [opcodeRows, opcodeRowsLow, opcodeRowsHigh, encode, precField_commandWord, rdField_commandWord, raField_commandWord]

theorem cmp (p : Prec) (ra rb : RegId) : Statement (.cmp p ra rb) := by
  refine ⟨opcodeRows[6], List.getElem_mem _, ?_, ?_⟩
  · change commandWord _ _ _ _ _ _ &&& _ = commandWord 6#6 0#1 0#3 0#3 0#3 0#16
    rw [show opcodeRows[6].mask = commandWord 0x3F#6 0#1 7#3 0#3 0#3 0xffff#16 by decide, and_commandWord, and_op]
    simp
  · simp [opcodeRows, opcodeRowsLow, opcodeRowsHigh, encode, precField_commandWord, raField_commandWord, rbField_commandWord]

theorem floor (p : Prec) (rd ra : RegId) : Statement (.floor p rd ra) := by
  refine ⟨opcodeRows[7], List.getElem_mem _, ?_, ?_⟩
  · change commandWord _ _ _ _ _ _ &&& _ = commandWord 7#6 0#1 0#3 0#3 0#3 0#16
    rw [show opcodeRows[7].mask = commandWord 0x3F#6 0#1 0#3 0#3 7#3 0xffff#16 by decide, and_commandWord, and_op]
    simp
  · simp [opcodeRows, opcodeRowsLow, opcodeRowsHigh, encode, precField_commandWord, rdField_commandWord, raField_commandWord]

theorem trunc (p : Prec) (rd ra : RegId) : Statement (.trunc p rd ra) := by
  refine ⟨opcodeRows[8], List.getElem_mem _, ?_, ?_⟩
  · change commandWord _ _ _ _ _ _ &&& _ = commandWord 8#6 0#1 0#3 0#3 0#3 0#16
    rw [show opcodeRows[8].mask = commandWord 0x3F#6 0#1 0#3 0#3 7#3 0xffff#16 by decide, and_commandWord, and_op]
    simp
  · simp [opcodeRows, opcodeRowsLow, opcodeRowsHigh, encode, precField_commandWord, rdField_commandWord, raField_commandWord]

theorem neg (p : Prec) (rd ra : RegId) : Statement (.neg p rd ra) := by
  refine ⟨opcodeRows[9], List.getElem_mem _, ?_, ?_⟩
  · change commandWord _ _ _ _ _ _ &&& _ = commandWord 9#6 0#1 0#3 0#3 0#3 0#16
    rw [show opcodeRows[9].mask = commandWord 0x3F#6 0#1 0#3 0#3 7#3 0xffff#16 by decide, and_commandWord, and_op]
    simp
  · simp [opcodeRows, opcodeRowsLow, opcodeRowsHigh, encode, precField_commandWord, rdField_commandWord, raField_commandWord]

theorem iszero (p : Prec) (ra : RegId) : Statement (.iszero p ra) := by
  refine ⟨opcodeRows[10], List.getElem_mem _, ?_, ?_⟩
  · change commandWord _ _ _ _ _ _ &&& _ = commandWord 10#6 0#1 0#3 0#3 0#3 0#16
    rw [show opcodeRows[10].mask = commandWord 0x3F#6 0#1 7#3 0#3 7#3 0xffff#16 by decide, and_commandWord, and_op]
    simp
  · simp [opcodeRows, opcodeRowsLow, opcodeRowsHigh, encode, precField_commandWord, raField_commandWord]

theorem isinf (p : Prec) (ra : RegId) : Statement (.isinf p ra) := by
  refine ⟨opcodeRows[11], List.getElem_mem _, ?_, ?_⟩
  · change commandWord _ _ _ _ _ _ &&& _ = commandWord 11#6 0#1 0#3 0#3 0#3 0#16
    rw [show opcodeRows[11].mask = commandWord 0x3F#6 0#1 7#3 0#3 7#3 0xffff#16 by decide, and_commandWord, and_op]
    simp
  · simp [opcodeRows, opcodeRowsLow, opcodeRowsHigh, encode, precField_commandWord, raField_commandWord]

theorem isnan (p : Prec) (ra : RegId) : Statement (.isnan p ra) := by
  refine ⟨opcodeRows[12], List.getElem_mem _, ?_, ?_⟩
  · change commandWord _ _ _ _ _ _ &&& _ = commandWord 12#6 0#1 0#3 0#3 0#3 0#16
    rw [show opcodeRows[12].mask = commandWord 0x3F#6 0#1 7#3 0#3 7#3 0xffff#16 by decide, and_commandWord, and_op]
    simp
  · simp [opcodeRows, opcodeRowsLow, opcodeRowsHigh, encode, precField_commandWord, raField_commandWord]

theorem isint (p : Prec) (ra : RegId) : Statement (.isint p ra) := by
  refine ⟨opcodeRows[13], List.getElem_mem _, ?_, ?_⟩
  · change commandWord _ _ _ _ _ _ &&& _ = commandWord 13#6 0#1 0#3 0#3 0#3 0#16
    rw [show opcodeRows[13].mask = commandWord 0x3F#6 0#1 7#3 0#3 7#3 0xffff#16 by decide, and_commandWord, and_op]
    simp
  · simp [opcodeRows, opcodeRowsLow, opcodeRowsHigh, encode, precField_commandWord, raField_commandWord]

theorem mov (rd ra : RegId) : Statement (.mov rd ra) := by
  refine ⟨opcodeRows[14], List.getElem_mem _, ?_, ?_⟩
  · change commandWord _ _ _ _ _ _ &&& _ = commandWord 14#6 0#1 0#3 0#3 0#3 0#16
    rw [show opcodeRows[14].mask = commandWord 0x3F#6 1#1 0#3 0#3 7#3 0xffff#16 by decide, and_commandWord, and_op]
    simp
  · simp [opcodeRows, opcodeRowsLow, opcodeRowsHigh, encode, rdField_commandWord, raField_commandWord]

theorem ldi (p : Prec) (rd : RegId) (imm : BitVec 16) : Statement (.ldi p rd imm) := by
  refine ⟨opcodeRows[15], List.getElem_mem _, ?_, ?_⟩
  · change commandWord _ _ _ _ _ _ &&& _ = commandWord 15#6 0#1 0#3 0#3 0#3 0#16
    rw [show opcodeRows[15].mask = commandWord 0x3F#6 0#1 0#3 7#3 7#3 0x0#16 by decide, and_commandWord, and_op]
    simp
  · simp [opcodeRows, opcodeRowsLow, opcodeRowsHigh, encode, precField_commandWord, rdField_commandWord, auxField_commandWord]

theorem cvti (p : Prec) (rd : RegId) : Statement (.cvti p rd) := by
  refine ⟨opcodeRows[16], List.getElem_mem _, ?_, ?_⟩
  · change commandWord _ _ _ _ _ _ &&& _ = commandWord 16#6 0#1 0#3 0#3 0#3 0#16
    rw [show opcodeRows[16].mask = commandWord 0x3F#6 0#1 0#3 7#3 7#3 0xffff#16 by decide, and_commandWord, and_op]
    simp
  · simp [opcodeRows, opcodeRowsLow, opcodeRowsHigh, encode, precField_commandWord, rdField_commandWord]

theorem cvtsx (rd ra : RegId) : Statement (.cvtsx rd ra) := by
  refine ⟨opcodeRows[17], List.getElem_mem _, ?_, ?_⟩
  · change commandWord _ _ _ _ _ _ &&& _ = commandWord 17#6 0#1 0#3 0#3 0#3 0#16
    rw [show opcodeRows[17].mask = commandWord 0x3F#6 1#1 0#3 0#3 7#3 0xffff#16 by decide, and_commandWord, and_op]
    simp
  · simp [opcodeRows, opcodeRowsLow, opcodeRowsHigh, encode, rdField_commandWord, raField_commandWord]

theorem cvtxs (rd ra : RegId) : Statement (.cvtxs rd ra) := by
  refine ⟨opcodeRows[18], List.getElem_mem _, ?_, ?_⟩
  · change commandWord _ _ _ _ _ _ &&& _ = commandWord 18#6 0#1 0#3 0#3 0#3 0#16
    rw [show opcodeRows[18].mask = commandWord 0x3F#6 1#1 0#3 0#3 7#3 0xffff#16 by decide, and_commandWord, and_op]
    simp
  · simp [opcodeRows, opcodeRowsLow, opcodeRowsHigh, encode, rdField_commandWord, raField_commandWord]

theorem fmt (p : Prec) (ra : RegId) (mode : Mode) (dig : BitVec 4) (grp : Bool) (loc : Loc) (cap : BitVec 8) : Statement (.fmt p ra mode dig grp loc cap) := by
  refine ⟨opcodeRows[19], List.getElem_mem _, ?_, ?_⟩
  · change commandWord _ _ _ _ _ _ &&& _ = commandWord 19#6 0#1 0#3 0#3 0#3 0#16
    rw [show opcodeRows[19].mask = commandWord 0x3F#6 0#1 7#3 0#3 7#3 0x0#16 by decide, and_commandWord, and_op]
    simp
  · simp [opcodeRows, opcodeRowsLow, opcodeRowsHigh, encode, precField_commandWord, raField_commandWord, auxField_commandWord, modeField_fmtAux, digField_fmtAux, grpField_fmtAux, locField_fmtAux, lowByteField_fmtAux]

theorem parse (p : Prec) (rd : RegId) (loc : Loc) (len : BitVec 8) : Statement (.parse p rd loc len) := by
  refine ⟨opcodeRows[20], List.getElem_mem _, ?_, ?_⟩
  · change commandWord _ _ _ _ _ _ &&& _ = commandWord 20#6 0#1 0#3 0#3 0#3 0#16
    rw [show opcodeRows[20].mask = commandWord 0x3F#6 0#1 0#3 7#3 7#3 0xfe00#16 by decide, and_commandWord, and_op]
    simp [parseAux_and]
  · simp [opcodeRows, opcodeRowsLow, opcodeRowsHigh, encode, precField_commandWord, rdField_commandWord, auxField_commandWord, locField_parseAux, lowByteField_parseAux]

end Laws.Selects

end Sys2Proof
end

