-- ==== Sys2Proof/Laws/Step.lean ====
section
/-! SUPPORT. What a step does for each kind of access, the map of the window word by word, and the register words read
back after a write. -/

namespace Sys2Proof.Machine

open Config (Params)

/-! ## A step by the access it performs -/

theorem step_idle (s : State) (h : s.pending = []) : step s = .next s := by
  unfold step engineStep
  rw [h]

theorem step_reset (s : State) (rest : List HostAccess) (h : s.pending = .resetInput :: rest) :
    step s = .next (powerOnReset { s with pending := rest }) := by
  unfold step engineStep
  rw [h]
  rfl

theorem accessOk_iff (width : Width) (off : Nat) :
    accessOk width off = true ↔ width = .word ∧ off % 4 = 0 ∧ off < 0x2000 := by
  simp [accessOk, and_assoc]

theorem readTarget_pending (s : State) (rest : List HostAccess) (t : Target) :
    readTarget { s with pending := rest } t = readTarget s t := by cases t <;> rfl

/-- An admitted read returns the word and changes nothing else (R49). -/
theorem step_read (s : State) (width : Width) (off : Nat) (rest : List HostAccess)
    (h : s.pending = .read width off :: rest) (ha : accessOk width off = true) :
    step s = .next { s with pending := rest, rdata := some (readTarget s (windowTarget s.cfg off)) } := by
  unfold step engineStep
  rw [h]
  simp only [performAccess, ha, if_true, readTarget_pending]

/-- An admitted write is the write of the word it names. -/
theorem step_write (s : State) (width : Width) (off : Nat) (w : Word) (rest : List HostAccess)
    (h : s.pending = .write width off w :: rest) (ha : accessOk width off = true) :
    step s = writeTarget { s with pending := rest } w (windowTarget s.cfg off) := by
  unfold step engineStep
  rw [h]
  simp only [performAccess, ha, if_true]

/-- Any other access gets no step (R48). -/
theorem step_refused (s : State) (a : HostAccess) (rest : List HostAccess) (h : s.pending = a :: rest)
    (ha : (∃ width off, a = .read width off ∧ accessOk width off = false) ∨
      (∃ width off w, a = .write width off w ∧ accessOk width off = false)) :
    step s = .fault .refusedAccess := by
  unfold step engineStep
  rw [h]
  rcases ha with ⟨width, off, rfl, ha⟩ | ⟨width, off, w, rfl, ha⟩ <;> simp [performAccess, ha]

/-! ## The map (R43..R46) -/

theorem windowTarget_group (c : Params) (hv : c.valid = true) (k : RegId) (j : Nat) (hk : k.val < c.nreg)
    (hj : j < c.nX) : windowTarget c (0x100 + 0x80 * k.val + 4 * j) = .group k j := by
  have V := paramFacts c hv
  have := V.nX
  unfold windowTarget registerTarget
  rw [if_neg (by omega), if_pos (by omega), dif_pos (by omega), if_neg (by omega), if_pos (by omega)]
  congr 1
  · apply Fin.ext
    simp only
    omega
  · omega

theorem windowTarget_trailer (c : Params) (hv : c.valid = true) (k : RegId) (hk : k.val < c.nreg) :
    windowTarget c (0x100 + 0x80 * k.val + 0x7C) = .trailer k := by
  have V := paramFacts c hv
  have := V.nX
  unfold windowTarget registerTarget
  rw [if_neg (by omega), if_pos (by omega), dif_pos (by omega), if_neg (by omega), if_neg (by omega),
    if_pos (by omega)]
  congr 1
  apply Fin.ext
  simp only
  omega

theorem windowTarget_text (c : Params) (a : Nat) (ha : a < c.tbufSize) : windowTarget c (0x1000 + a) = .text a := by
  unfold windowTarget
  rw [if_neg (by omega), if_neg (by omega), if_pos (by omega), show 0x1000 + a - 0x1000 = a by omega]

/-! ## Register words (R17) -/

theorem groupWord_setGroupWord (x : VReg) (j : Nat) (w : Word) (hj : j < x.g.length) :
    (x.setGroupWord j w).groupWord j = w &&& 0x0000FFFF#32 := by
  have h : (x.g.set j (w.setWidth 16)).getD j 0#16 = w.setWidth 16 := by simp [hj]
  unfold VReg.groupWord VReg.setGroupWord
  rw [h]
  refine BitVec.eq_of_getLsbD_eq fun i hi => ?_
  simp only [BitVec.getLsbD_setWidth, BitVec.getLsbD_and]
  interval_cases i <;> simp

theorem trailer_setTrailer (x : VReg) (w : Word) : (x.setTrailer w).trailer = w &&& 0x8001FFFF#32 := by
  unfold VReg.trailer VReg.setTrailer
  refine BitVec.eq_of_getLsbD_eq fun i hi => ?_
  simp only [BitVec.getLsbD_append, BitVec.getLsbD_and, BitVec.getLsbD_extractLsb']
  interval_cases i <;> simp [precBit]
  generalize w[31] = b
  cases b <;> rfl

end Sys2Proof.Machine
end

