-- ==== Sys2Proof/Tests/Slice0.lean ====
section
/-! SUPPORT. Tests, each about at most one step or one program line. Expected results are the vectors of
spec/95_test_vectors.md, named by their ids, or words written out from spec/30_encoding.md R56..R61. The last sections
show that the hypotheses of every statement are met. -/

namespace Sys2Proof.Tests

set_option Elab.async false

open Sys2Proof.Machine

/-! ## Well-formed terms: the check refuses each kind of ill-formed term -/

/-- Parameters with four registers. -/
def fourRegs : Config.Params := { Config.default with nreg := 4 }

theorem test_wellFormed_rd_refused : Instr.wellFormed fourRegs (.ldi .S 4 1#16) = false := by decide
theorem test_wellFormed_ra_refused : Instr.wellFormed fourRegs (.isnan .S 7) = false := by decide
theorem test_wellFormed_rb_refused : Instr.wellFormed fourRegs (.cmp .X 0 4) = false := by decide
theorem test_wellFormed_accepted : Instr.wellFormed fourRegs (.add .S 3 3 3) = true := by decide
theorem test_wellFormed_all_eight : Instr.wellFormed Config.default (.add .S 7 7 7) = true := by decide

theorem test_params_default : Config.default.valid = true := by decide
theorem test_params_nS_refused : Config.Params.valid { Config.default with nS := 0 } = false := by decide
theorem test_params_nX_refused : Config.Params.valid { Config.default with nX := 7 } = false := by decide
theorem test_params_nX_high_refused : Config.Params.valid { Config.default with nX := 32 } = false := by decide
theorem test_params_exp_refused : Config.Params.valid { Config.default with expMax := 8192 } = false ∧
    Config.Params.valid { Config.default with expMin := 1 } = false := by decide
theorem test_params_nreg_refused : Config.Params.valid { Config.default with nreg := 9 } = false := by decide
theorem test_params_tbuf_refused : Config.Params.valid { Config.default with tbufSize := 18 } = false ∧
    Config.Params.valid { Config.default with tbufSize := 260 } = false := by decide
theorem test_params_display_refused : Config.Params.valid { Config.default with maxSig := 17 } = false ∧
    Config.Params.valid { Config.default with maxParseDigits := 0 } = false := by decide

/-! ## Decoding: one word per constructor, written out as {OP, P, RD, RA, RB, AUX} (R56, R61) -/

theorem test_decode_nop : decode Config.default 0b000000_0_000_000_000_0000000000000000#32 = .ok .nop := by decide
theorem test_decode_add : decode Config.default 0b000001_0_001_010_011_0000000000000000#32 = .ok (.add .S 1 2 3) := by
  decide
theorem test_decode_sub : decode Config.default 0b000010_1_111_000_100_0000000000000000#32 = .ok (.sub .X 7 0 4) := by
  decide
theorem test_decode_mul : decode Config.default 0b000011_0_100_011_010_0000000000000000#32 = .ok (.mul .S 4 3 2) := by
  decide
theorem test_decode_div : decode Config.default 0b000100_1_001_110_101_0000000000000000#32 = .ok (.div .X 1 6 5) := by
  decide
theorem test_decode_sqrt : decode Config.default 0b000101_1_010_001_000_0000000000000000#32 = .ok (.sqrt .X 2 1) := by
  decide
theorem test_decode_cmp : decode Config.default 0b000110_0_000_100_001_0000000000000000#32 = .ok (.cmp .S 4 1) := by
  decide
theorem test_decode_floor : decode Config.default 0b000111_0_011_101_000_0000000000000000#32 = .ok (.floor .S 3 5) := by
  decide
theorem test_decode_trunc : decode Config.default 0b001000_1_110_001_000_0000000000000000#32 = .ok (.trunc .X 6 1) := by
  decide
theorem test_decode_neg : decode Config.default 0b001001_0_000_111_000_0000000000000000#32 = .ok (.neg .S 0 7) := by
  decide
theorem test_decode_iszero : decode Config.default 0b001010_1_000_010_000_0000000000000000#32 = .ok (.iszero .X 2) := by
  decide
theorem test_decode_isinf : decode Config.default 0b001011_0_000_100_000_0000000000000000#32 = .ok (.isinf .S 4) := by
  decide
theorem test_decode_isnan : decode Config.default 0b001100_1_000_110_000_0000000000000000#32 = .ok (.isnan .X 6) := by
  decide
theorem test_decode_isint : decode Config.default 0b001101_0_000_011_000_0000000000000000#32 = .ok (.isint .S 3) := by
  decide
theorem test_decode_mov : decode Config.default 0b001110_0_011_001_000_0000000000000000#32 = .ok (.mov 3 1) := by decide
theorem test_decode_ldi :
    decode Config.default 0b001111_1_001_000_000_1111111111111011#32 = .ok (.ldi .X 1 0xFFFB#16) := by decide
theorem test_decode_cvti : decode Config.default 0b010000_0_101_000_000_0000000000000000#32 = .ok (.cvti .S 5) := by
  decide
theorem test_decode_cvtsx : decode Config.default 0b010001_0_010_111_000_0000000000000000#32 = .ok (.cvtsx 2 7) := by
  decide
theorem test_decode_cvtxs : decode Config.default 0b010010_0_011_010_000_0000000000000000#32 = .ok (.cvtxs 3 2) := by
  decide
theorem test_decode_fmt : decode Config.default 0b010011_1_000_010_000_10_0101_1_0_00100001#32 =
    .ok (.fmt .X 2 .eng 5#4 true .point 33#8) := by decide
theorem test_decode_parse : decode Config.default 0b010100_0_010_000_000_0000000_1_00000111#32 =
    .ok (.parse .S 2 .comma 7#8) := by decide

/-- V-ENC-2, V-ENC-3. -/
theorem test_decode_reserved : decode Config.default 0x54000000#32 = .error .reservedOp ∧
    decode Config.default 0xFC000000#32 = .error .reservedOp := by decide
/-- V-ENC-4 to V-ENC-9. -/
theorem test_decode_nonzero_field :
    [0x14010000#32, 0x18400000#32, 0x3A000000#32, 0x04000001#32, 0x50000200#32, 0x3C08000A#32].all
      (fun w => decode Config.default w == .error .nonzeroField) = true := by decide
/-- R57: RD = 4 with four registers. -/
theorem test_decode_bad_register : decode fourRegs 0x3D000001#32 = .error .badRegister := by decide
/-- V-ENC-10. -/
theorem test_decode_fmt_all_ones : decode Config.default 0x4C00FFFF#32 = .ok (.fmt .S 0 .all 15#4 true .comma 255#8) := by
  decide
/-- P1 lines 7 and 8. -/
theorem test_encode_fmt : encode (.fmt .S 4 .fix 4#4 false .point 32#8) = 0x4C201020#32 ∧
    encode (.fmt .S 3 .all 0#4 false .point 32#8) = 0x4C18C020#32 := by decide
theorem test_decodeTableWord : decodeTableWord 32 0x3D80FFFF = some (.ldi .S 6 0xFFFF#16) := by decide

/-! ## Helpers -/

/-- An S image: leading groups, exponent, sign. -/
def imgS (gs : List Nat) (e : Int) (neg : Bool := false) : VReg :=
  { prec := .S, g := (gs.map (BitVec.ofNat 16)) ++ List.replicate (15 - gs.length) 0#16, exp := BitVec.ofInt 14 e,
    neg := neg, inf := false, nan := false }

/-- An X image. -/
def imgX (gs : List Nat) (e : Int) (neg : Bool := false) : VReg := { imgS gs e neg with prec := .X }

/-- S:+Inf or S:-Inf, and S:NaN. -/
def infS (neg : Bool) : VReg := { imgS [] 0 neg with inf := true }
def nanS : VReg := { imgS [] 0 with nan := true }

/-- THIRD, H, BIG and TINY of 95_test_vectors.md. -/
def third : VReg := imgS (List.replicate 7 3333) (-1)
def halfUnit : VReg := imgS [5000] (-7)
def big (neg : Bool := false) : VReg := imgS (List.replicate 7 9999) 8191 neg
def tiny (neg : Bool := false) : VReg := imgS [1] (-8192) neg

/-- The reset state with V1 and V2 loaded. -/
def load (x y : VReg) : State := (State.reset.setV 1 x).setV 2 y

/-- The command ends in a state with V3 = r and OUTCOME = o. -/
def gives (i : Instr) (s : State) (r : VReg) (o : RangeOutcome) : Bool :=
  match exec i s with
  | .next t => t.getV 3 == r && t.status == { s.status with outcome := o }
  | .fault _ => false
  | .refused _ => false

/-- The command ends in a state whose STATUS is as given. -/
def status (i : Instr) (s : State) (st : Status) : Bool :=
  match exec i s with
  | .next t => t.status == st
  | .fault _ => false
  | .refused _ => false

/-- The text in TBUF[0..LEN-1] after the command, as the written bytes. -/
def writes (i : Instr) (s : State) (text : String) : Bool :=
  match exec i s with
  | .next t => t.tbuf.map (·.2) == text.toList.map (fun c => BitVec.ofNat 8 c.toNat) &&
      t.status.len.toNat == text.length
  | .fault _ => false
  | .refused _ => false

/-- The reset state with a text in TBUF. -/
def withText (text : String) : State := State.reset.memWrite 0 (text.toList.map (fun c => BitVec.ofNat 8 c.toNat))

/-! ## Commands -/

/-- V-ADD-3: the guard group rounds up. -/
theorem test_add_guard : gives (.add .S 3 1 2) (load (imgS [1] 0) halfUnit) (imgS [1, 0, 0, 0, 0, 0, 1] 0) .ok = true := by
  decide +kernel
/-- V-ADD-8b. -/
theorem test_add_overflow : gives (.add .S 3 1 2) (load (big true) (big true)) (infS true) .negOverflow = true := by
  decide +kernel
/-- V-SUB-4: the group below the guard is dropped. -/
theorem test_sub_window :
    gives (.sub .S 3 1 2) (load (imgS [2] 0) (imgS [5000, 0, 0, 0, 0, 0, 1] (-7))) (imgS [2] 0) .ok = true := by
  decide +kernel
/-- V-SUB-5. -/
theorem test_sub_underflow :
    gives (.sub .S 3 1 2) (load (imgS [1, 0, 0, 0, 0, 0, 1] (-8192)) tiny) (imgS [] 0) .posUnderflow = true := by
  decide +kernel
/-- R71, from its words: a guard of exactly 5000 goes away from zero, behind an even group (so not to the even one). -/
theorem test_round_tie : roundScaled Config.default .S true (10000 ^ 7 + 5000) 1 0 =
    (imgS [1, 0, 0, 0, 0, 0, 1] 7 true, .ok) := by decide +kernel
/-- V-MUL-11. -/
theorem test_mul_guard :
    gives (.mul .S 3 1 2) (load (imgS [1, 0, 0, 0, 0, 0, 5000] 0) (imgS [1, 0, 0, 0, 0, 0, 1] 0))
      (imgS [1, 0, 0, 0, 0, 0, 5001] 0) .ok = true := by decide +kernel
/-- V-MUL-7b. -/
theorem test_mul_underflow : gives (.mul .S 3 1 2) (load (tiny true) tiny) (imgS [] 0) .negUnderflow = true := by
  decide +kernel
/-- V-DIV-2. -/
theorem test_div_round : gives (.div .S 3 1 2) (load (imgS [2] 0) (imgS [3] 0))
    (imgS [6666, 6666, 6666, 6666, 6666, 6666, 6667] (-1)) .ok = true := by decide +kernel
/-- V-DIV-3. -/
theorem test_div_by_zero : gives (.div .S 3 1 2) (load (imgS [1] 0 true) (imgS [] 0)) (infS true) .ok = true := by
  decide +kernel
/-- V-SQRT-14. -/
theorem test_sqrt_ten : gives (.sqrt .S 3 1) (load (imgS [10] 0) nanS)
    (imgS [3, 1622, 7766, 168, 3793, 3199, 8894] 0) .ok = true := by decide +kernel
/-- V-SQRT-8. -/
theorem test_sqrt_negative : gives (.sqrt .S 3 1) (load (imgS [1] 0 true) nanS) nanS .ok = true := by decide +kernel
/-- V-CMP-2. -/
theorem test_cmp_negatives : status (.cmp .S 1 2) (load (imgS [2] 0 true) (imgS [3] 0 true))
    { Status.reset with cmp := .gt } = true := by decide +kernel
/-- V-CMP-5: a host-written zero with NEG = 1 and EXP = 5. -/
theorem test_cmp_zeros : status (.cmp .S 1 2) { load (imgS [] 5 true) (imgS [] 0) with
    status := { Status.reset with cmp := .un } } Status.reset = true := by decide +kernel
/-- V-TST-1, V-TST-8. -/
theorem test_iszero : status (.iszero .S 1) (load (imgS [] 0) nanS) { Status.reset with t := true } = true ∧
    status (.iszero .S 2) (load (imgS [] 0) nanS) Status.reset = true := by decide +kernel
/-- V-TST-2, V-TST-9. -/
theorem test_isinf : status (.isinf .S 1) (load (infS true) nanS) { Status.reset with t := true } = true ∧
    status (.isinf .S 2) (load nanS { nanS with inf := true }) Status.reset = true := by decide +kernel
/-- V-TST-3, V-TST-8. -/
theorem test_isnan : status (.isnan .S 2) (load (infS false) nanS) { Status.reset with t := true } = true ∧
    status (.isnan .S 1) (load (infS false) nanS) Status.reset = true := by decide +kernel
/-- V-TST-4, V-TST-5. -/
theorem test_isint : status (.isint .S 1) (load (imgS [2, 5000] 0) nanS) Status.reset = true ∧
    status (.isint .S 1) (load (imgS [1] 7) nanS) { Status.reset with t := true } = true := by decide +kernel
/-- V-INT-1, V-INT-10. -/
theorem test_floor : gives (.floor .S 3 1) (load (imgS [2, 5000] 0 true) nanS) (imgS [3] 0 true) .ok = true ∧
    gives (.floor .S 3 1) (load (imgS [1] (-25) true) nanS) (imgS [1] 0 true) .ok = true := by decide +kernel
/-- R88 with R69, R70, R72 by hand: with EXP_MAX = 0 the floor of -9999.5 is out of range. -/
theorem test_floor_overflow : gives (.floor .S 3 1) { load (imgS [9999, 5000] 0 true) nanS with
    cfg := { Config.default with expMax := 0 } } (infS true) .negOverflow = true := by decide +kernel
/-- V-INT-3, V-INT-5. -/
theorem test_trunc : gives (.trunc .S 3 1) (load (imgS [2, 5000] 0 true) nanS) (imgS [2] 0 true) .ok = true ∧
    gives (.trunc .S 3 1) (load (imgS [5000] (-1) true) nanS) (imgS [] 0) .ok = true := by decide +kernel
/-- V-NEG-1, V-NEG-3. -/
theorem test_neg : gives (.neg .S 3 1) (load (infS false) nanS) (infS true) .ok = true ∧
    gives (.neg .S 3 1) (load (imgS [] 0) nanS) (imgS [] 0) .ok = true := by decide +kernel
/-- V-MV-1b: a NOP word with bit 0 set is illegal. -/
theorem test_nop_word : (match issue 0x00000001#32 State.reset with
    | .next t => t.status.word == 0x00000100#32
    | _ => false) = true := by decide +kernel
/-- V-MV-2b: a raw copy of a zero with NEG = 1. -/
theorem test_mov_raw : gives (.mov 3 1) (load (imgS [] 0 true) nanS) (imgS [] 0 true) .ok = true := by decide +kernel
/-- V-MV-6. -/
theorem test_ldi_negative : gives (.ldi .S 3 0x8000#16) State.reset (imgS [3, 2768] 1 true) .ok = true := by
  decide +kernel
/-- R93 with R69, R70, R72 by hand: with EXP_MAX = 0 the integer 10000 is out of range. -/
theorem test_ldi_overflow : gives (.ldi .S 3 10000#16) { State.reset with cfg := { Config.default with expMax := 0 } }
    (infS false) .posOverflow = true := by decide +kernel
/-- V-MV-5. -/
theorem test_cvti_minimum : gives (.cvti .S 3) { State.reset with intin := 0x8000000000000000#64 }
    (imgS [922, 3372, 368, 5477, 5808] 4 true) .ok = true := by decide +kernel
/-- V-CVT-1. -/
theorem test_cvtsx : gives (.cvtsx 3 1) (load third nanS) (imgX (List.replicate 7 3333) (-1)) .ok = true := by
  decide +kernel
/-- V-CVT-4, V-CVT-6. -/
theorem test_cvtxs : gives (.cvtxs 3 1) (load (imgX (List.replicate 15 9999) 8191) nanS) (infS false) .posOverflow = true ∧
    gives (.cvtxs 3 1) (load (imgX (List.replicate 14 6666 ++ [6667]) (-1)) nanS)
      (imgS [6666, 6666, 6666, 6666, 6666, 6666, 6667] (-1)) .ok = true := by decide +kernel
/-- V-FMT-2b, V-FMT-8. -/
theorem test_fmt_fix :
    writes (.fmt .S 1 .fix 2#4 true .comma 32#8) (load (imgS [123, 4567, 5000] 1) nanS) "1.234.567,50" = true ∧
    writes (.fmt .S 1 .fix 4#4 false .point 4#8) (load third nanS) "0.3*" = true := by decide +kernel
/-- V-FMT-4c, V-FMT-9 and, falling back, V-FMT-6. -/
theorem test_fmt_modes :
    writes (.fmt .S 1 .eng 4#4 false .point 32#8) (load (imgS [999, 9600] 0) nanS) "1.000E3" = true ∧
    writes (.fmt .S 1 .sci 12#4 false .point 32#8) (load (tiny true) nanS) "-1.00000000000E-32768" = true ∧
    writes (.fmt .S 1 .fix 2#4 false .point 32#8) (load (imgS [9999, 9999, 9999, 7000] 2) nanS) "1.0E12" = true := by
  decide +kernel
/-- V-PRS-3, V-PRS-17. -/
theorem test_parse : gives (.parse .S 3 .point 10#8) (withText "-1.5E40000") (infS true) .negOverflow = true ∧
    gives (.parse .S 3 .point 30#8) (withText "1111111111111111111111111111E3")
      (imgS [111, 1111, 1111, 1111, 1111, 1111, 1111] 7) .ok = true := by decide +kernel
/-- V-PRS-15 and three texts of V-PRS-40: V3 keeps its value. -/
theorem test_parse_syntax :
    gives (.parse .S 3 .point 29#8) ((withText "11111111111111111111111111111").setV 3 third) third .syntaxError = true ∧
    ["1,.5", "1E+ ", "1,,2", "inf "].all (fun t =>
      gives (.parse .S 3 .point 4#8) ((withText t).setV 3 third) third .syntaxError) = true := by decide +kernel

/-! ## Faults, the window and reset -/

/-- V-FLT-1 and V-FLT-3: an X operand, and an unnormalized image. -/
theorem test_bad_operand :
    status (.add .S 3 1 1) (load (imgX [1] 0) nanS) { Status.reset with fault := some .badOperand } = true ∧
    status (.add .S 3 1 1) (load (imgS [0, 1] 0) nanS) { Status.reset with fault := some .badOperand } = true := by
  decide +kernel
/-- V-FLT-4. -/
theorem test_bad_buffer : status (.fmt .S 1 .fix 4#4 false .point 32#8)
    { load third nanS with cfg := { Config.default with tbufSize := 16 } }
    { Status.reset with fault := some .badBuffer } = true := by decide +kernel
/-- V-FLT-5: the second word is discarded. -/
theorem test_discard : issue 0x3D80FFFF#32 { State.reset with status := { Status.reset with fault := some .illegalCmd } } =
    .next { State.reset with status := { Status.reset with fault := some .illegalCmd } } := rfl

/-- The word a read returns in a state. -/
def readWord (s : State) (off : Nat) : Option Word :=
  match performAccess s (.read .word off) with
  | .next t => t.rdata
  | .fault _ => none
  | .refused _ => none

/-- V-MEM-1 to V-MEM-4. -/
theorem test_reads : readWord State.reset 0x00C = some 0x080C0F07#32 ∧ readWord State.reset 0x018 = some 0x001C00FF#32 ∧
    readWord State.reset 0x000 = some 0#32 ∧ readWord State.reset 0x008 = some 0#32 ∧
    readWord State.reset 0x01C = some 0#32 := by decide +kernel
/-- V-ADM-1: the trailer and a group word of S 1/3. -/
theorem test_image_words : readWord (State.reset.setV 7 third) (0x100 + 0x80 * 7 + 0x7C) = some 0x00003FFF#32 ∧
    readWord (State.reset.setV 7 third) (0x100 + 0x80 * 7 + 4 * 6) = some 0x00000D05#32 := by decide +kernel
/-- V-MEM-8. -/
theorem test_refused_access : step { State.reset with pending := [.read .word 0x002] } = .fault .refusedAccess ∧
    step { State.reset with pending := [.write .half 0x000 0#32] } = .fault .refusedAccess := ⟨rfl, rfl⟩
/-- V-RST-3. -/
theorem test_reset_x_operand : status (.add .X 0 1 2) State.reset { Status.reset with fault := some .badOperand } = true := by
  decide +kernel
/-- P1 line 1: the word placed as the next access is the one that runs. -/
theorem test_withFetchWord : (match step (State.reset.withFetchWord 32 0x3C400001) with
    | .next t => t.getV 1 == imgS [1] 0 && t.pending == []
    | _ => false) = true := by decide +kernel
/-- P2 line 1, V-PRS encoding check. -/
theorem test_str : expandPseudo (.str [0x31#8, 0x2E#8, 0x35#8, 0x45#8, 0x34#8, 0x30#8, 0x30#8]) =
    [.write .word 0x1000 0x45352E31#32, .write .word 0x1004 0x00303034#32] := by decide
/-- P1 lines 3 and 7, P4 line 7: the assembly lines. -/
theorem test_asm : asmLine (.div .S 3 1 2) = "DIV.S V3, V1, V2" ∧
    asmLine (.fmt .S 4 .fix 4#4 false .point 32#8) = "FMT.S V4, FIX, 4, 0, 0, 32" ∧
    asmLine (.cvtxs 3 2) = "CVTXS V3, V2" ∧ asmLine (.ldi .S 6 0xFFFF#16) = "LDI.S V6, #-1" := by decide +kernel

/-! ## Witnesses: the hypotheses of each statement are met, clause by clause -/

/-- Registers of every class: V0 = 0, V1 = 1, V2 = -2.5, V3 = -Inf, V4 = NaN, V5 = X:2, V6 ill-formed, V7 = 1/3. -/
def demo : State :=
  ((((((State.reset.setV 1 (imgS [1] 0)).setV 2 (imgS [2, 5000] 0 true)).setV 3 (infS true)).setV 4 nanS).setV 5
    (imgX [2] 0)).setV 6 (imgS [0, 1] 0)).setV 7 third

/-- `demo` with accesses to perform. -/
def demoWith (pending : List HostAccess) : State := { demo with pending := pending }

/-- `demo` with a fault pending and accesses to perform. -/
def faulted (pending : List HostAccess) : State :=
  { demo with status := { Status.reset with fault := some .badOperand }, pending := pending }

/-- Small parameters: exponents -1..1, two and five groups, a 16-byte buffer. -/
def small : Config.Params := { Config.default with nS := 2, nX := 5, expMin := -1, expMax := 4, tbufSize := 16 }

theorem demo_inv (pending : List HostAccess) : (demoWith pending).Inv where
  params := (by decide : demo.cfg.valid = true)
  slots := by
    have h : ∀ k : RegId, (demo.getV k).g.length = demo.cfg.nX := by decide +kernel
    exact h
  absent := by
    intro k hk
    have h : demo.cfg.nreg = 8 := rfl
    have : demo.cfg.nreg ≤ k.val := hk
    omega
  memory := (by decide : Memory.wf demo.cfg.tbufSize demo.tbuf = true)
  length := (by decide : demo.status.len.toNat ≤ demo.cfg.tbufSize)

theorem witness_DecodeOfEncode : (Instr.parse .X 7 .comma 255#8).wellFormed Config.default = true := by decide
theorem witness_EncodeOfDecode : decode Config.default 0x04530000#32 = .ok (.add .S 1 2 3) := by decide
/-- Each cause of R62, at the boundary: OP 0x15, AUX bit 0, RD = NREG; and a legal word. -/
theorem witness_IllegalWords : 0x15 ≤ (opField 0x54000000#32).toNat ∧
    0x04000001#32 &&& mustBeZero.getD (opField 0x04000001#32).toNat 0 ≠ 0 ∧
    (usesRd (opField 0x3D000001#32).toNat = true ∧ fourRegs.nreg ≤ (rdField 0x3D000001#32).val) ∧
    (usesRa (opField 0x30200000#32).toNat = true ∧ fourRegs.nreg ≤ (raField 0x30200000#32).val) ∧
    (usesRb (opField 0x18040000#32).toNat = true ∧ fourRegs.nreg ≤ (rbField 0x18040000#32).val) ∧
    decode fourRegs 0x18030000#32 = .ok (.cmp .S 0 3) := by decide
/-- A third, and two exact ties: a guard of 5000 behind an even and behind an odd last group. -/
theorem witness_RoundWithinHalfUnit : Config.default.valid = true ∧ (1 : Nat) ≠ 0 ∧ (3 : Nat) ≠ 0 ∧
    (roundScaled Config.default .S true 1 3 0).2 = .ok ∧
    (roundScaled Config.default .S false (10000 ^ 7 + 5000) 1 0).2 = .ok ∧
    (roundScaled Config.default .S true (10000 ^ 7 + 15000) 1 0).2 = .ok := by decide +kernel
/-- The least magnitude that overflows, a magnitude that underflows, and 1, at N_S = 2 and exponents -1..4. -/
theorem witness_RangeOutcomes : small.valid = true ∧
    (10000 : ℝ) ^ (small.expMax + 1) - 5000 * (10000 : ℝ) ^ (small.expMax - (groupCount small .S : Int)) ≤
      ((10000 ^ 3 - 5000 : Nat) : ℝ) / (1 : Nat) * (10000 : ℝ) ^ (2 : Int) ∧
    ((1 : Nat) : ℝ) / (1 : Nat) * (10000 : ℝ) ^ (-2 : Int) <
      (10000 : ℝ) ^ small.expMin - 5000 * (10000 : ℝ) ^ (small.expMin - 1 - (groupCount small .S : Int)) ∧
    (10000 : ℝ) ^ small.expMin - 5000 * (10000 : ℝ) ^ (small.expMin - 1 - (groupCount small .S : Int)) ≤
      ((1 : Nat) : ℝ) / (1 : Nat) * (10000 : ℝ) ^ (0 : Int) ∧
    ((1 : Nat) : ℝ) / (1 : Nat) * (10000 : ℝ) ^ (0 : Int) <
      (10000 : ℝ) ^ (small.expMax + 1) - 5000 * (10000 : ℝ) ^ (small.expMax - (groupCount small .S : Int)) := by
  refine ⟨by decide, ?_, ?_, ?_, ?_⟩ <;> simp only [small, Config.default, groupCount] <;> norm_num
/-- A finite result, and a zero, an Infinity and a NaN. -/
theorem witness_ResultsCanonical : demo.cfg.valid = true ∧ (Instr.div .S 0 1 7).resultPrec = some .S ∧
    (Instr.div .S 0 1 7).rd? = some 0 ∧ (∃ t, exec (.div .S 0 1 7) demo = .next t ∧ t.status.fault = none ∧
      t.status.outcome ≠ .syntaxError ∧ (t.getV 0).groupAt 0 ≠ 0) ∧
    (∃ t, exec (.mul .S 0 0 2) demo = .next t ∧ t.status.fault = none ∧ t.status.outcome ≠ .syntaxError ∧
      (t.getV 0).inf = false ∧ (t.getV 0).groupAt 0 = 0) ∧
    (∃ t, exec (.neg .S 0 3) demo = .next t ∧ t.status.fault = none ∧ t.status.outcome ≠ .syntaxError ∧
      (t.getV 0).inf = true) ∧
    ∃ t, exec (.add .S 0 1 4) demo = .next t ∧ t.status.fault = none ∧ t.status.outcome ≠ .syntaxError ∧
      (t.getV 0).nan = true :=
  ⟨by decide, rfl, rfl, ⟨_, rfl, by decide +kernel⟩, ⟨_, rfl, by decide +kernel⟩, ⟨_, rfl, by decide +kernel⟩,
    ⟨_, rfl, by decide +kernel⟩⟩

/-- Valid parameters and two well-formed operands. -/
theorem demo_pair : demo.cfg.valid = true ∧ (demo.getV 1).wf demo.cfg .S = true ∧
    (demo.getV 2).wf demo.cfg .S = true := by decide +kernel
theorem witness_AddFollowsPseudocode : demo.cfg.valid = true ∧ (demo.getV 1).wf demo.cfg .S = true ∧
    (demo.getV 2).wf demo.cfg .S = true := demo_pair
theorem witness_SubFollowsPseudocode : demo.cfg.valid = true ∧ (demo.getV 1).wf demo.cfg .S = true ∧
    (demo.getV 2).wf demo.cfg .S = true := demo_pair
theorem witness_AddCommutes : demo.cfg.valid = true := demo_pair.1
theorem witness_SubIsAddOfNeg : demo.cfg.valid = true ∧ (demo.getV 1).wf demo.cfg .S = true ∧
    (demo.getV 2).wf demo.cfg .S = true ∧ (2 : RegId) ≠ 1 := ⟨demo_pair.1, demo_pair.2.1, demo_pair.2.2, by decide⟩
theorem witness_MulFollowsPseudocode : demo.cfg.valid = true ∧ (demo.getV 1).wf demo.cfg .S = true ∧
    (demo.getV 2).wf demo.cfg .S = true := demo_pair
theorem witness_DivFollowsPseudocode : demo.cfg.valid = true ∧ (demo.getV 1).wf demo.cfg .S = true ∧
    (demo.getV 2).wf demo.cfg .S = true := demo_pair
theorem witness_SqrtFollowsPseudocode : demo.cfg.valid = true ∧ (demo.getV 5).wf demo.cfg .X = true := by
  decide +kernel
theorem witness_CmpFollowsRank : (demo.getV 3).wf demo.cfg .S = true ∧ (demo.getV 4).wf demo.cfg .S = true := by
  decide +kernel
theorem witness_TestsWriteT : (demo.getV 2).wf demo.cfg .S = true := demo_pair.2.2
theorem witness_FloorTruncFollowPseudocode : demo.cfg.valid = true ∧ (demo.getV 2).wf demo.cfg .S = true := by
  decide +kernel
/-- Five groups at exp = EXP_MAX = N_p - 1, and at exp + 1 = EXP_MAX. -/
theorem witness_FloorTruncExact : small.valid = true ∧
    (VReg.wf small .X { imgX [2] 4 with g := List.replicate 5 1#16 } = true ∧
      VReg.isFinite { imgX [2] 4 with g := List.replicate 5 1#16 } = true ∧
      (groupCount small .X : Int) - 1 ≤ VReg.e (imgX [2] 4)) ∧
    (VReg.wf small .X { imgX [2] 3 with g := List.replicate 5 1#16 } = true ∧
      VReg.isFinite { imgX [2] 3 with g := List.replicate 5 1#16 } = true ∧
      VReg.e (imgX [2] 3) + 1 ≤ small.expMax) := by decide +kernel
theorem witness_NegFollowsPseudocode : demo.cfg.valid = true ∧
    ((demo.getV 4).wf demo.cfg .S = true ∧ (demo.getV 4).isNaN = true) ∧
    ((demo.getV 3).wf demo.cfg .S = true ∧ (demo.getV 3).isInf = true) ∧
    ((demo.getV 0).wf demo.cfg .S = true ∧ (demo.getV 0).isZero (groupCount demo.cfg .S) = true) ∧
    ((demo.getV 2).wf demo.cfg .S = true ∧ (demo.getV 2).isFinite = true ∧
      (demo.getV 2).isZero (groupCount demo.cfg .S) = false) := by decide +kernel
theorem witness_IntegerLoads : demo.cfg.valid = true := by decide
/-- At the least group counts and exponents: two groups at EXP_MAX = 1 for LDI, five at EXP_MAX = 4 for CVTI. -/
theorem witness_IntegerLoadsExact : Config.Params.valid { small with expMax := 1 } = true ∧
    2 ≤ groupCount { small with expMax := 1 } .S ∧ small.valid = true ∧ 5 ≤ groupCount small .X ∧
    4 ≤ small.expMax := by decide
theorem witness_WideningExact : demo.cfg.valid = true ∧
    ((demo.getV 4).wf demo.cfg .S = true ∧ (demo.getV 4).isNaN = true) ∧
    ((demo.getV 3).wf demo.cfg .S = true ∧ (demo.getV 3).isInf = true) ∧
    ((demo.getV 7).wf demo.cfg .S = true ∧ (demo.getV 7).isFinite = true) := by decide +kernel
theorem witness_NarrowFollowsPseudocode : demo.cfg.valid = true ∧ (demo.getV 5).wf demo.cfg .X = true := by
  decide +kernel
theorem witness_NarrowOfWiden : demo.cfg.valid = true ∧ (demo.getV 7).canonical demo.cfg .S = true := by decide +kernel
theorem witness_FmtWritesText : demo.cfg.valid = true ∧ (demo.getV 7).wf demo.cfg .S = true ∧
    (255#8).toNat ≤ demo.cfg.tbufSize := by decide +kernel
/-- A text that fits exactly, and one that does not. -/
theorem witness_FmtTruncates : (demo.getV 7).wf demo.cfg .S = true ∧ (6#8).toNat ≤ demo.cfg.tbufSize ∧
    (∃ t, exec (.fmt .S 7 .fix 4#4 false .point 6#8) demo = .next t) ∧
    (formatValue demo.cfg .S (demo.getV 7) .fix 4#4 false .point).length = 6 ∧
    (∃ t, exec (.fmt .S 7 .fix 4#4 false .point 1#8) demo = .next t) ∧ 1#8 ≠ 0#8 :=
  ⟨by decide +kernel, by decide, ⟨_, rfl⟩, by decide +kernel, ⟨_, rfl⟩, by decide⟩
theorem witness_SpecialTexts : (demo.getV 4).isNaN = true ∧
    (VReg.isInf (infS false) = true ∧ (infS false).neg = false) ∧
    ((demo.getV 3).isInf = true ∧ (demo.getV 3).neg = true) ∧
    (demo.getV 0).isZero (groupCount demo.cfg .S) = true := by decide +kernel
theorem witness_FormatterRoundsExactly : (1 : Nat) ≠ 0 := by decide
theorem witness_SciHasDigitCount : (99995 : Nat) ≠ 0 ∧ 1 ≤ 1 := by decide
/-- A carry into a new integer digit at the width limit. -/
theorem witness_FixedWithinDisplayWidth : (9996 : Nat) ≠ 0 ∧ 1 ≤ 4 ∧
    fixedText 4 (ilog10 9996 (-1)) (rhu 9996 (-1)) 2 true (radixOf .point) (sepOf .point) false =
      some [0x39#8, 0x39#8, 0x39#8, 0x2E#8, 0x36#8] ∧
    fixedText 4 (ilog10 99996 (-2)) (rhu 99996 (-2)) 2 true (radixOf .point) (sepOf .point) false =
      some [0x31#8, 0x2C#8, 0x30#8, 0x30#8, 0x30#8] := by decide +kernel
theorem witness_LongestText : VReg.wf Config.default .S (tiny true) = true := by decide +kernel
/-- ENG of a finite nonzero value; the first separator and the last character of a grouped text of seven digits. -/
theorem witness_EngAndGroupingInThrees : Config.default.valid = true ∧ third.wf Config.default .S = true ∧
    third.isFinite = true ∧ third.isZero (groupCount Config.default .S) = false ∧
    3 < (groupText [1#8, 2#8, 3#8, 4#8, 5#8, 6#8, 7#8] 0#8).length ∧
    8 < (groupText [1#8, 2#8, 3#8, 4#8, 5#8, 6#8, 7#8] 0#8).length := by decide +kernel
theorem witness_ScannerIsGrammar : scanNumber (radixOf .point) (sepOf .point) [0x31#8] =
    some { neg := false, ints := [1], fracs := [], exp := 0 } := by decide
/-- A NUMBER within the digit limit, and the empty text, which is none. -/
theorem witness_ParseFollowsPseudocode : (withText "1").cfg.valid = true ∧ (1#8).toNat ≤ (withText "1").cfg.tbufSize ∧
    NumberOf (radixOf .point) (sepOf .point) ((withText "1").memRead 0 (1#8).toNat)
      { neg := false, ints := [1], fracs := [], exp := 0 } ∧
    NumberParts.digitCount { neg := false, ints := [1], fracs := [], exp := 0 } ≤ (withText "1").cfg.maxParseDigits ∧
    ¬ ∃ q, NumberOf (radixOf .point) (sepOf .point) ((withText "1").memRead 0 (0#8).toNat) q ∧
      q.digitCount ≤ (withText "1").cfg.maxParseDigits := by
  refine ⟨by decide, by decide, ?_, by decide, ?_⟩
  · refine ⟨[], [0x31#8], [], by decide, .inl ⟨rfl, rfl⟩, .inl ⟨?_, rfl⟩, .inl ⟨rfl, rfl⟩⟩
    exact ⟨0x31#8, [], [], rfl, by decide, .nil, by decide⟩
  · rintro ⟨q, ⟨s, m, e, h, -, hm, -⟩, -⟩
    have h' : s ++ m ++ e = [] := h.symm
    have hnil : m = [] := by simp only [List.append_eq_nil_iff] at h'; exact h'.1.2
    subst hnil
    rcases hm with ⟨⟨b, u, _, hc, _⟩, _⟩ | ⟨u, v, hc, _⟩ | ⟨v, hc, _⟩
    · cases hc
    · simp at hc
    · cases hc
/-- Two states that differ in the byte after the text and in another register. -/
theorem witness_ParseReadsOnlyItsBytes :
    ((withText "12").setV 5 third).cfg = (withText "19").cfg ∧
    ((withText "12").setV 5 third).getV 3 = (withText "19").getV 3 ∧
    (∀ a < (1#8).toNat, ((withText "12").setV 5 third).readByte a = (withText "19").readByte a) ∧
    (1#8).toNat ≤ (withText "19").cfg.tbufSize ∧
    (∃ t, exec (.parse .S 3 .point 1#8) (withText "19") = .next t) ∧
    (∃ t, exec (.parse .S 3 .point 1#8) ((withText "12").setV 5 third) = .next t) :=
  ⟨rfl, by decide +kernel, fun a ha => by
    have h : a = 0 := by
      have : a < 1 := ha
      omega
    subst h
    rfl, by decide, ⟨_, rfl⟩, ⟨_, rfl⟩⟩
/-- A canonical S value, and the texts of it cut to nothing and by one character. -/
theorem witness_FormattedTextParses : VReg.wf Config.default .S third = true ∧ third.isFinite = true ∧
    third.canonical Config.default .S = true ∧
    0 < (formatValue Config.default .S third .fix 4#4 false .point).length ∧
    5 < (formatValue Config.default .S third .fix 4#4 false .point).length := by decide +kernel
theorem witness_BadOperandRaised : ∃ q ∈ (Instr.add .S 0 1 6).sources, (demo.getV q.2).wf demo.cfg q.1 = false :=
  ⟨(.S, 6), by decide, by decide +kernel⟩
/-- CAP one above TBUF_SIZE, and equal to it. -/
theorem witness_BadBufferRaised : small.tbufSize < (17#8).toNat ∧ (16#8).toNat ≤ small.tbufSize ∧
    VReg.wf small .S (zeroV small .S) = true := by decide +kernel
/-- A copy, a comparison, a test, a result, a text, and the two faults. -/
theorem witness_CommandFrame : (∃ t, exec (.mov 3 1) demo = .next t) ∧ (∃ t, exec (.cmp .S 1 2) demo = .next t) ∧
    (∃ t, exec (.iszero .S 1) demo = .next t) ∧ (∃ t, exec (.add .S 0 1 2) demo = .next t) ∧
    (∃ t, exec (.fmt .S 1 .all 0#4 false .point 9#8) demo = .next t) ∧
    (∃ t, exec (.add .S 0 1 6) demo = .next t ∧ t.status.fault ≠ demo.status.fault) ∧
    ∃ t, exec (.parse .S 0 .point 17#8) { demo with cfg := small } = .next t ∧ t.status.fault ≠ demo.status.fault :=
  ⟨⟨_, rfl⟩, ⟨_, rfl⟩, ⟨_, rfl⟩, ⟨_, rfl⟩, ⟨_, rfl⟩, ⟨_, rfl, by decide +kernel⟩, ⟨_, rfl, by decide +kernel⟩⟩
theorem witness_IllegalWordRaises :
    (demoWith [.write .word 0x000 0x54000000#32]).pending = .write .word 0x000 0x54000000#32 :: [] ∧
    (demoWith [.write .word 0x000 0x54000000#32]).status.fault = none ∧
    decode (demoWith []).cfg 0x54000000#32 = .error .reservedOp := by decide
theorem witness_PendingFaultDiscards :
    (faulted [.write .word 0x000 0x3D80FFFF#32]).pending = .write .word 0x000 0x3D80FFFF#32 :: [] ∧
    (faulted [.write .word 0x000 0x3D80FFFF#32]).status.fault = some .badOperand := ⟨rfl, rfl⟩
/-- CLRFLT, SRESET and the reset input each end a fault. -/
theorem witness_FaultIsSticky : (faulted []).status.fault = some .badOperand ∧
    (∃ t, step (faulted [.write .word 0x008 0x00000002#32]) = .next t ∧ t.status.fault ≠ some .badOperand) ∧
    (∃ t, step (faulted [.write .word 0x008 0x00000001#32]) = .next t ∧ t.status.fault ≠ some .badOperand) ∧
    (∃ t, step (faulted [.resetInput]) = .next t ∧ t.status.fault ≠ some .badOperand) :=
  ⟨rfl, ⟨_, rfl, by decide⟩, ⟨_, rfl, by decide⟩, ⟨_, rfl, by decide⟩⟩
/-- SRESET with CLRFLT, CLRFLT alone, and neither. -/
theorem witness_CtrlWrites : (∀ w, (demoWith [.write .word 0x008 w]).pending = .write .word 0x008 w :: []) ∧
    (0x00000003#32).getLsbD 0 = true ∧
    ((0x00000002#32).getLsbD 0 = false ∧ (0x00000002#32).getLsbD 1 = true) ∧
    ((0xFFFFFFFC#32).getLsbD 0 = false ∧ (0xFFFFFFFC#32).getLsbD 1 = false) := ⟨fun _ => rfl, by decide⟩
theorem witness_StepRunsDecoded :
    (demoWith [.write .word 0x000 0x38C80000#32]).pending = .write .word 0x000 0x38C80000#32 :: [] ∧
    (demoWith [.write .word 0x000 0x38C80000#32]).status.fault = none ∧
    decode (demoWith []).cfg 0x38C80000#32 = .ok (.mov 3 1) := by decide
theorem witness_ReadsHaveNoSideEffect : (demoWith [.read .word 0x1FFC]).pending = .read .word 0x1FFC :: [] ∧
    ∃ t, step (demoWith [.read .word 0x1FFC]) = .next t := ⟨rfl, _, rfl⟩
/-- The last group word and the trailer of V7, read, written, and written then read. -/
theorem witness_RegisterWordsReadBack : (∀ l, (demoWith l).Inv) ∧ (7 : RegId).val < demo.cfg.nreg ∧
    14 < demo.cfg.nX ∧ (0x100 + 0x80 * (7 : RegId).val + 4 * 14 = 0x4B8 ∧ 0x100 + 0x80 * (7 : RegId).val + 0x7C = 0x4FC) ∧
    (∀ a, (demoWith [.read .word a]).pending = .read .word a :: []) ∧
    (∀ a w, (demoWith [.write .word a w]).pending = .write .word a w :: []) ∧
    (∀ a w, (demoWith [.write .word a w, .read .word a]).pending = .write .word a w :: .read .word a :: []) :=
  ⟨demo_inv, by decide, by decide, by decide, fun _ => rfl, fun _ _ => rfl, fun _ _ => rfl⟩
/-- The last word of TBUF, read and written. -/
theorem witness_TextWordsLittleEndian : demo.cfg.valid = true ∧ 4 * 63 < demo.cfg.tbufSize ∧
    (demoWith [.read .word 0x10FC]).pending = .read .word (0x1000 + 4 * 63) :: [] ∧
    (demoWith [.write .word 0x10FC 1#32]).pending = .write .word (0x1000 + 4 * 63) 1#32 :: [] :=
  ⟨by decide, by decide, rfl, rfl⟩
/-- A text of 5 bytes, padded to two words, whose rest is a read. -/
theorem witness_StrWritesText : demo.cfg.valid = true ∧ [1#8, 2#8, 3#8, 4#8, 5#8].length ≤ demo.cfg.tbufSize ∧
    (demoWith [.write .word 0x1000 0x04030201#32, .write .word 0x1004 0x00000005#32, .read .word 0x1000]).pending =
      expandPseudo (.str [1#8, 2#8, 3#8, 4#8, 5#8]) ++ [.read .word 0x1000] := ⟨by decide, by decide, by decide⟩
theorem witness_IntinReadsBack :
    (demoWith [.write .word 0x010 5#32, .write .word 0x014 6#32, .read .word 0x010, .read .word 0x014]).pending =
      .write .word 0x010 5#32 :: .write .word 0x014 6#32 :: .read .word 0x010 :: .read .word 0x014 :: [] := rfl
/-- The first and last word of each reserved range (with four registers for the absent ones), and the other clauses. -/
theorem witness_ReservedWords : (0x01C ≤ 0x01C ∧ 0x0FC < 0x100) ∧
    (0x100 + 0x80 * fourRegs.nreg ≤ 0x300 ∧ 0xFFC < 0x1000) ∧
    (0x1000 + demo.cfg.tbufSize ≤ 0x1100 ∧ 0x1FFC < 0x2000) ∧
    (4 * demo.cfg.nX ≤ (0x13C - 0x100) % 0x80 ∧ (0x178 - 0x100) % 0x80 < 0x7C) ∧
    (∀ off w, (demoWith [.write .word off w]).pending = .write .word off w :: []) ∧
    (∀ off, (demoWith [.read .word off]).pending = .read .word off :: []) :=
  ⟨by decide, by decide, by decide, by decide, fun _ _ => rfl, fun _ => rfl⟩
theorem witness_StatusAndConfigWords : demo.cfg.valid = true ∧ demo.cfg.maxParseDigits < 256 ∧
    (demoWith [.read .word 0x004]).pending = .read .word 0x004 :: [] ∧
    (demoWith [.read .word 0x00C]).pending = .read .word 0x00C :: [] ∧
    (demoWith [.read .word 0x018]).pending = .read .word 0x018 :: [] := ⟨by decide, by decide, rfl, rfl, rfl⟩
/-- Another width, an unaligned offset, and the first offset outside the window. -/
theorem witness_RefusedAccessStops : (demoWith [.read .half 0x100]).pending = .read .half 0x100 :: [] ∧
    (demoWith [.read .word 0x101]).pending = .read .word 0x101 :: [] ∧
    (demoWith [.write .word 0x2000 0#32]).pending = .write .word 0x2000 0#32 :: [] ∧
    Width.half ≠ .word ∧ 0x101 % 4 ≠ 0 ∧ 0x2000 ≤ 0x2000 := ⟨rfl, rfl, rfl, by decide, by decide, by decide⟩
theorem witness_ResetInput : (faulted [.resetInput]).pending = .resetInput :: [] := rfl
theorem witness_StepKeepsInv : (demoWith [.write .word 0x000 0x38C80000#32]).Inv ∧
    ∃ t, step (demoWith [.write .word 0x000 0x38C80000#32]) = .next t := ⟨demo_inv _, _, rfl⟩
theorem witness_SafeRunsGoOn : (demoWith [.write .word 0x000 0x38C80000#32, .read .word 0x004, .resetInput]).Inv ∧
    (demoWith [.write .word 0x000 0x38C80000#32, .read .word 0x004, .resetInput]).hostSafe = true :=
  ⟨demo_inv _, by decide⟩

end Sys2Proof.Tests
end

section
/-! PROOFS. The statements of spec/00_scope.md: the formatter's exact logarithm and rounding, and the invariant of the
machine at reset and over every step. -/

namespace Sys2Proof.Machine

open Config (Params)

/-! ## The formatter's logarithm and rounding (44_format.md section 3) -/

theorem ilog10_eq_log (m : Nat) (k : Int) (hm : m ≠ 0) : ilog10 m k = Int.log 10 ((m : ℝ) * (10 : ℝ) ^ k) := by
  have hpos : (0 : ℝ) < m := by positivity
  have hscale : Int.log 10 ((m : ℝ) * (10 : ℝ) ^ k) = Int.log 10 (m : ℝ) + k := by
    simpa using log_mul_zpow 10 (by norm_num) (m : ℝ) hpos k
  rw [hscale, Int.log_natCast, ilog10, ilog_eq_log 10 (by norm_num)]

/-- The machine's quotient is the floor of the real number, which over the denominator `10 ^ d` of the scaled magnitude
is `(2 * m * 10 ^ n + 10 ^ d) / (2 * 10 ^ d)`. -/
theorem rhu_eq_rhuReal (m : Nat) (k f : Int) : (rhu m k f : Int) = rhuReal ((m : ℝ) * (10 : ℝ) ^ k) f := by
  have hscale : (10 : ℝ) ^ k * (10 : ℝ) ^ f = (10 : ℝ) ^ (k + f).toNat / (10 : ℝ) ^ (-(k + f)).toNat := by
    rw [← zpow_add₀ (by norm_num)]
    exact_mod_cast zpow_eq_div 10 (by norm_num) (k + f)
  have hquot : (m : ℝ) * (10 : ℝ) ^ k * (10 : ℝ) ^ f + 1 / 2 =
      ((2 * (m * 10 ^ (k + f).toNat) + 10 ^ (-(k + f)).toNat : Nat) : ℝ) / ((2 * 10 ^ (-(k + f)).toNat : Nat) : ℝ) := by
    rw [mul_assoc, hscale]
    push_cast
    field_simp
  rw [rhuReal, hquot, Int.floor_div_natCast, Int.floor_natCast, rhu, Int.natCast_ediv]

/-- Settles O30: the logarithm through the scaling rule of `Int.log`, the rounding as the floor of one quotient. -/
theorem formatterRoundsExactly : Obligations.FormatterRoundsExactly := by
  intro m k f hm
  exact ⟨ilog10_eq_log m k hm, rhu_eq_rhuReal m k f⟩

/-! ## Every result fills the N_X group slots (R16, R25) -/

theorem slots_reset (c : Params) : (VReg.reset c).g.length = c.nX := List.length_replicate

theorem slots_zeroV (c : Params) (p : Prec) : (zeroV c p).g.length = c.nX :=
  length_mkImage c p [] 0 false false false (Nat.zero_le _)

theorem slots_nanV (c : Params) (p : Prec) : (nanV c p).g.length = c.nX :=
  length_mkImage c p [] 0 false false true (Nat.zero_le _)

theorem slots_infV (c : Params) (p : Prec) (neg : Bool) : (infV c p neg).g.length = c.nX :=
  length_mkImage c p [] 0 neg true false (Nat.zero_le _)

/-- A case split of the spec fills the slots when both of its cases do. -/
theorem slots_ite {P : Prop} [Decidable P] {n : Nat} {r r' : Result} (h : r.1.g.length = n)
    (h' : r'.1.g.length = n) : (if P then r else r').1.g.length = n := by
  split
  · exact h
  · exact h'

/-- The same for a case split between two images. -/
theorem slots_ite_image {P : Prop} [Decidable P] {n : Nat} {x x' : VReg} (h : x.g.length = n)
    (h' : x'.g.length = n) : (if P then x else x').g.length = n := by
  split
  · exact h
  · exact h'

section Results

/- In each proof the cases stand in the order in which the definition writes them. -/
variable (c : Params) (hv : c.valid = true)

include hv

theorem slots_copyFinite (p q : Prec) (x : VReg) (neg : Bool) :
    (copyFinite c p (groupCount c q) x neg).g.length = c.nX := by
  refine length_mkImage c p _ _ neg false false ?_
  rw [VReg.length_groups]
  exact groupCount_le c hv q

theorem slots_roundGuard (p : Prec) (neg : Bool) (m : Nat) (e : Int) : (roundGuard c p neg m e).1.g.length = c.nX := by
  refine slots_ite (slots_infV c p neg) (slots_ite (slots_zeroV c p) ?_)
  refine length_mkImage c p _ _ neg false false ?_
  rw [length_toGroups]
  exact groupCount_le c hv p

theorem slots_roundScaled (p : Prec) (neg : Bool) (num den : Nat) (k : Int) :
    (roundScaled c p neg num den k).1.g.length = c.nX := slots_roundGuard c hv p neg _ _

theorem slots_roundInt (p : Prec) (i : Int) : (roundInt c p i).1.g.length = c.nX :=
  slots_ite (slots_zeroV c p) (slots_roundScaled c hv p _ _ _ _)

theorem slots_addOrdered (p : Prec) (l : VReg) (sl : Bool) (s : VReg) (ss : Bool) :
    (addOrdered c p l sl s ss).1.g.length = c.nX :=
  slots_ite (slots_zeroV c p) (slots_roundScaled c hv p _ _ _ _)

theorem slots_addSigned (p : Prec) (x y : VReg) (sy : Bool) : (addSigned c p x y sy).1.g.length = c.nX :=
  slots_ite (slots_nanV c p) <|
  slots_ite (slots_ite_image (slots_infV c p x.neg) (slots_nanV c p)) <|
  slots_ite (slots_infV c p x.neg) <|
  slots_ite (slots_infV c p sy) <|
  slots_ite (slots_zeroV c p) <|
  slots_ite (slots_copyFinite c hv p p x x.neg) <|
  slots_ite (slots_copyFinite c hv p p y sy) <|
  slots_ite (slots_addOrdered c hv p _ _ _ _) (slots_addOrdered c hv p _ _ _ _)

theorem slots_mulV (p : Prec) (x y : VReg) : (mulV c p x y).1.g.length = c.nX :=
  slots_ite (slots_nanV c p) <|
  slots_ite (slots_ite_image (slots_nanV c p) (slots_infV c p _)) <|
  slots_ite (slots_zeroV c p) (slots_roundScaled c hv p _ _ _ _)

theorem slots_divV (p : Prec) (x y : VReg) : (divV c p x y).1.g.length = c.nX :=
  slots_ite (slots_nanV c p) <|
  slots_ite (slots_nanV c p) <|
  slots_ite (slots_infV c p _) <|
  slots_ite (slots_zeroV c p) <|
  slots_ite (slots_ite_image (slots_nanV c p) (slots_infV c p x.neg)) <|
  slots_ite (slots_zeroV c p) (slots_roundScaled c hv p _ _ _ _)

theorem slots_sqrtV (p : Prec) (x : VReg) : (sqrtV c p x).1.g.length = c.nX :=
  slots_ite (slots_nanV c p) <|
  slots_ite (slots_ite_image (slots_nanV c p) (slots_infV c p false)) <|
  slots_ite (slots_zeroV c p) <|
  slots_ite (slots_nanV c p) (slots_roundGuard c hv p false _ _)

theorem slots_integerResult (p : Prec) (neg : Bool) (z : Nat × Int) : (integerResult c p neg z).1.g.length = c.nX :=
  slots_ite (slots_zeroV c p) (slots_roundScaled c hv p _ _ _ _)

theorem slots_floorV (p : Prec) (x : VReg) : (floorV c p x).1.g.length = c.nX :=
  slots_ite (slots_nanV c p) <|
  slots_ite (slots_infV c p x.neg) <|
  slots_ite (slots_zeroV c p) (slots_integerResult c hv p _ _)

theorem slots_truncV (p : Prec) (x : VReg) : (truncV c p x).1.g.length = c.nX :=
  slots_ite (slots_nanV c p) <|
  slots_ite (slots_infV c p x.neg) <|
  slots_ite (slots_zeroV c p) (slots_integerResult c hv p _ _)

theorem slots_negV (p : Prec) (x : VReg) : (negV c p x).1.g.length = c.nX :=
  slots_ite (slots_nanV c p) <|
  slots_ite (slots_infV c p (!x.neg)) <|
  slots_ite (slots_zeroV c p) (slots_copyFinite c hv p p x (!x.neg))

theorem slots_widenV (x : VReg) : (widenV c x).1.g.length = c.nX :=
  slots_ite (slots_nanV c .X) <|
  slots_ite (slots_infV c .X x.neg) <|
  slots_ite (slots_zeroV c .X) (slots_copyFinite c hv .X .S x x.neg)

theorem slots_narrowV (x : VReg) : (narrowV c x).1.g.length = c.nX :=
  slots_ite (slots_nanV c .S) <|
  slots_ite (slots_infV c .S x.neg) <|
  slots_ite (slots_zeroV c .S) (slots_roundScaled c hv .S _ _ _ _)

theorem slots_numberResult (p : Prec) (q : NumberParts) : (numberResult c p q).1.g.length = c.nX :=
  slots_ite (slots_zeroV c p) (slots_roundScaled c hv p _ _ _ _)

theorem slots_parseText (p : Prec) (loc : Loc) (t : Text) (r : Result) (h : parseText c p loc t = some r) :
    r.1.g.length = c.nX := by
  unfold parseText at h
  split at h
  · cases h
  · split at h
    · cases h
    · cases h
      exact slots_numberResult c hv p _

end Results

/-! ## The state's updates keep the invariant -/

/-- The invariant speaks of the parameters, the registers, TBUF and LEN only. -/
theorem State.Inv.of_same {s t : State} (hs : s.Inv) (hcfg : t.cfg = s.cfg) (hv : ∀ k, t.getV k = s.getV k)
    (hm : t.tbuf = s.tbuf) (hl : t.status.len = s.status.len) : t.Inv where
  params := by rw [hcfg]; exact hs.params
  slots := fun k => by rw [hcfg, hv]; exact hs.slots k
  absent := fun k hk => by rw [hcfg] at hk ⊢; rw [hv]; exact hs.absent k hk
  memory := by rw [hcfg, hm]; exact hs.memory
  length := by rw [hcfg, hl]; exact hs.length

/-- The state any reset leaves: every register at its reset image and LEN 0. -/
theorem State.Inv.of_reset {t : State} (hp : t.cfg.valid = true) (hv : ∀ k, t.getV k = VReg.reset t.cfg)
    (hm : Memory.wf t.cfg.tbufSize t.tbuf = true) (hl : t.status.len = 0#8) : t.Inv where
  params := hp
  slots := fun k => by rw [hv, slots_reset]
  absent := fun k _ => hv k
  memory := hm
  length := by rw [hl]; exact Nat.zero_le _

theorem State.Inv.pending {s : State} (hs : s.Inv) (rest : List HostAccess) : State.Inv { s with pending := rest } :=
  hs.of_same rfl (fun _ => rfl) rfl rfl

theorem State.Inv.raiseFault {s : State} (hs : s.Inv) (f : FaultCode) : (raiseFault s f).Inv :=
  hs.of_same rfl (fun _ => rfl) rfl rfl

theorem State.Inv.setOutcome {s : State} (hs : s.Inv) (o : RangeOutcome) : (s.setOutcome o).Inv :=
  hs.of_same rfl (fun _ => rfl) rfl rfl

/-- A register that exists may take any image with N_X slots. -/
theorem State.Inv.setV {s : State} (hs : s.Inv) {k : RegId} (hk : k.val < s.cfg.nreg) {x : VReg}
    (hx : x.g.length = s.cfg.nX) : (s.setV k x).Inv where
  params := hs.params
  slots := fun j => by
    rw [State.getV_setV]
    split
    · exact hx
    · exact hs.slots j
  absent := fun j (hj : s.cfg.nreg ≤ j.val) => by
    have hne : j ≠ k := by rintro rfl; omega
    rw [State.getV_setV_ne _ _ _ _ hne]
    exact hs.absent j hj
  memory := hs.memory
  length := hs.length

theorem State.Inv.writeResult {s : State} (hs : s.Inv) {rd : RegId} (hrd : rd.val < s.cfg.nreg) {r : Result}
    (hr : r.1.g.length = s.cfg.nX) : (writeResult rd r s).Inv :=
  (hs.setV hrd hr).setOutcome r.2

theorem State.Inv.memWrite {s : State} (hs : s.Inv) {a : Nat} {t : Text} (ht : a + t.length ≤ s.cfg.tbufSize) :
    (s.memWrite a t).Inv where
  params := hs.params
  slots := hs.slots
  absent := hs.absent
  memory := Memory.wf_writeAll _ _ _ _ ht hs.memory
  length := hs.length

theorem State.Inv.setLen {s : State} (hs : s.Inv) {n : BitVec 8} (hn : n.toNat ≤ s.cfg.tbufSize) :
    (s.setLen n).Inv where
  params := hs.params
  slots := hs.slots
  absent := hs.absent
  memory := hs.memory
  length := hn

theorem State.Inv.writeText {s : State} (hs : s.Inv) {t : Text} (ht : t.length ≤ s.cfg.tbufSize) :
    (writeText t s).Inv := by
  have hlen : (BitVec.ofNat 8 t.length).toNat ≤ s.cfg.tbufSize := by
    rw [BitVec.toNat_ofNat]
    exact (Nat.mod_le _ _).trans ht
  exact State.Inv.setLen (hs.memWrite (by omega)) hlen

theorem State.Inv.softReset {s : State} (hs : s.Inv) : (softReset s).Inv :=
  .of_reset hs.params (getV_softReset s) hs.memory rfl

theorem State.Inv.powerOnReset {s : State} (hs : s.Inv) : (powerOnReset s).Inv :=
  .of_reset hs.params (getV_powerOnReset s) (Memory.wf_nil _) rfl

theorem State.Inv.writeCtrl {s : State} (hs : s.Inv) (w : Word) : (writeCtrl w s).Inv := by
  unfold Machine.writeCtrl
  split
  · exact hs.softReset
  · split
    · exact hs.of_same rfl (fun _ => rfl) rfl rfl
    · exact hs

/-- Power-on meets the invariant for every choice of parameters that keeps R7's constraints (R41, R132). -/
theorem powerOn_inv (c : Params) (hc : c.valid = true) : (State.powerOn c).Inv :=
  .of_reset hc (State.getV_powerOn c) (Memory.wf_nil _) rfl

/-- Settles O57: the reset state is power-on at the defaults, which keep R7's constraints. -/
theorem invAtReset : Obligations.InvAtReset :=
  powerOn_inv Config.default (by decide)

/-! ## Commands keep the invariant -/

/-- Where this outcome is a next state, that state meets the invariant. -/
def KeepsInv (r : StepResult) : Prop := ∀ t, r = .next t → t.Inv

theorem keepsInv_next {t : State} (h : t.Inv) : KeepsInv (.next t) := by
  rintro _ ⟨⟩
  exact h

theorem keepsInv_fault (f : Fault) : KeepsInv (.fault f) := nofun

/-- A command the decoder gives uses only registers that exist (R62, R63). -/
theorem wellFormed_of_decode {c : Params} {w : Word} {i : Instr} (h : decode c w = .ok i) : i.wellFormed c = true := by
  unfold decode at h
  split at h
  · split at h <;> cases h
  · split at h
    · next hw => cases h; exact hw
    · cases h

theorem Instr.rd_lt_nreg {c : Params} {i : Instr} (h : i.wellFormed c = true) {rd : RegId} (hrd : i.rd? = some rd) :
    rd.val < c.nreg := by
  simp only [Instr.wellFormed, Bool.and_eq_true] at h
  obtain ⟨⟨hd, _⟩, _⟩ := h
  simpa [regOk, hrd] using hd

section Commands

variable {s : State} (hs : s.Inv)

include hs

theorem keepsInv_unaryOp (p : Prec) {rd : RegId} (ra : RegId) (hrd : rd.val < s.cfg.nreg) {f : VReg → Result}
    (hf : ∀ x, (f x).1.g.length = s.cfg.nX) : KeepsInv (unaryOp p rd ra f s) := by
  rcases unaryOp_cases p rd ra f s with ⟨_, h⟩ | ⟨_, h⟩
  · rw [h]; exact keepsInv_next (hs.writeResult hrd (hf _))
  · rw [h]; exact keepsInv_next (hs.raiseFault _)

theorem keepsInv_binaryOp (p : Prec) {rd : RegId} (ra rb : RegId) (hrd : rd.val < s.cfg.nreg)
    {f : VReg → VReg → Result} (hf : ∀ x y, (f x y).1.g.length = s.cfg.nX) : KeepsInv (binaryOp p rd ra rb f s) := by
  rcases binaryOp_cases p rd ra rb f s with ⟨_, _, h⟩ | ⟨_, h⟩
  · rw [h]; exact keepsInv_next (hs.writeResult hrd (hf _ _))
  · rw [h]; exact keepsInv_next (hs.raiseFault _)

theorem keepsInv_testOp (p : Prec) (ra : RegId) (f : VReg → Bool) : KeepsInv (testOp p ra f s) := by
  rcases testOp_cases p ra f s with ⟨_, h⟩ | ⟨_, h⟩
  · rw [h]; exact keepsInv_next (hs.of_same rfl (fun _ => rfl) rfl rfl)
  · rw [h]; exact keepsInv_next (hs.raiseFault _)

theorem keepsInv_execCmp (p : Prec) (ra rb : RegId) : KeepsInv (execCmp p ra rb s) := by
  rcases execCmp_cases p ra rb s with ⟨_, _, h⟩ | ⟨_, h⟩
  · rw [h]; exact keepsInv_next (hs.of_same rfl (fun _ => rfl) rfl rfl)
  · rw [h]; exact keepsInv_next (hs.raiseFault _)

/-- The text is cut to CAP characters (R110) and CAP lies within TBUF (R68). -/
theorem keepsInv_execFmt (p : Prec) (ra : RegId) (mode : Mode) (dig : BitVec 4) (grp : Bool) (loc : Loc)
    (cap : BitVec 8) : KeepsInv (execFmt p ra mode dig grp loc cap s) := by
  rcases execFmt_cases p ra mode dig grp loc cap s with ⟨_, hcap, h⟩ | ⟨_, _, h⟩ | ⟨_, h⟩
  · rw [h]
    refine keepsInv_next (hs.writeText ?_)
    rw [length_truncateText]
    omega
  · rw [h]; exact keepsInv_next (hs.raiseFault _)
  · rw [h]; exact keepsInv_next (hs.raiseFault _)

theorem keepsInv_execParse (p : Prec) {rd : RegId} (hrd : rd.val < s.cfg.nreg) (loc : Loc) (len : BitVec 8) :
    KeepsInv (execParse p rd loc len s) := by
  rcases execParse_cases p rd loc len s with ⟨_, h⟩ | ⟨_, h⟩
  · rw [h]
    cases hr : parseText s.cfg p loc (s.memRead 0 len.toNat) with
    | none => exact keepsInv_next (hs.setOutcome _)
    | some r => exact keepsInv_next (hs.writeResult hrd (slots_parseText _ hs.params p loc _ r hr))
  · rw [h]; exact keepsInv_next (hs.raiseFault _)

/-- Every command that writes only to a register that exists keeps the invariant. -/
theorem keepsInv_exec (i : Instr) (hi : ∀ rd, i.rd? = some rd → rd.val < s.cfg.nreg) : KeepsInv (exec i s) := by
  have hv := hs.params
  cases i with
  | nop => exact keepsInv_next hs
  | add p rd ra rb => exact keepsInv_binaryOp hs p ra rb (hi rd rfl) fun x y => slots_addSigned _ hv p x y _
  | sub p rd ra rb => exact keepsInv_binaryOp hs p ra rb (hi rd rfl) fun x y => slots_addSigned _ hv p x y _
  | mul p rd ra rb => exact keepsInv_binaryOp hs p ra rb (hi rd rfl) (slots_mulV _ hv p)
  | div p rd ra rb => exact keepsInv_binaryOp hs p ra rb (hi rd rfl) (slots_divV _ hv p)
  | sqrt p rd ra => exact keepsInv_unaryOp hs p ra (hi rd rfl) (slots_sqrtV _ hv p)
  | cmp p ra rb => exact keepsInv_execCmp hs p ra rb
  | floor p rd ra => exact keepsInv_unaryOp hs p ra (hi rd rfl) (slots_floorV _ hv p)
  | trunc p rd ra => exact keepsInv_unaryOp hs p ra (hi rd rfl) (slots_truncV _ hv p)
  | neg p rd ra => exact keepsInv_unaryOp hs p ra (hi rd rfl) (slots_negV _ hv p)
  | iszero p ra => exact keepsInv_testOp hs p ra _
  | isinf p ra => exact keepsInv_testOp hs p ra _
  | isnan p ra => exact keepsInv_testOp hs p ra _
  | isint p ra => exact keepsInv_testOp hs p ra (fun x => x.isFinite && x.isInteger (groupCount s.cfg p))
  | mov rd ra => exact keepsInv_next (hs.setV (hi rd rfl) (hs.slots ra))
  | ldi p rd imm => exact keepsInv_next (hs.writeResult (hi rd rfl) (slots_roundInt _ hv p _))
  | cvti p rd => exact keepsInv_next (hs.writeResult (hi rd rfl) (slots_roundInt _ hv p _))
  | cvtsx rd ra => exact keepsInv_unaryOp hs .S ra (hi rd rfl) (slots_widenV _ hv)
  | cvtxs rd ra => exact keepsInv_unaryOp hs .X ra (hi rd rfl) (slots_narrowV _ hv)
  | fmt p ra mode dig grp loc cap => exact keepsInv_execFmt hs p ra mode dig grp loc cap
  | parse p rd loc len => exact keepsInv_execParse hs p (hi rd rfl) loc len

theorem keepsInv_issue (w : Word) : KeepsInv (issue w s) := by
  unfold issue
  split
  · exact keepsInv_next hs
  · split
    · exact keepsInv_next (hs.raiseFault _)
    · next i h => exact keepsInv_exec hs i fun rd hrd => Instr.rd_lt_nreg (wellFormed_of_decode h) hrd

end Commands

/-! ## Host accesses keep the invariant -/

/-- The target is part of the engine: its register exists (R44) and its word lies whole inside TBUF (R45). -/
def Target.Present (c : Params) : Target → Prop
  | .group k _ => k.val < c.nreg
  | .trailer k => k.val < c.nreg
  | .text a => a + 4 ≤ c.tbufSize
  | _ => True

theorem present_controlTarget (c : Params) (off : Nat) : (controlTarget off).Present c := by
  unfold controlTarget
  split_ifs <;> trivial

theorem present_registerTarget (c : Params) (k j : Nat) : (registerTarget c k j).Present c := by
  unfold registerTarget
  split_ifs with h8 hk
  · trivial
  · exact Nat.not_le.1 hk
  · exact Nat.not_le.1 hk
  · trivial
  · trivial

/-- An aligned offset leads to nothing but what exists; TBUF_SIZE is a multiple of 4, so its last word is whole (R7). -/
theorem present_windowTarget (c : Params) (hv : c.valid = true) (off : Nat) (ha : off % 4 = 0) :
    (windowTarget c off).Present c := by
  have htbuf := (paramFacts c hv).tbuf
  unfold windowTarget
  split_ifs
  · exact present_controlTarget c off
  · exact present_registerTarget c _ _
  · show off - 0x1000 + 4 ≤ c.tbufSize
    omega
  · trivial

theorem keepsInv_writeTarget {s : State} (hs : s.Inv) (w : Word) (t : Target) (ht : t.Present s.cfg) :
    KeepsInv (writeTarget s w t) := by
  cases t with
  | cmd => exact keepsInv_issue hs w
  | status => exact keepsInv_next hs
  | ctrl => exact keepsInv_next (hs.writeCtrl w)
  | config0 => exact keepsInv_next hs
  | intinLow => exact keepsInv_next (hs.of_same rfl (fun _ => rfl) rfl rfl)
  | intinHigh => exact keepsInv_next (hs.of_same rfl (fun _ => rfl) rfl rfl)
  | config1 => exact keepsInv_next hs
  | group k j =>
    refine keepsInv_next (hs.setV ht ?_)
    rw [VReg.setGroupWord, List.length_set]
    exact hs.slots k
  | trailer k => exact keepsInv_next (hs.setV ht (hs.slots k))
  | text a => exact keepsInv_next (hs.memWrite ht)
  | reserved => exact keepsInv_next hs

/-- The step's access is refused, a read, a write of the word it names, or the reset input. -/
theorem keepsInv_step {s : State} (hs : s.Inv) : KeepsInv (step s) := by
  cases h : s.pending with
  | nil => rw [step_idle s h]; exact keepsInv_next hs
  | cons a rest =>
    cases a with
    | read width off =>
      cases ha : accessOk width off with
      | false => rw [step_refused s _ rest h (.inl ⟨width, off, rfl, ha⟩)]; exact keepsInv_fault _
      | true =>
        rw [step_read s width off rest h ha]
        exact keepsInv_next (hs.of_same rfl (fun _ => rfl) rfl rfl)
    | write width off w =>
      cases ha : accessOk width off with
      | false => rw [step_refused s _ rest h (.inr ⟨width, off, w, rfl, ha⟩)]; exact keepsInv_fault _
      | true =>
        obtain ⟨_, haligned, _⟩ := (accessOk_iff width off).1 ha
        rw [step_write s width off w rest h ha]
        exact keepsInv_writeTarget (hs.pending rest) w _ (present_windowTarget s.cfg hs.params off haligned)
    | resetInput =>
      rw [step_reset s rest h]
      exact keepsInv_next (hs.pending rest).powerOnReset

/-- Settles O58, by the access the step performs and, for a command word, by the command. -/
theorem stepKeepsInv : Obligations.StepKeepsInv :=
  fun _ t hs h => keepsInv_step hs t h

end Sys2Proof.Machine
end

section
/-! PROOFS. The statements of spec/10_state.md: the register, STATUS, CTRL, INTIN and CONFIG words of the window, the
reset values, the sticky fault, what each command leaves unchanged, and that every result is canonical. -/

namespace Sys2Proof.Machine

open Config (Params)

/-! ## The control words of the window (R43) -/

theorem windowTarget_control (c : Params) {off : Nat} (h : off < 0x100) : windowTarget c off = controlTarget off :=
  if_pos h

theorem accessOk_control {off : Nat} (ha : off % 4 = 0) (h : off < 0x100) : accessOk .word off = true :=
  (accessOk_iff .word off).2 ⟨rfl, ha, by omega⟩

theorem step_readControl {s : State} {off : Nat} {rest : List HostAccess} (h : s.pending = .read .word off :: rest)
    (ha : off % 4 = 0) (ho : off < 0x100) :
    step s = .next { s with pending := rest, rdata := some (readTarget s (controlTarget off)) } := by
  rw [step_read s .word off rest h (accessOk_control ha ho), windowTarget_control _ ho]

theorem step_writeControl {s : State} {off : Nat} {w : Word} {rest : List HostAccess}
    (h : s.pending = .write .word off w :: rest) (ha : off % 4 = 0) (ho : off < 0x100) :
    step s = writeTarget { s with pending := rest } w (controlTarget off) := by
  rw [step_write s .word off w rest h (accessOk_control ha ho), windowTarget_control _ ho]

/-! ## Command words (R34, R66) -/

theorem issue_discards {s : State} {f : FaultCode} (hf : s.status.fault = some f) (w : Word) :
    issue w s = .next s := by
  simp [issue, hf]

theorem issue_decoded {s : State} {w : Word} {i : Instr} (hf : s.status.fault = none) (hd : decode s.cfg w = .ok i) :
    issue w s = exec i s := by
  simp [issue, hf, hd]

/-- Settles O46: the access is a write of CMD, and issuing a decoded word runs its command. -/
theorem stepRunsDecoded : Obligations.StepRunsDecoded := by
  intro s w rest i h hf hd
  calc step s = issue w { s with pending := rest } := step_writeControl h rfl (by decide)
    _ = exec i { s with pending := rest } := issue_decoded hf hd

/-! ## CTRL (R35) and the pending fault (R122, R123) -/

theorem writeCtrl_sreset {w : Word} (h : w.getLsbD 0 = true) (s : State) : writeCtrl w s = softReset s := if_pos h

theorem writeCtrl_clrflt {w : Word} (h0 : w.getLsbD 0 = false) (h1 : w.getLsbD 1 = true) (s : State) :
    writeCtrl w s = clearFault s := by
  rw [writeCtrl, h0, h1]
  rfl

theorem writeCtrl_ignored {w : Word} (h0 : w.getLsbD 0 = false) (h1 : w.getLsbD 1 = false) (s : State) :
    writeCtrl w s = s := by
  rw [writeCtrl, h0, h1]
  rfl

theorem step_writeCtrl {s : State} {w : Word} {rest : List HostAccess} (h : s.pending = .write .word 0x008 w :: rest) :
    step s = .next (writeCtrl w { s with pending := rest }) :=
  step_writeControl h rfl (by decide)

/-- Settles O45: the three cases of a write of CTRL, each by what it does to the state. -/
theorem ctrlWrites : Obligations.CtrlWrites := by
  intro s w rest h
  refine ⟨_, step_writeCtrl h, fun h0 => ?_, fun h0 h1 => ?_, fun h0 h1 => ?_⟩
  · rw [writeCtrl_sreset h0]
    exact ⟨getV_softReset _, rfl, rfl, readByte_softReset _, rfl, rfl, rfl⟩
  · rw [writeCtrl_clrflt h0 h1]
    exact clearFault_writes _
  · exact writeCtrl_ignored h0 h1 _

theorem controlTarget_eq_ctrl {off : Nat} (h : controlTarget off = .ctrl) : off = 0x008 := by
  unfold controlTarget at h
  split_ifs at h
  assumption

theorem registerTarget_ne_ctrl (c : Params) (k j : Nat) : registerTarget c k j ≠ .ctrl := by
  unfold registerTarget
  split_ifs <;> simp

/-- CTRL is one word of the window (R43). -/
theorem windowTarget_eq_ctrl {c : Params} {off : Nat} (h : windowTarget c off = .ctrl) : off = 0x008 := by
  unfold windowTarget at h
  split_ifs at h
  · exact controlTarget_eq_ctrl h
  · exact absurd h (registerTarget_ne_ctrl _ _ _)

/-- Of all host writes only SRESET and CLRFLT change a pending fault code; a command word is discarded (R122). -/
theorem ctrl_of_writeTarget_changes_fault {s t : State} {f : FaultCode} {w : Word} {target : Target}
    (hf : s.status.fault = some f) (h : writeTarget s w target = .next t) (ht : t.status.fault ≠ some f) :
    target = .ctrl ∧ (w.getLsbD 0 = true ∨ w.getLsbD 1 = true) := by
  cases target with
  | ctrl =>
    refine ⟨rfl, ?_⟩
    by_contra hbits
    rw [not_or, Bool.not_eq_true, Bool.not_eq_true] at hbits
    obtain ⟨h0, h1⟩ := hbits
    cases h
    rw [writeCtrl_ignored h0 h1] at ht
    exact ht hf
  | cmd =>
    rw [writeTarget, issue_discards hf] at h
    cases h
    exact absurd hf ht
  | _ =>
    cases h
    exact absurd hf ht

/-- Settles O44, by the access the step performs. -/
theorem faultIsSticky : Obligations.FaultIsSticky := by
  intro s t f hf hstep ht
  cases h : s.pending with
  | nil =>
    rw [step_idle s h] at hstep
    cases hstep
    exact absurd hf ht
  | cons a rest =>
    cases a with
    | read width off =>
      cases ha : accessOk width off with
      | false => rw [step_refused s _ rest h (.inl ⟨width, off, rfl, ha⟩)] at hstep; cases hstep
      | true =>
        rw [step_read s width off rest h ha] at hstep
        cases hstep
        exact absurd hf ht
    | write width off w =>
      cases ha : accessOk width off with
      | false => rw [step_refused s _ rest h (.inr ⟨width, off, w, rfl, ha⟩)] at hstep; cases hstep
      | true =>
        rw [step_write s width off w rest h ha] at hstep
        obtain ⟨htarget, hbits⟩ := ctrl_of_writeTarget_changes_fault (s := { s with pending := rest }) hf hstep ht
        obtain ⟨rfl, _⟩ := (accessOk_iff width off).1 ha
        obtain rfl := windowTarget_eq_ctrl htarget
        exact .inl ⟨w, rest, rfl, hbits⟩
    | resetInput => exact .inr ⟨rest, rfl⟩

/-! ## INTIN (R36) -/

section Intin

variable {s : State} {w : Word} {rest : List HostAccess}

theorem step_writeIntinLow (h : s.pending = .write .word 0x010 w :: rest) :
    step s = .next { s with pending := rest, intin := s.intin.extractLsb' 32 32 ++ w } :=
  step_writeControl h rfl (by decide)

theorem step_writeIntinHigh (h : s.pending = .write .word 0x014 w :: rest) :
    step s = .next { s with pending := rest, intin := w ++ s.intin.extractLsb' 0 32 } :=
  step_writeControl h rfl (by decide)

theorem step_readIntinLow (h : s.pending = .read .word 0x010 :: rest) :
    step s = .next { s with pending := rest, rdata := some (s.intin.extractLsb' 0 32) } :=
  step_readControl h rfl (by decide)

theorem step_readIntinHigh (h : s.pending = .read .word 0x014 :: rest) :
    step s = .next { s with pending := rest, rdata := some (s.intin.extractLsb' 32 32) } :=
  step_readControl h rfl (by decide)

end Intin

/-- Settles O51: each write replaces one half of INTIN and keeps the other, and the reads return the halves. -/
theorem intinReadsBack : Obligations.IntinReadsBack := by
  intro s lo hi rest h
  have hlow : (s.intin.extractLsb' 32 32 ++ lo).extractLsb' 0 32 = lo := BitVec.extractLsb'_append_eq_right
  refine ⟨_, _, _, _, step_writeIntinLow h, step_writeIntinHigh rfl, step_readIntinLow rfl, step_readIntinHigh rfl,
    ?_, ?_, ?_, fun _ => rfl, rfl, rfl, rfl, fun _ => rfl⟩
  · rw [hlow]
  · rw [hlow]
    exact congrArg some BitVec.extractLsb'_append_eq_right
  · exact congrArg some BitVec.extractLsb'_append_eq_left

/-! ## Reset (R41, R132) -/

/-- The reset image is the canonical S zero (R25, R41). -/
theorem VReg.reset_eq_zeroV (c : Params) : VReg.reset c = zeroV c .S := rfl

theorem VReg.trailer_reset (c : Params) : (VReg.reset c).trailer = 0 := by
  show precBit .S ++ 0#14 ++ BitVec.ofBool false ++ BitVec.ofBool false ++ BitVec.ofBool false ++ 0#14 = 0#32
  decide

theorem VReg.groupWord_reset (c : Params) (j : Nat) : (VReg.reset c).groupWord j = 0 := by
  have hslot : (List.replicate c.nX 0#16).getD j 0#16 = 0#16 := by
    rw [List.getD_eq_getElem?_getD, List.getElem?_getD_replicate_default_eq]
  rw [VReg.groupWord, VReg.reset, hslot]
  rfl

/-- Settles O55: every register is the reset image, whose words are 0, and nothing is written in TBUF. -/
theorem resetValues : Obligations.ResetValues := by
  refine ⟨fun k => ?_, rfl, rfl, rfl, fun _ => rfl⟩
  rw [State.reset, State.getV_powerOn]
  exact ⟨VReg.reset_eq_zeroV _, VReg.trailer_reset _, VReg.groupWord_reset _⟩

/-! ## The STATUS and CONFIG words (R28..R33, R37, R118) -/

/-- Each field of the STATUS word, the reserved ones included (R28). -/
structure StatusFields (t : Status) (d : Word) : Prop where
  outcome : d.extractLsb' 0 3 = t.outcome.code
  cmp : d.extractLsb' 3 2 = t.cmp.code
  test : d.getLsbD 5 = t.t
  zeroAt6 : d.extractLsb' 6 2 = 0
  fault : d.extractLsb' 8 4 = faultField t.fault
  zeroAt12 : d.extractLsb' 12 4 = 0
  len : d.extractLsb' 16 8 = t.len
  zeroAt24 : d.extractLsb' 24 8 = 0

theorem statusFields_word (t : Status) : StatusFields t t.word := by
  constructor
  case test => simp only [Status.word, BitVec.getLsbD_append]; simp
  all_goals
    refine BitVec.eq_of_getElem_eq fun i hi => ?_
    rw [BitVec.getElem_extractLsb', Status.word]
    simp only [BitVec.getLsbD_append]
    interval_cases i <;> simp

theorem RangeOutcome.code_mem (o : RangeOutcome) : (o, o.code) ∈ [(.ok, 0#3), (.posOverflow, 1#3), (.negOverflow, 2#3),
    (.posUnderflow, 3#3), (.negUnderflow, 4#3), (.syntaxError, 5#3)] := by
  cases o <;> decide

theorem CmpResult.code_mem (r : CmpResult) : (r, r.code) ∈ [(.eq, 0#2), (.lt, 1#2), (.gt, 2#2), (.un, 3#2)] := by
  cases r <;> decide

theorem faultField_mem (f : Option FaultCode) : (f, faultField f) ∈ [(none, 0#4), (some .illegalCmd, 1#4),
    (some .badOperand, 2#4), (some .badBuffer, 3#4)] := by
  rcases f with _ | f
  · decide
  · cases f <;> decide

/-- Concatenation as arithmetic. -/
theorem toNat_append_eq {m n : Nat} (x : BitVec m) (y : BitVec n) : (x ++ y).toNat = x.toNat * 2 ^ n + y.toNat := by
  rw [BitVec.toNat_append, ← Nat.shiftLeft_add_eq_or_of_lt y.isLt, Nat.shiftLeft_eq]

theorem config0Word_toNat (c : Params) (hv : c.valid = true) :
    (config0Word c).toNat = c.nreg * 2 ^ 24 + c.maxSig * 2 ^ 16 + c.nX * 2 ^ 8 + c.nS := by
  have V := paramFacts c hv
  have := V.nSX; have := V.nX; have := V.nreg; have := V.maxSig
  simp only [config0Word, toNat_append_eq, BitVec.toNat_ofNat]
  omega

theorem config1Word_toNat (c : Params) (hv : c.valid = true) (hd : c.maxParseDigits < 256) :
    (config1Word c).toNat = c.maxParseDigits * 2 ^ 16 + (c.tbufSize - 1) := by
  have := (paramFacts c hv).tbuf
  simp only [config1Word, toNat_append_eq, BitVec.toNat_ofNat]
  omega

/-- Settles O53, by the fields of the STATUS word and the two CONFIG words as numbers. -/
theorem statusAndConfigWords : Obligations.StatusAndConfigWords := by
  intro s rest hv hd
  refine ⟨fun h => ⟨_, _, step_readControl h rfl (by decide), rfl, ?_⟩,
    fun h => ⟨_, _, step_readControl h rfl (by decide), rfl, config0Word_toNat _ hv⟩,
    fun h => ⟨_, _, step_readControl h rfl (by decide), rfl, config1Word_toNat _ hv hd⟩⟩
  have F : StatusFields s.status (readTarget s (controlTarget 0x004)) := statusFields_word s.status
  refine ⟨?_, ?_, F.test, F.zeroAt6, ?_, F.zeroAt12, F.len, F.zeroAt24⟩
  · rw [F.outcome]; exact RangeOutcome.code_mem _
  · rw [F.cmp]; exact CmpResult.code_mem _
  · rw [F.fault]; exact faultField_mem _

/-! ## Register words (R17, R44) -/

theorem accessOk_register {off : Nat} (ha : off % 4 = 0) (h : off < 0x1000) : accessOk .word off = true :=
  (accessOk_iff .word off).2 ⟨rfl, ha, by omega⟩

section RegisterWords

variable {s : State} {k : RegId} {j : Nat} {w : Word} {rest : List HostAccess} (hv : s.cfg.valid = true)
  (hk : k.val < s.cfg.nreg)

include hv hk

theorem step_readGroup (hj : j < s.cfg.nX) (h : s.pending = .read .word (0x100 + 0x80 * k.val + 4 * j) :: rest) :
    step s = .next { s with pending := rest, rdata := some ((s.getV k).groupWord j) } := by
  have := (paramFacts _ hv).nX
  rw [step_read s _ _ rest h (accessOk_register (by omega) (by omega)), windowTarget_group _ hv k j hk hj]
  rfl

theorem step_writeGroup (hj : j < s.cfg.nX) (h : s.pending = .write .word (0x100 + 0x80 * k.val + 4 * j) w :: rest) :
    step s = .next (State.setV { s with pending := rest } k ((s.getV k).setGroupWord j w)) := by
  have := (paramFacts _ hv).nX
  rw [step_write s _ _ w rest h (accessOk_register (by omega) (by omega)), windowTarget_group _ hv k j hk hj]
  rfl

theorem step_readTrailer (h : s.pending = .read .word (0x100 + 0x80 * k.val + 0x7C) :: rest) :
    step s = .next { s with pending := rest, rdata := some (s.getV k).trailer } := by
  rw [step_read s _ _ rest h (accessOk_register (by omega) (by omega)), windowTarget_trailer _ hv k hk]
  rfl

theorem step_writeTrailer (h : s.pending = .write .word (0x100 + 0x80 * k.val + 0x7C) w :: rest) :
    step s = .next (State.setV { s with pending := rest } k ((s.getV k).setTrailer w)) := by
  rw [step_write s _ _ w rest h (accessOk_register (by omega) (by omega)), windowTarget_trailer _ hv k hk]
  rfl

end RegisterWords

/-- A register write alone changes that register and nothing else. -/
theorem setV_writes (s : State) (k : RegId) (x : VReg) : WritesResult s (s.setV k x) k (x, s.status.outcome) where
  value := State.getV_setV_self s k x
  others := fun j hj => State.getV_setV_ne s k j x hj
  status := rfl
  rest := ⟨rfl, rfl, fun _ => rfl, rfl, rfl⟩

theorem VReg.groupWord_low (x : VReg) (j : Nat) : (x.groupWord j).extractLsb' 0 16 = x.g.getD j 0 := by
  refine BitVec.eq_of_getElem_eq fun i hi => ?_
  have hi32 : i < 32 := by omega
  simp [VReg.groupWord, hi, hi32]

theorem VReg.groupWord_high (x : VReg) (j : Nat) : (x.groupWord j).extractLsb' 16 16 = 0 := by
  refine BitVec.eq_of_getElem_eq fun i hi => ?_
  simp [VReg.groupWord]

/-- What a write of group word j changes of a register image: slot j alone (R17). -/
theorem VReg.getD_setGroupWord (x : VReg) {j : Nat} (w : Word) (hj : j < x.g.length) :
    (x.setGroupWord j w).g.getD j 0 = w.extractLsb' 0 16 ∧
      ∀ i, i ≠ j → (x.setGroupWord j w).g.getD i 0 = x.g.getD i 0 := by
  constructor
  · simp [VReg.setGroupWord, hj, BitVec.setWidth_eq_extractLsb']
  · intro i hi
    simp [VReg.setGroupWord, List.getElem?_set_ne hi.symm]

/-- Each field of the trailer word, the reserved one included (R17). -/
structure TrailerFields (x : VReg) (d : Word) : Prop where
  exp : d.extractLsb' 0 14 = x.exp
  inf : d.getLsbD 14 = x.inf
  nan : d.getLsbD 15 = x.nan
  neg : d.getLsbD 16 = x.neg
  zeroAt17 : d.extractLsb' 17 14 = 0
  prec : d.getLsbD 31 = true ↔ x.prec = .X

theorem trailerFields_trailer (x : VReg) : TrailerFields x x.trailer := by
  constructor
  case inf | nan | neg => simp only [VReg.trailer, BitVec.getLsbD_append]; simp
  case prec => cases h : x.prec <;> simp only [VReg.trailer, BitVec.getLsbD_append, h] <;> simp [precBit]
  all_goals
    refine BitVec.eq_of_getElem_eq fun i hi => ?_
    rw [BitVec.getElem_extractLsb', VReg.trailer]
    simp only [BitVec.getLsbD_append]
    interval_cases i <;> simp

theorem VReg.prec_setTrailer (x : VReg) (w : Word) : (x.setTrailer w).prec = .X ↔ w.getLsbD 31 = true := by
  simp [VReg.setTrailer]

/-- Settles O48, by the step of each access to a register word and the fields of the word it moves. -/
theorem registerWordsReadBack : Obligations.RegisterWordsReadBack := by
  intro s k w rest hs hk
  have hv := hs.params
  have hslot {j : Nat} (hj : j < s.cfg.nX) : j < (s.getV k).g.length := (hs.slots k).symm ▸ hj
  refine ⟨fun j hj => ⟨fun h => ?_, fun h => ?_, fun h => ?_⟩, fun h => ?_, fun h => ?_, fun h => ?_⟩
  · exact ⟨_, step_readGroup hv hk hj h, VReg.groupWord_low _ _, VReg.groupWord_high _ _⟩
  · obtain ⟨hwritten, hkept⟩ := VReg.getD_setGroupWord (s.getV k) w (hslot hj)
    exact ⟨_, _, step_writeGroup hv hk hj h, setV_writes _ _ _, List.length_set, hwritten, hkept,
      rfl, rfl, rfl, rfl, rfl⟩
  · refine ⟨_, _, step_writeGroup hv hk hj h, step_readGroup hv hk hj rfl, ?_, fun k' => State.getV_setV_ne _ k k' _⟩
    show some (VReg.groupWord (State.getV (State.setV _ k _) k) j) = _
    rw [State.getV_setV_self, groupWord_setGroupWord _ _ _ (hslot hj)]
  · have F := trailerFields_trailer (s.getV k)
    exact ⟨_, step_readTrailer hv hk h, F.exp, F.inf, F.nan, F.neg, F.zeroAt17, F.prec⟩
  · refine ⟨_, _, step_writeTrailer hv hk h, setV_writes _ _ _, rfl, rfl, rfl, rfl, rfl, ?_⟩
    exact VReg.prec_setTrailer _ w
  · refine ⟨_, _, step_writeTrailer hv hk h, step_readTrailer hv hk rfl, ?_, fun k' => State.getV_setV_ne _ k k' _⟩
    show some (VReg.trailer (State.getV (State.setV _ k _) k)) = _
    rw [State.getV_setV_self, trailer_setTrailer]

/-! ## What a command can change, by its effect (R12, R38) -/

section Frame

variable {i : Instr} {s t : State} (h : Effect i s t)

include h

theorem Effect.getV_ne {k : RegId} (hk : i.rd? ≠ some k) : t.getV k = s.getV k := by
  cases h with
  | result p rd r _ hrd =>
    have hne : k ≠ rd := by rintro rfl; exact hk hrd
    exact (writeResult_writes s rd r).others k hne
  | copy rd ra hi =>
    have hne : k ≠ rd := by rintro rfl; subst hi; exact hk rfl
    exact State.getV_setV_ne s rd k _ hne
  | _ => rfl

theorem Effect.cmp_eq (hi : ∀ p ra rb, i ≠ .cmp p ra rb) : t.status.cmp = s.status.cmp := by
  cases h with
  | cmp p ra rb _ hcmp => exact absurd hcmp (hi p ra rb)
  | _ => rfl

theorem Effect.t_eq (hi : ∀ p ra, i ≠ .iszero p ra ∧ i ≠ .isinf p ra ∧ i ≠ .isnan p ra ∧ i ≠ .isint p ra) :
    t.status.t = s.status.t := by
  cases h with
  | test _ htest =>
    obtain ⟨p, ra, hi'⟩ := htest
    obtain ⟨hzero, hinf, hnan, hint⟩ := hi p ra
    rcases hi' with h | h | h | h <;> contradiction
  | _ => rfl

theorem Effect.text_eq (hi : ∀ p ra mode dig grp loc cap, i ≠ .fmt p ra mode dig grp loc cap) :
    t.status.len = s.status.len ∧ ∀ a, t.readByte a = s.readByte a := by
  cases h with
  | text p ra mode dig grp loc cap _ hfmt => exact absurd hfmt (hi p ra mode dig grp loc cap)
  | _ => exact ⟨rfl, fun _ => rfl⟩

theorem Effect.outcome_eq (hi : i.resultPrec = Option.none) : t.status.outcome = s.status.outcome := by
  cases h with
  | result p _ _ hp _ => rw [hi] at hp; cases hp
  | syntaxError p rd loc len hparse => subst hparse; cases hi
  | _ => rfl

theorem Effect.rest_eq : t.cfg = s.cfg ∧ t.intin = s.intin ∧ t.pending = s.pending ∧ t.rdata = s.rdata := by
  cases h <;> exact ⟨rfl, rfl, rfl, rfl⟩

end Frame

/-! ## Which faults a command raises (R67, R68) -/

/-- Where this outcome of the command is a next state with another fault code, the code has its cause: an operand that
is not well formed, or a CAP or LEN above TBUF_SIZE. -/
def FaultHasCause (i : Instr) (s : State) (o : StepResult) : Prop :=
  ∀ t, o = .next t → t.status.fault ≠ s.status.fault →
    (t.status.fault = some .badOperand ∧ ∃ q ∈ i.sources, (s.getV q.2).wf s.cfg q.1 = false) ∨
    (t.status.fault = some .badBuffer ∧ ∃ (p : Prec) (r : RegId) (mode : Mode) (dig : BitVec 4) (grp : Bool)
      (loc : Loc) (n : BitVec 8), (i = .fmt p r mode dig grp loc n ∨ i = .parse p r loc n) ∧
        s.cfg.tbufSize < n.toNat)

section Faults

variable {i : Instr} {s : State}

theorem faultHasCause_same {t : State} (h : t.status.fault = s.status.fault) : FaultHasCause i s (.next t) := by
  rintro _ ⟨⟩ hne
  exact absurd h hne

theorem faultHasCause_badOperand {p : Prec} {r : RegId} (hmem : (p, r) ∈ i.sources)
    (hwf : (s.getV r).wf s.cfg p = false) : FaultHasCause i s (.next (raiseFault s .badOperand)) := by
  rintro _ ⟨⟩ _
  exact .inl ⟨rfl, (p, r), hmem, hwf⟩

theorem faultHasCause_badBuffer {p : Prec} {r : RegId} {mode : Mode} {dig : BitVec 4} {grp : Bool} {loc : Loc}
    {n : BitVec 8} (hi : i = .fmt p r mode dig grp loc n ∨ i = .parse p r loc n) (hn : s.cfg.tbufSize < n.toNat) :
    FaultHasCause i s (.next (raiseFault s .badBuffer)) := by
  rintro _ ⟨⟩ _
  exact .inr ⟨rfl, p, r, mode, dig, grp, loc, n, hi, hn⟩

theorem faultHasCause_unaryOp {p : Prec} {rd ra : RegId} {f : VReg → Result} (ha : (p, ra) ∈ i.sources) :
    FaultHasCause i s (unaryOp p rd ra f s) := by
  rcases unaryOp_cases p rd ra f s with ⟨_, h⟩ | ⟨hwf, h⟩
  · rw [h]; exact faultHasCause_same rfl
  · rw [h]; exact faultHasCause_badOperand ha hwf

theorem faultHasCause_binaryOp {p : Prec} {rd ra rb : RegId} {f : VReg → VReg → Result} (ha : (p, ra) ∈ i.sources)
    (hb : (p, rb) ∈ i.sources) : FaultHasCause i s (binaryOp p rd ra rb f s) := by
  rcases binaryOp_cases p rd ra rb f s with ⟨_, _, h⟩ | ⟨hwf | hwf, h⟩
  · rw [h]; exact faultHasCause_same rfl
  · rw [h]; exact faultHasCause_badOperand ha hwf
  · rw [h]; exact faultHasCause_badOperand hb hwf

theorem faultHasCause_testOp {p : Prec} {ra : RegId} {f : VReg → Bool} (ha : (p, ra) ∈ i.sources) :
    FaultHasCause i s (testOp p ra f s) := by
  rcases testOp_cases p ra f s with ⟨_, h⟩ | ⟨hwf, h⟩
  · rw [h]; exact faultHasCause_same rfl
  · rw [h]; exact faultHasCause_badOperand ha hwf

theorem faultHasCause_execCmp (p : Prec) (ra rb : RegId) : FaultHasCause (.cmp p ra rb) s (execCmp p ra rb s) := by
  rcases execCmp_cases p ra rb s with ⟨_, _, h⟩ | ⟨hwf | hwf, h⟩
  · rw [h]; exact faultHasCause_same rfl
  · rw [h]; exact faultHasCause_badOperand (List.mem_cons_self ..) hwf
  · rw [h]; exact faultHasCause_badOperand (List.mem_cons_of_mem _ (List.mem_cons_self ..)) hwf

theorem faultHasCause_execFmt (p : Prec) (ra : RegId) (mode : Mode) (dig : BitVec 4) (grp : Bool) (loc : Loc)
    (cap : BitVec 8) : FaultHasCause (.fmt p ra mode dig grp loc cap) s (execFmt p ra mode dig grp loc cap s) := by
  rcases execFmt_cases p ra mode dig grp loc cap s with ⟨_, _, h⟩ | ⟨_, hcap, h⟩ | ⟨hwf, h⟩
  · rw [h]; exact faultHasCause_same rfl
  · rw [h]; exact faultHasCause_badBuffer (.inl rfl) hcap
  · rw [h]; exact faultHasCause_badOperand (List.mem_cons_self ..) hwf

theorem writeParsed_fault (rd : RegId) (r : Option Result) (s : State) :
    (writeParsed rd r s).status.fault = s.status.fault := by
  cases r <;> rfl

theorem faultHasCause_execParse (p : Prec) (rd : RegId) (loc : Loc) (len : BitVec 8) :
    FaultHasCause (.parse p rd loc len) s (execParse p rd loc len s) := by
  rcases execParse_cases p rd loc len s with ⟨_, h⟩ | ⟨hlen, h⟩
  · rw [h]; exact faultHasCause_same (writeParsed_fault rd _ s)
  · rw [h]; exact faultHasCause_badBuffer (mode := .fix) (dig := 0) (grp := false) (.inr rfl) hlen

theorem faultHasCause_exec (i : Instr) (s : State) : FaultHasCause i s (exec i s) := by
  have hfirst {q : Prec × RegId} {l : List (Prec × RegId)} : q ∈ q :: l := List.mem_cons_self ..
  have hsecond {q q' : Prec × RegId} : q ∈ [q', q] := List.mem_cons_of_mem _ (List.mem_cons_self ..)
  cases i with
  | nop => exact faultHasCause_same rfl
  | add => exact faultHasCause_binaryOp hfirst hsecond
  | sub => exact faultHasCause_binaryOp hfirst hsecond
  | mul => exact faultHasCause_binaryOp hfirst hsecond
  | div => exact faultHasCause_binaryOp hfirst hsecond
  | sqrt => exact faultHasCause_unaryOp hfirst
  | cmp p ra rb => exact faultHasCause_execCmp p ra rb
  | floor => exact faultHasCause_unaryOp hfirst
  | trunc => exact faultHasCause_unaryOp hfirst
  | neg => exact faultHasCause_unaryOp hfirst
  | iszero => exact faultHasCause_testOp hfirst
  | isinf => exact faultHasCause_testOp hfirst
  | isnan => exact faultHasCause_testOp hfirst
  | isint p => exact faultHasCause_testOp (f := fun x => x.isFinite && x.isInteger (groupCount s.cfg p)) hfirst
  | mov => exact faultHasCause_same rfl
  | ldi => exact faultHasCause_same rfl
  | cvti => exact faultHasCause_same rfl
  | cvtsx => exact faultHasCause_unaryOp hfirst
  | cvtxs => exact faultHasCause_unaryOp hfirst
  | fmt p ra mode dig grp loc cap => exact faultHasCause_execFmt p ra mode dig grp loc cap
  | parse p rd loc len => exact faultHasCause_execParse p rd loc len

end Faults

/-- Settles O40: the frame by the command's effect, the fault codes by its checks. -/
theorem commandFrame : Obligations.CommandFrame := by
  intro i s t ht
  obtain ⟨u, hu, heffect⟩ := exec_effect i s
  obtain rfl : u = t := by rw [hu] at ht; cases ht; rfl
  exact ⟨fun _ => heffect.getV_ne, heffect.cmp_eq, heffect.t_eq, heffect.text_eq, heffect.outcome_eq,
    faultHasCause_exec i s u ht, heffect.rest_eq⟩

/-! ## ROUND_p of a square root (R80) -/

theorem natSqrt_floor {r : ℝ} (hr : 0 ≤ r) : Nat.sqrt ⌊r⌋₊ = ⌊Real.sqrt r⌋₊ :=
  eq_of_forall_le_iff fun n => by
    calc n ≤ Nat.sqrt ⌊r⌋₊ ↔ n * n ≤ ⌊r⌋₊ := Nat.le_sqrt
      _ ↔ ((n * n : Nat) : ℝ) ≤ r := Nat.le_floor_iff hr
      _ ↔ (n : ℝ) ≤ Real.sqrt r := by rw [Real.le_sqrt (Nat.cast_nonneg n) hr, sq, Nat.cast_mul]
      _ ↔ n ≤ ⌊Real.sqrt r⌋₊ := (Nat.le_floor_iff (Real.sqrt_nonneg r)).symm

/-- The integer logarithm of a root is half that of the number, rounded down. -/
theorem log_sqrt {r : ℝ} (hr : 0 < r) : Int.log 10000 (Real.sqrt r) = Int.log 10000 r / 2 := by
  have hlow := Int.zpow_log_le_self (b := 10000) (by norm_num) hr
  have hhigh := Int.lt_zpow_succ_log_self (b := 10000) (by norm_num) r
  set l := Int.log 10000 r
  have hsq (e : Int) : (((10000 : Nat) : ℝ) ^ e) ^ 2 = ((10000 : Nat) : ℝ) ^ (2 * e) := by
    rw [← zpow_natCast, ← zpow_mul, mul_comm e]
    rfl
  refine log_unique 10000 (by norm_num) _ (Real.sqrt_pos.2 hr) _ ?_ ?_
  · rw [Real.le_sqrt (by positivity) hr.le, hsq]
    exact (zpow_le_zpow_right₀ (by norm_num) (by omega)).trans hlow
  · rw [Real.sqrt_lt' (by positivity), hsq]
    exact hhigh.trans_le (zpow_le_zpow_right₀ (by norm_num) (by omega))

theorem sqrt_mul_zpow {r : ℝ} (hr : 0 ≤ r) (t : Int) :
    Real.sqrt (r * (10000 : ℝ) ^ (2 * t)) = Real.sqrt r * (10000 : ℝ) ^ t := by
  have hsq : (10000 : ℝ) ^ (2 * t) = ((10000 : ℝ) ^ t) ^ 2 := by rw [two_mul, zpow_add₀ (by norm_num), sq]
  rw [Real.sqrt_mul hr, hsq, Real.sqrt_sq (by positivity)]

/-- The integer root of R80 is ROUND_p of the real root. -/
theorem roundRoot_eq_roundReal (c : Params) (p : Prec) (m : Nat) (k : Int) (hm : m ≠ 0) :
    roundRoot c p m k = roundReal c p (Real.sqrt ((m : ℝ) * (10000 : ℝ) ^ k)) := by
  have hm0 : (0 : ℝ) < m := by positivity
  have hpos : (0 : ℝ) < (m : ℝ) * (10000 : ℝ) ^ k := by positivity
  have hlog : Int.log 10000 (Real.sqrt ((m : ℝ) * (10000 : ℝ) ^ k)) = (k + ilog base m) / 2 := by
    have hscale : Int.log 10000 ((m : ℝ) * (10000 : ℝ) ^ k) = Int.log 10000 (m : ℝ) + k := by
      simpa using log_mul_zpow 10000 (by norm_num) (m : ℝ) hm0 k
    rw [log_sqrt hpos, hscale, Int.log_natCast, ilog_eq_log base one_lt_base, base_eq, add_comm]
  have hsign : decide (Real.sqrt ((m : ℝ) * (10000 : ℝ) ^ k) < 0) = false :=
    decide_eq_false (Real.sqrt_nonneg _).not_gt
  have hfloor (t : Int) : isqrt (floorScaled base m 1 (k + 2 * t)) =
      ⌊Real.sqrt ((m : ℝ) * (10000 : ℝ) ^ k) * (10000 : ℝ) ^ t⌋.toNat := by
    rw [isqrt_eq_sqrt, floorScaled_eq_floor base m 1 one_lt_base, Int.floor_toNat, Int.floor_toNat, base_cast,
      Nat.cast_one, div_one, zpow_add₀ (by norm_num), ← mul_assoc, natSqrt_floor (by positivity),
      sqrt_mul_zpow hpos.le]
  rw [roundReal_eq, hsign, abs_of_nonneg (Real.sqrt_nonneg _), hlog, ← hfloor]
  rfl

/-! ## Every result is canonical (R25) -/

/-- A case split of the spec gives a canonical image when both of its cases do. -/
theorem canonical_ite {c : Params} {p : Prec} {P : Prop} [Decidable P] {r r' : Result}
    (h : P → r.1.canonical c p = true) (h' : ¬P → r'.1.canonical c p = true) :
    (if P then r else r').1.canonical c p = true := by
  split
  · next hP => exact h hP
  · next hP => exact h' hP

/-- The same for a case split between two images. -/
theorem canonical_ite_image {c : Params} {p : Prec} {P : Prop} [Decidable P] {x x' : VReg}
    (h : x.canonical c p = true) (h' : x'.canonical c p = true) : (if P then x else x').canonical c p = true := by
  split
  · exact h
  · exact h'

theorem VReg.isFinite_of_not {x : VReg} (hn : ¬x.isNaN = true) (hi : ¬x.isInf = true) : x.isFinite = true := by
  simp_all [VReg.isNaN, VReg.isInf, VReg.isFinite]

theorem VReg.sig_ne_zero_of_not {n : Nat} {x : VReg} (hn : ¬x.isNaN = true) (hi : ¬x.isInf = true)
    (hz : ¬x.isZero n = true) : x.sig n ≠ 0 :=
  VReg.sig_ne_zero n x (VReg.isFinite_of_not hn hi) (eq_false_of_ne_true hz)

theorem ne_true_of_or_ne_true {a b : Bool} (h : ¬(a || b) = true) : ¬a = true ∧ ¬b = true := by
  simpa using h

section Results

variable {c : Params} (hv : c.valid = true) (p : Prec)

include hv

theorem canonical_roundRoot (m : Nat) (k : Int) (hm : m ≠ 0) : (roundRoot c p m k).1.canonical c p = true := by
  rw [roundRoot_eq_roundReal c p m k hm]
  exact canonical_roundReal c hv p _ (by positivity)

theorem canonical_roundInt (z : Int) : (roundInt c p z).1.canonical c p = true :=
  canonical_ite (fun _ => canonical_zeroV c p)
    fun hz => canonical_roundScaled c hv p _ _ 1 _ (Int.natAbs_ne_zero.2 hz) one_ne_zero

theorem canonical_addOrdered (l : VReg) (sl : Bool) (s : VReg) (ss : Bool) :
    (addOrdered c p l sl s ss).1.canonical c p = true :=
  canonical_ite (fun _ => canonical_zeroV c p) fun ht => canonical_roundScaled c hv p sl _ 1 _ ht one_ne_zero

theorem canonical_integerResult (neg : Bool) (z : Nat × Int) : (integerResult c p neg z).1.canonical c p = true :=
  canonical_ite (fun _ => canonical_zeroV c p) fun hz => canonical_roundScaled c hv p neg _ 1 _ hz one_ne_zero

theorem canonical_numberResult (q : NumberParts) : (numberResult c p q).1.canonical c p = true :=
  canonical_ite (fun _ => canonical_zeroV c p)
    fun hm => canonical_roundScaled c hv p _ _ 1 _ (Nat.mul_ne_zero hm (by positivity)) one_ne_zero

theorem canonical_parseText {loc : Loc} {t : Text} {r : Result} (h : parseText c p loc t = some r) :
    r.1.canonical c p = true := by
  unfold parseText at h
  split at h
  · cases h
  · split at h
    · cases h
    · cases h
      exact canonical_numberResult hv p _

theorem canonical_addSigned {x y : VReg} (hx : x.wf c p = true) (hy : y.wf c p = true) (sy : Bool) :
    (addSigned c p x y sy).1.canonical c p = true :=
  canonical_ite (fun _ => canonical_nanV c p) fun hnan =>
  canonical_ite (fun _ => canonical_ite_image (canonical_infV c p _) (canonical_nanV c p)) fun _ =>
  canonical_ite (fun _ => canonical_infV c p _) fun hxi =>
  canonical_ite (fun _ => canonical_infV c p _) fun hyi =>
  have hn := ne_true_of_or_ne_true hnan
  canonical_ite (fun _ => canonical_zeroV c p) fun hzz =>
  canonical_ite (fun hyz => canonical_copyFinite c hv p p x _ le_rfl hx (VReg.isFinite_of_not hn.1 hxi)
    (by simpa [hyz] using hzz)) fun hyz =>
  canonical_ite (fun _ => canonical_copyFinite c hv p p y _ le_rfl hy (VReg.isFinite_of_not hn.2 hyi)
    (eq_false_of_ne_true hyz)) fun _ =>
  canonical_ite (fun _ => canonical_addOrdered hv p _ _ _ _) fun _ => canonical_addOrdered hv p _ _ _ _

theorem canonical_mulV (x y : VReg) : (mulV c p x y).1.canonical c p = true :=
  canonical_ite (fun _ => canonical_nanV c p) fun hnan =>
  canonical_ite (fun _ => canonical_ite_image (canonical_nanV c p) (canonical_infV c p _)) fun hinf =>
  canonical_ite (fun _ => canonical_zeroV c p) fun hzero =>
  have hn := ne_true_of_or_ne_true hnan
  have hi := ne_true_of_or_ne_true hinf
  have hz := ne_true_of_or_ne_true hzero
  canonical_roundScaled c hv p _ _ 1 _
    (Nat.mul_ne_zero (VReg.sig_ne_zero_of_not hn.1 hi.1 hz.1) (VReg.sig_ne_zero_of_not hn.2 hi.2 hz.2)) one_ne_zero

theorem canonical_divV (x y : VReg) : (divV c p x y).1.canonical c p = true :=
  canonical_ite (fun _ => canonical_nanV c p) fun hnan =>
  canonical_ite (fun _ => canonical_nanV c p) fun _ =>
  canonical_ite (fun _ => canonical_infV c p _) fun hxi =>
  canonical_ite (fun _ => canonical_zeroV c p) fun hyi =>
  canonical_ite (fun _ => canonical_ite_image (canonical_nanV c p) (canonical_infV c p _)) fun hyz =>
  canonical_ite (fun _ => canonical_zeroV c p) fun hxz =>
  have hn := ne_true_of_or_ne_true hnan
  canonical_roundScaled c hv p _ _ _ _ (VReg.sig_ne_zero_of_not hn.1 hxi hxz) (VReg.sig_ne_zero_of_not hn.2 hyi hyz)

theorem canonical_sqrtV (x : VReg) : (sqrtV c p x).1.canonical c p = true :=
  canonical_ite (fun _ => canonical_nanV c p) fun hn =>
  canonical_ite (fun _ => canonical_ite_image (canonical_nanV c p) (canonical_infV c p _)) fun hi =>
  canonical_ite (fun _ => canonical_zeroV c p) fun hz =>
  canonical_ite (fun _ => canonical_nanV c p) fun _ =>
  canonical_roundRoot hv p _ _ (VReg.sig_ne_zero_of_not hn hi hz)

theorem canonical_floorV (x : VReg) : (floorV c p x).1.canonical c p = true :=
  canonical_ite (fun _ => canonical_nanV c p) fun _ =>
  canonical_ite (fun _ => canonical_infV c p _) fun _ =>
  canonical_ite (fun _ => canonical_zeroV c p) fun _ => canonical_integerResult hv p _ _

theorem canonical_truncV (x : VReg) : (truncV c p x).1.canonical c p = true :=
  canonical_ite (fun _ => canonical_nanV c p) fun _ =>
  canonical_ite (fun _ => canonical_infV c p _) fun _ =>
  canonical_ite (fun _ => canonical_zeroV c p) fun _ => canonical_integerResult hv p _ _

theorem canonical_negV {x : VReg} (hx : x.wf c p = true) : (negV c p x).1.canonical c p = true :=
  canonical_ite (fun _ => canonical_nanV c p) fun hn =>
  canonical_ite (fun _ => canonical_infV c p _) fun hi =>
  canonical_ite (fun _ => canonical_zeroV c p) fun hz =>
  canonical_copyFinite c hv p p x _ le_rfl hx (VReg.isFinite_of_not hn hi) (eq_false_of_ne_true hz)

theorem canonical_widenV {x : VReg} (hx : x.wf c .S = true) : (widenV c x).1.canonical c .X = true :=
  canonical_ite (fun _ => canonical_nanV c .X) fun hn =>
  canonical_ite (fun _ => canonical_infV c .X _) fun hi =>
  canonical_ite (fun _ => canonical_zeroV c .X) fun hz =>
  canonical_copyFinite c hv .S .X x _ (groupCount_le c hv .S) hx (VReg.isFinite_of_not hn hi) (eq_false_of_ne_true hz)

theorem canonical_narrowV (x : VReg) : (narrowV c x).1.canonical c .S = true :=
  canonical_ite (fun _ => canonical_nanV c .S) fun hn =>
  canonical_ite (fun _ => canonical_infV c .S _) fun hi =>
  canonical_ite (fun _ => canonical_zeroV c .S) fun hz =>
  canonical_roundScaled c hv .S _ _ 1 _ (VReg.sig_ne_zero_of_not hn hi hz) one_ne_zero

end Results

/-! ## Every command writes a canonical result (R25, R69) -/

/-- Where this outcome is a next state with no fault pending and no SYNTAX_ERROR, it leaves a canonical image of
precision `p` in V[rd]. -/
def WritesCanonical (c : Params) (p : Prec) (rd : RegId) (r : StepResult) : Prop :=
  ∀ t, r = .next t → t.status.fault = none → t.status.outcome ≠ .syntaxError → (t.getV rd).canonical c p = true

section Commands

variable {s : State} {c : Params} {q : Prec} {rd : RegId}

theorem writesCanonical_result {r : Result} (h : r.1.canonical c q = true) :
    WritesCanonical c q rd (.next (writeResult rd r s)) := by
  rintro _ ⟨⟩ _ _
  rw [(writeResult_writes s rd r).value]
  exact h

theorem writesCanonical_fault (f : FaultCode) : WritesCanonical c q rd (.next (raiseFault s f)) := by
  rintro _ ⟨⟩ ⟨⟩

theorem writesCanonical_unaryOp {p : Prec} {ra : RegId} {f : VReg → Result}
    (hf : ∀ x, x.wf s.cfg p = true → (f x).1.canonical c q = true) : WritesCanonical c q rd (unaryOp p rd ra f s) := by
  rcases unaryOp_cases p rd ra f s with ⟨hx, h⟩ | ⟨_, h⟩
  · rw [h]; exact writesCanonical_result (hf _ hx)
  · rw [h]; exact writesCanonical_fault _

theorem writesCanonical_binaryOp {p : Prec} {ra rb : RegId} {f : VReg → VReg → Result}
    (hf : ∀ x y, x.wf s.cfg p = true → y.wf s.cfg p = true → (f x y).1.canonical c q = true) :
    WritesCanonical c q rd (binaryOp p rd ra rb f s) := by
  rcases binaryOp_cases p rd ra rb f s with ⟨hx, hy, h⟩ | ⟨_, h⟩
  · rw [h]; exact writesCanonical_result (hf _ _ hx hy)
  · rw [h]; exact writesCanonical_fault _

end Commands

theorem writesCanonical_execParse {s : State} (hv : s.cfg.valid = true) (p : Prec) (rd : RegId) (loc : Loc)
    (len : BitVec 8) : WritesCanonical s.cfg p rd (execParse p rd loc len s) := by
  rcases execParse_cases p rd loc len s with ⟨_, h⟩ | ⟨_, h⟩
  · rw [h]
    cases hr : parseText s.cfg p loc (s.memRead 0 len.toNat) with
    | none =>
      rintro _ ⟨⟩ _ hne
      exact absurd rfl hne
    | some r => exact writesCanonical_result (canonical_parseText hv p hr)
  · rw [h]; exact writesCanonical_fault _

/-- The commands of R25, one by one; the others write no value. -/
theorem writesCanonical_exec {s : State} (hv : s.cfg.valid = true) : ∀ (i : Instr) (p : Prec) (rd : RegId),
    i.resultPrec = some p → i.rd? = some rd → WritesCanonical s.cfg p rd (exec i s)
  | .add p _ _ _, _, _, rfl, rfl => writesCanonical_binaryOp fun _ _ hx hy => canonical_addSigned hv p hx hy _
  | .sub p _ _ _, _, _, rfl, rfl => writesCanonical_binaryOp fun _ _ hx hy => canonical_addSigned hv p hx hy _
  | .mul p _ _ _, _, _, rfl, rfl => writesCanonical_binaryOp fun x y _ _ => canonical_mulV hv p x y
  | .div p _ _ _, _, _, rfl, rfl => writesCanonical_binaryOp fun x y _ _ => canonical_divV hv p x y
  | .sqrt p _ _, _, _, rfl, rfl => writesCanonical_unaryOp fun x _ => canonical_sqrtV hv p x
  | .floor p _ _, _, _, rfl, rfl => writesCanonical_unaryOp fun x _ => canonical_floorV hv p x
  | .trunc p _ _, _, _, rfl, rfl => writesCanonical_unaryOp fun x _ => canonical_truncV hv p x
  | .neg p _ _, _, _, rfl, rfl => writesCanonical_unaryOp fun _ hx => canonical_negV hv p hx
  | .ldi p _ _, _, _, rfl, rfl => writesCanonical_result (canonical_roundInt hv p _)
  | .cvti p _, _, _, rfl, rfl => writesCanonical_result (canonical_roundInt hv p _)
  | .cvtsx _ _, _, _, rfl, rfl => writesCanonical_unaryOp fun _ hx => canonical_widenV hv hx
  | .cvtxs _ _, _, _, rfl, rfl => writesCanonical_unaryOp fun x _ => canonical_narrowV hv x
  | .parse p rd loc len, _, _, rfl, rfl => writesCanonical_execParse hv p rd loc len

/-! ## A canonical image, field by field (R25) -/

theorem VReg.groupAt_of_length_le {x : VReg} {j : Nat} (h : x.g.length ≤ j) : x.groupAt j = 0 := by
  rw [VReg.groupAt, List.getD_eq_default _ _ h]
  rfl

/-- A canonical image is a special value or the zero, with nothing stored but PREC, the bit that names it and an
Infinity's sign, or a finite value with a nonzero leading group. -/
theorem VReg.canonical_cases {c : Params} {p : Prec} {x : VReg} (h : x.canonical c p = true) :
    (∃ neg inf nan, x = mkImage c p [] 0 neg inf nan ∧ ¬ (nan = true ∧ inf = true) ∧
      (nan = true ∨ inf = false → neg = false)) ∨
    (x.prec = p ∧ x.isFinite = true ∧ x.g.length = c.nX ∧ x.groupAt 0 ≠ 0) := by
  simp only [VReg.canonical, Bool.or_eq_true, Bool.and_eq_true, beq_iff_eq, bne_iff_ne] at h
  rcases h with ((h | h) | h) | ⟨⟨⟨⟨hp, hf⟩, hl⟩, _⟩, h0⟩
  · exact .inl ⟨_, _, _, h, by decide, fun _ => rfl⟩
  · exact .inl ⟨_, _, _, h, by decide, fun _ => rfl⟩
  · exact .inl ⟨_, _, _, h, by decide, by simp⟩
  · exact .inr ⟨hp, hf, hl, h0⟩

/-- What R25 says of a finite nonzero image beside its leading group. -/
theorem VReg.canonical_finite {c : Params} (hv : c.valid = true) {p : Prec} {x : VReg} (hw : x.wf c p = true)
    (hf : x.isFinite = true) (hl : x.g.length = c.nX) (h0 : x.groupAt 0 ≠ 0) :
    (∀ j < groupCount c p, x.groupAt j ≤ 9999) ∧ (∀ j, groupCount c p ≤ j → x.groupAt j = 0) ∧
      c.expMin ≤ x.exp.toInt ∧ x.exp.toInt ≤ c.expMax := by
  obtain ⟨_, hlt, hrest, hrange⟩ := VReg.wf_finite c p x hw hf
  refine ⟨fun j hj => Nat.le_of_lt_succ (hlt j hj), fun j hj => ?_, ?_⟩
  · by_cases hslot : j < c.nX
    · exact hrest j hj hslot
    · exact VReg.groupAt_of_length_le (by omega)
  · rcases hrange with hz | ⟨_, hmin, hmax⟩
    · exact absurd ((VReg.groupsZero_iff _ _).1 hz 0 (groupCount_pos c hv p)) h0
    · exact ⟨hmin, hmax⟩

/-- Settles O8: every case of every command writes a canonical image, which is read off field by field. -/
theorem resultsCanonical : Obligations.ResultsCanonical := by
  intro i s t p rd hv hp hrd ht hfault hsyntax
  have hc := writesCanonical_exec hv i p rd hp hrd t ht hfault hsyntax
  have hw := wf_of_canonical s.cfg p _ hc
  dsimp only
  generalize t.getV rd = x at hc hw
  rcases VReg.canonical_cases hc with ⟨neg, inf, nan, rfl, hbits, hneg⟩ | ⟨hprec, hf, hl, h0⟩
  · have hG := groupAt_mkImage s.cfg p [] 0 neg inf nan (by simp)
    exact ⟨rfl, hbits, fun _ => ⟨rfl, hG⟩, fun h => hneg (h.imp_right And.left), fun h => absurd (hG 0) h, hc, hw⟩
  · have hbits : x.nan = false ∧ x.inf = false := by simpa [VReg.isFinite] using hf
    obtain ⟨hnan, hinf⟩ := hbits
    refine ⟨hprec, ?_, ?_, ?_, fun _ => VReg.canonical_finite hv hw hf hl h0, hc, hw⟩
    · simp [hnan]
    · simp [hnan, hinf, h0]
    · simp [hnan, h0]

end Sys2Proof.Machine
end

section
/-! PROOFS. The statements of spec/20_memory.md: the words of TBUF, reserved words and the registers that ignore a write
or read 0, reads without a side effect, refused accesses, and runs of admitted accesses. -/

namespace Sys2Proof.Machine

open Config (Params)

/-! ## The words of TBUF (R45, R47) -/

theorem wordBytes_append (b₃ b₂ b₁ b₀ : Byte) : wordBytes (b₃ ++ b₂ ++ b₁ ++ b₀) = [b₀, b₁, b₂, b₃] := by
  simp only [wordBytes, List.cons.injEq, and_true]
  refine ⟨?_, ?_, ?_, ?_⟩
  all_goals
    refine BitVec.eq_of_getElem_eq fun i hi => ?_
    rw [BitVec.getElem_extractLsb']
    simp only [BitVec.getLsbD_append]
    interval_cases i <;> simp

/-- The bytes of the word a read returns are the four bytes of TBUF, in their order. -/
theorem wordBytes_readTextWord (s : State) (a : Nat) : wordBytes (s.readTextWord a) = s.memRead a 4 :=
  wordBytes_append _ _ _ _

/-- A word whose four bytes stand in TBUF, byte by byte (R45). -/
theorem wordBytes_eq_memRead {s : State} {a : Nat} {w : Word} (h : wordBytes w = s.memRead a 4) :
    s.readByte a = w.extractLsb' 0 8 ∧ s.readByte (a + 1) = w.extractLsb' 8 8 ∧
      s.readByte (a + 2) = w.extractLsb' 16 8 ∧ s.readByte (a + 3) = w.extractLsb' 24 8 := by
  injection h with h0 h
  injection h with h1 h
  injection h with h2 h
  injection h with h3 _
  exact ⟨h0.symm, h1.symm, h2.symm, h3.symm⟩

theorem State.memRead_memWrite (s : State) (a : Nat) (t : Text) : (s.memWrite a t).memRead a t.length = t := by
  refine List.ext_getElem (by simp [State.memRead]) fun i hi _ => ?_
  have hlt : i < t.length := by simpa [State.memRead] using hi
  simp [State.memRead, State.readByte_memWrite, hlt]

theorem State.readByte_memWrite_outside (s : State) {a y : Nat} {t : Text} (hy : y < a ∨ a + t.length ≤ y) :
    (s.memWrite a t).readByte y = s.readByte y := by
  rw [State.readByte_memWrite, dif_neg (by omega)]

section TextWords

variable {s : State} {a : Nat} {w : Word} {rest : List HostAccess} (hv : s.cfg.valid = true) (haligned : a % 4 = 0)
  (ha : a < s.cfg.tbufSize)

include hv haligned ha

theorem accessOk_text : accessOk .word (0x1000 + a) = true := by
  have := (paramFacts _ hv).tbuf
  exact (accessOk_iff _ _).2 ⟨rfl, by omega, by omega⟩

theorem step_readText (h : s.pending = .read .word (0x1000 + a) :: rest) :
    step s = .next { s with pending := rest, rdata := some (s.readTextWord a) } := by
  rw [step_read s _ _ rest h (accessOk_text hv haligned ha), windowTarget_text _ a ha]
  rfl

theorem step_writeText (h : s.pending = .write .word (0x1000 + a) w :: rest) :
    step s = .next (State.memWrite { s with pending := rest } a (wordBytes w)) := by
  rw [step_write s _ _ w rest h (accessOk_text hv haligned ha), windowTarget_text _ a ha]
  rfl

end TextWords

/-- Settles O49: the bytes of the word read are the four bytes of TBUF, and after a write the four bytes of TBUF are
those of the word. -/
theorem textWordsLittleEndian : Obligations.TextWordsLittleEndian := by
  intro s m w rest hv hm
  have haligned : 4 * m % 4 = 0 := Nat.mul_mod_right 4 m
  refine ⟨fun h => ⟨_, _, step_readText hv haligned hm h, rfl, ?_⟩,
    fun h => ⟨_, step_writeText hv haligned hm h, ?_⟩⟩
  · obtain ⟨h0, h1, h2, h3⟩ := wordBytes_eq_memRead (wordBytes_readTextWord s (4 * m))
    exact ⟨h0.symm, h1.symm, h2.symm, h3.symm⟩
  · obtain ⟨h0, h1, h2, h3⟩ := wordBytes_eq_memRead (State.memRead_memWrite { s with pending := rest } (4 * m)
      (wordBytes w)).symm
    exact ⟨h0, h1, h2, h3, fun y hy => State.readByte_memWrite_outside _ hy, fun _ => rfl, rfl, rfl, rfl, rfl⟩

/-! ## Reserved words (R43, R46) -/

theorem controlTarget_reserved {off : Nat} (h : 0x01C ≤ off) : controlTarget off = .reserved := by
  unfold controlTarget
  rw [if_neg (by omega), if_neg (by omega), if_neg (by omega), if_neg (by omega), if_neg (by omega), if_neg (by omega),
    if_neg (by omega)]

theorem registerTarget_absent {c : Params} {k : Nat} (h : c.nreg ≤ k) (j : Nat) :
    registerTarget c k j = .reserved := by
  simp [registerTarget, h]

theorem registerTarget_noSlot {c : Params} {j : Nat} (hX : c.nX ≤ j) (h31 : j ≠ 31) (k : Nat) :
    registerTarget c k j = .reserved := by
  simp [registerTarget, Nat.not_lt.2 hX, h31]

/-- The reserved words of the map: after CONFIG1, absent registers, the end of the TBUF window, and the slots N_X..30 of
a register (R43, R44, R45). -/
def ReservedOffset (c : Params) (off : Nat) : Prop :=
  (0x01C ≤ off ∧ off < 0x100) ∨ (0x100 + 0x80 * c.nreg ≤ off ∧ off < 0x1000) ∨ 0x1000 + c.tbufSize ≤ off ∨
    (0x100 ≤ off ∧ off < 0x1000 ∧ 4 * c.nX ≤ (off - 0x100) % 0x80 ∧ (off - 0x100) % 0x80 < 0x7C)

theorem windowTarget_reserved {c : Params} {off : Nat} (h : ReservedOffset c off) :
    windowTarget c off = .reserved := by
  unfold windowTarget
  rcases h with ⟨hlo, hhi⟩ | ⟨hlo, hhi⟩ | hlo | ⟨hlo, hhi, hslot, htrailer⟩
  · rw [if_pos hhi]
    exact controlTarget_reserved hlo
  · rw [if_neg (by omega), if_pos hhi]
    exact registerTarget_absent (by omega) _
  · rw [if_neg (by omega), if_neg (by omega), if_neg (by omega)]
  · rw [if_neg (by omega), if_pos hhi]
    exact registerTarget_noSlot (by omega) (by omega) _

/-- Settles O52: the targets that ignore a write, and those that read 0. -/
theorem reservedWords : Obligations.ReservedWords := by
  intro s off w rest _ haligned hoff reserved
  have hok : accessOk .word off = true := (accessOk_iff _ _).2 ⟨rfl, haligned, hoff⟩
  constructor
  · rintro (hres | rfl | rfl | rfl) h
    · rw [step_write s _ _ w rest h hok, windowTarget_reserved hres]
      rfl
    · exact step_writeControl h rfl (by decide)
    · exact step_writeControl h rfl (by decide)
    · exact step_writeControl h rfl (by decide)
  · rintro (hres | rfl | rfl) h
    · rw [step_read s _ _ rest h hok, windowTarget_reserved hres]
      rfl
    · exact step_readControl h rfl (by decide)
    · exact step_readControl h rfl (by decide)

/-! ## Runs of admitted accesses (R48, R50, R119) -/

/-- This outcome is a next state, with the parameters and the host's further accesses of `s`. -/
def GoesOn (s : State) (r : StepResult) : Prop := ∃ t, r = .next t ∧ t.cfg = s.cfg ∧ t.pending = s.pending

theorem goesOn_next {s t : State} (hcfg : t.cfg = s.cfg) (hp : t.pending = s.pending) : GoesOn s (.next t) :=
  ⟨t, rfl, hcfg, hp⟩

theorem goesOn_exec (i : Instr) (s : State) : GoesOn s (exec i s) := by
  obtain ⟨t, ht, heffect⟩ := exec_effect i s
  obtain ⟨hcfg, _, hp, _⟩ := heffect.rest_eq
  exact ⟨t, ht, hcfg, hp⟩

theorem goesOn_issue (w : Word) (s : State) : GoesOn s (issue w s) := by
  unfold issue
  split
  · exact goesOn_next rfl rfl
  · split
    · exact goesOn_next rfl rfl
    · next i _ => exact goesOn_exec i s

theorem goesOn_writeCtrl (w : Word) (s : State) : GoesOn s (.next (writeCtrl w s)) := by
  unfold writeCtrl
  split
  · exact goesOn_next rfl rfl
  · split
    · exact goesOn_next rfl rfl
    · exact goesOn_next rfl rfl

theorem goesOn_writeTarget (s : State) (w : Word) (target : Target) : GoesOn s (writeTarget s w target) := by
  cases target with
  | cmd => exact goesOn_issue w s
  | ctrl => exact goesOn_writeCtrl w s
  | _ => exact goesOn_next rfl rfl

theorem goesOn_step {s : State} {a : HostAccess} {rest : List HostAccess} (h : s.pending = a :: rest)
    (ha : a.admitted = true) : GoesOn { s with pending := rest } (step s) := by
  cases a with
  | read width off =>
    rw [step_read s width off rest h ha]
    exact goesOn_next rfl rfl
  | write width off w =>
    rw [step_write s width off w rest h ha]
    exact goesOn_writeTarget _ w _
  | resetInput =>
    rw [step_reset s rest h]
    exact goesOn_next rfl rfl

/-- Settles O59: an admitted access is performed and leaves the rest of the accesses, which are admitted too; the
invariant is kept by every step. -/
theorem safeRunsGoOn : Obligations.SafeRunsGoOn := by
  intro s hs hsafe
  cases h : s.pending with
  | nil => exact ⟨s, step_idle s h, hs, hsafe, rfl⟩
  | cons a rest =>
    rw [State.hostSafe, h, List.all_cons, Bool.and_eq_true] at hsafe
    obtain ⟨ha, hrest⟩ := hsafe
    obtain ⟨t, ht, hcfg, hp⟩ := goesOn_step h ha
    refine ⟨t, ht, keepsInv_step hs t ht, ?_, hcfg⟩
    rw [State.hostSafe, hp]
    exact hrest

/-! ## Reads (R49) and refused accesses (R48) -/

/-- Settles O47: a read that gets a step is an admitted one. -/
theorem readsHaveNoSideEffect : Obligations.ReadsHaveNoSideEffect := by
  intro s t width off rest h hstep
  cases ha : accessOk width off with
  | false =>
    rw [step_refused s _ rest h (.inl ⟨width, off, rfl, ha⟩)] at hstep
    cases hstep
  | true =>
    rw [step_read s width off rest h ha] at hstep
    cases hstep
    exact ⟨_, rfl⟩

theorem accessOk_eq_false {width : Width} {off : Nat} (h : width ≠ .word ∨ off % 4 ≠ 0 ∨ 0x2000 ≤ off) :
    accessOk width off = false := by
  rw [← Bool.not_eq_true, accessOk_iff]
  rintro ⟨hwidth, haligned, hoff⟩
  rcases h with h | h | h
  · exact h hwidth
  · exact h haligned
  · exact Nat.not_le.2 hoff h

/-- Settles O54: the three causes are the negation of R48's condition, for a read and for a write. -/
theorem refusedAccessStops : Obligations.RefusedAccessStops := by
  intro s width off w rest h hcause
  have ha := accessOk_eq_false hcause
  rcases h with h | h
  · exact step_refused s _ rest h (.inl ⟨width, off, rfl, ha⟩)
  · exact step_refused s _ rest h (.inr ⟨width, off, w, rfl, ha⟩)

end Sys2Proof.Machine
end

section
/-! PROOFS. The statements of spec/30_encoding.md: the rows of the opcode map are disjoint, the decoder and the encoder
agree in both directions, an illegal word has one of three causes and raises its fault, the integer loads, and the host
writes of STR. -/

namespace Sys2Proof.Machine

open Config (Params)

/-! ## The rows of the opcode map (R61) -/

/-- A row fixes the opcode and the fields the map marks 0, which lie below the opcode. -/
theorem opcodeRows_mask : ∀ k : Fin 21, opcodeRows[k].mask =
      BitVec.allOnes 6 ++ (mustBeZero.getD k 0).extractLsb' 0 26 ∧
    mustBeZero.getD k 0 = 0#6 ++ (mustBeZero.getD k 0).extractLsb' 0 26 := by decide

theorem opcodeRows_value : ∀ k : Fin 21, opcodeRows[k].value = BitVec.ofNat 6 k ++ 0#26 := by decide

theorem append_eq_append_iff {m n : Nat} {x x' : BitVec m} {y y' : BitVec n} :
    x ++ y = x' ++ y' ↔ x = x' ∧ y = y' := by
  refine ⟨fun h => ⟨?_, ?_⟩, fun ⟨hx, hy⟩ => by rw [hx, hy]⟩
  · simpa only [BitVec.extractLsb'_append_eq_left] using congrArg (BitVec.extractLsb' n m) h
  · simpa only [BitVec.extractLsb'_append_eq_right] using congrArg (BitVec.extractLsb' 0 n) h

theorem and_append_opField (w : Word) (op : BitVec 6) (fields : BitVec 26) :
    w &&& (op ++ fields) = (opField w &&& op) ++ (w.extractLsb' 0 26 &&& fields) := by
  rw [← BitVec.and_append, opField, BitVec.extractLsb'_append_extractLsb']

theorem opField_eq_iff {w : Word} {k : Fin 21} : opField w = BitVec.ofNat 6 k ↔ (opField w).toNat = k := by
  rw [← BitVec.toNat_inj, BitVec.toNat_ofNat, Nat.mod_eq_of_lt (by omega)]

/-- A row selects a word exactly when the word has the row's opcode and 0 in every field the map marks 0. -/
theorem row_selects_iff (k : Fin 21) (w : Word) : w &&& opcodeRows[k].mask = opcodeRows[k].value ↔
    (opField w).toNat = k ∧ w &&& mustBeZero.getD (opField w).toNat 0 = 0 := by
  obtain ⟨hmask, hzero⟩ := opcodeRows_mask k
  generalize (mustBeZero.getD k 0).extractLsb' 0 26 = fixed at hmask hzero
  have hfields : w &&& mustBeZero.getD k 0 = 0 ↔ w.extractLsb' 0 26 &&& fixed = 0#26 := by
    rw [hzero, and_append_opField, BitVec.and_zero, show (0 : Word) = 0#6 ++ 0#26 from rfl, BitVec.append_right_inj]
  rw [hmask, opcodeRows_value, and_append_opField, append_eq_append_iff, BitVec.and_allOnes, opField_eq_iff, ← hfields]
  exact and_congr_right fun h => by rw [h]

/-- Settles O3: a word selected by two rows would have the opcodes of both. -/
theorem opcodeRowsDisjoint : Obligations.OpcodeRowsDisjoint := by
  refine List.pairwise_iff_getElem.2 fun i j hi hj hij w ⟨ha, hb⟩ => ?_
  obtain ⟨hopi, _⟩ := (row_selects_iff ⟨i, hi⟩ w).1 ha
  obtain ⟨hopj, _⟩ := (row_selects_iff ⟨j, hj⟩ w).1 hb
  exact hij.ne (hopi.symm.trans hopj)

theorem selectRow_eq_some {w : Word} {k : Fin 21} (h : w &&& opcodeRows[k].mask = opcodeRows[k].value) :
    selectRow w = some opcodeRows[k] := by
  refine List.find?_eq_some_iff_getElem.2 ⟨beq_iff_eq.2 h, k, k.isLt, rfl, fun j hj => ?_⟩
  have := List.pairwise_iff_getElem.1 opcodeRowsDisjoint j k (hj.trans k.isLt) k.isLt hj w
  simpa using fun hw => this ⟨hw, h⟩

/-- The row of a word is the one its OP numbers, if the fields that row fixes are 0; otherwise it has none. -/
theorem selectRow_cases (w : Word) :
    (∃ k : Fin 21, (opField w).toNat = k ∧ w &&& mustBeZero.getD k 0 = 0 ∧ selectRow w = some opcodeRows[k]) ∨
    ((0x15 ≤ (opField w).toNat ∨ w &&& mustBeZero.getD (opField w).toNat 0 ≠ 0) ∧ selectRow w = none) := by
  by_cases h : (opField w).toNat < 21 ∧ w &&& mustBeZero.getD (opField w).toNat 0 = 0
  · obtain ⟨hop, hz⟩ := h
    exact .inl ⟨⟨_, hop⟩, rfl, hz, selectRow_eq_some ((row_selects_iff ⟨_, hop⟩ w).2 ⟨rfl, hz⟩)⟩
  · refine .inr ⟨by simpa [imp_iff_not_or] using h, List.find?_eq_none.2 fun r hr hsel => h ?_⟩
    obtain ⟨k, hk, rfl⟩ := List.getElem_of_mem hr
    obtain ⟨hop, hz⟩ := (row_selects_iff ⟨k, hk⟩ w).1 (beq_iff_eq.1 hsel)
    exact ⟨hop ▸ hk, hz⟩

theorem decode_of_row {w : Word} {r : OpcodeRow} (h : selectRow w = some r) (c : Params) :
    decode c w = if (r.build w).wellFormed c then .ok (r.build w) else .error .badRegister := by
  rw [decode, h]

theorem decode_of_noRow {w : Word} (h : selectRow w = none) (c : Params) : ∃ e, decode c w = .error e := by
  rw [decode, h]
  dsimp only
  split
  · exact ⟨_, rfl⟩
  · exact ⟨_, rfl⟩

/-! ## Decoding an encoded command (R63) -/

/-- The row of the map each command's word selects and is read back by (Laws/PerInstr.lean). -/
theorem selects : ∀ i : Instr, Laws.Selects.Statement i
  | .nop => Laws.Selects.nop
  | .add p rd ra rb => Laws.Selects.add p rd ra rb
  | .sub p rd ra rb => Laws.Selects.sub p rd ra rb
  | .mul p rd ra rb => Laws.Selects.mul p rd ra rb
  | .div p rd ra rb => Laws.Selects.div p rd ra rb
  | .sqrt p rd ra => Laws.Selects.sqrt p rd ra
  | .cmp p ra rb => Laws.Selects.cmp p ra rb
  | .floor p rd ra => Laws.Selects.floor p rd ra
  | .trunc p rd ra => Laws.Selects.trunc p rd ra
  | .neg p rd ra => Laws.Selects.neg p rd ra
  | .iszero p ra => Laws.Selects.iszero p ra
  | .isinf p ra => Laws.Selects.isinf p ra
  | .isnan p ra => Laws.Selects.isnan p ra
  | .isint p ra => Laws.Selects.isint p ra
  | .mov rd ra => Laws.Selects.mov rd ra
  | .ldi p rd imm => Laws.Selects.ldi p rd imm
  | .cvti p rd => Laws.Selects.cvti p rd
  | .cvtsx rd ra => Laws.Selects.cvtsx rd ra
  | .cvtxs rd ra => Laws.Selects.cvtxs rd ra
  | .fmt p ra mode dig grp loc cap => Laws.Selects.fmt p ra mode dig grp loc cap
  | .parse p rd loc len => Laws.Selects.parse p rd loc len

/-- Settles O1: the row the command's word matches is the one the decoder finds, since no other row matches. -/
theorem decodeOfEncode : Obligations.DecodeOfEncode := by
  intro c i hwf
  obtain ⟨r, hr, hsel, hbuild⟩ := selects i
  obtain ⟨k, hk, rfl⟩ := List.getElem_of_mem hr
  rw [decode_of_row (selectRow_eq_some (k := ⟨k, hk⟩) hsel) c]
  exact hbuild.symm ▸ if_pos hwf

theorem decode_eq_of_encode {c : Params} {w : Word} {i : Instr} (hw : encode i = w) (hi : i.wellFormed c = true) :
    decode c w = .ok i :=
  hw ▸ decodeOfEncode c i hi

/-- Settles O5: each word is the word of its command, which is well formed. -/
theorem sampleWordsDecode : Obligations.SampleWordsDecode := by
  refine ⟨?_, ?_, ?_, ?_, ?_, ?_, ?_, ?_, ?_, ?_, ?_, ?_, ?_, ?_, ?_, ?_, ?_, ?_, ?_, ?_, ?_⟩
  all_goals exact decode_eq_of_encode (by decide) (by decide)

/-! ## The word of a decoded command (R62, R63) -/

theorem bit_precField (w : Word) : (precField w).bit = w.extractLsb' 25 1 := by
  unfold precField
  generalize w.extractLsb' 25 1 = b
  revert b
  decide

theorem bits_modeField (aux : BitVec 16) : (modeField aux).bits = aux.extractLsb' 14 2 := by
  unfold modeField
  generalize aux.extractLsb' 14 2 = b
  revert b
  decide

theorem ofBool_grpField (aux : BitVec 16) : BitVec.ofBool (grpField aux) = aux.extractLsb' 9 1 := by
  unfold grpField
  generalize aux.extractLsb' 9 1 = b
  revert b
  decide

theorem bit_locField (aux : BitVec 16) : (locField aux).bit = aux.extractLsb' 8 1 := by
  unfold locField
  generalize aux.extractLsb' 8 1 = b
  revert b
  decide

/-- FMT's AUX is all operands (R59). -/
theorem fmtAux_fields (aux : BitVec 16) :
    fmtAux (modeField aux) (digField aux) (grpField aux) (locField aux) (lowByteField aux) = aux := by
  rw [fmtAux, bits_modeField, ofBool_grpField, bit_locField, digField, lowByteField,
    BitVec.extractLsb'_append_extractLsb'_eq_extractLsb' (rfl : 14 = 10 + 4),
    BitVec.extractLsb'_append_extractLsb'_eq_extractLsb' (rfl : 10 = 9 + 1),
    BitVec.extractLsb'_append_extractLsb'_eq_extractLsb' (rfl : 9 = 8 + 1),
    BitVec.extractLsb'_append_extractLsb']

/-- PARSE's AUX is its two operands under seven bits marked 0 (R60). -/
theorem parseAux_fields {w : Word} (h : w.extractLsb' 9 7 = 0#7) :
    parseAux (locField (auxField w)) (lowByteField (auxField w)) = auxField w := by
  have haux : (auxField w).extractLsb' 9 7 = w.extractLsb' 9 7 := BitVec.extractLsb'_extractLsb'_of_le (by decide)
  rw [parseAux, bit_locField, lowByteField, ← h, ← haux,
    BitVec.extractLsb'_append_extractLsb'_eq_extractLsb' (rfl : 9 = 8 + 1),
    BitVec.extractLsb'_append_extractLsb']

theorem field_eq_zero {w m : Word} {start len : Nat} (h : w &&& m = 0)
    (hm : m.extractLsb' start len = BitVec.allOnes len) : w.extractLsb' start len = 0#len :=
  calc w.extractLsb' start len = (w &&& m).extractLsb' start len := by
        rw [BitVec.extractLsb'_and, hm, BitVec.and_allOnes]
    _ = 0#len := by rw [h]; exact BitVec.extractLsb'_zero

theorem commandWord_fields (w : Word) : commandWord (opField w) (w.extractLsb' 25 1) (w.extractLsb' 22 3)
    (w.extractLsb' 19 3) (w.extractLsb' 16 3) (auxField w) = w := by
  rw [commandWord, opField, auxField,
    BitVec.extractLsb'_append_extractLsb'_eq_extractLsb' (rfl : 26 = 25 + 1),
    BitVec.extractLsb'_append_extractLsb'_eq_extractLsb' (rfl : 25 = 22 + 3),
    BitVec.extractLsb'_append_extractLsb'_eq_extractLsb' (rfl : 22 = 19 + 3),
    BitVec.extractLsb'_append_extractLsb'_eq_extractLsb' (rfl : 19 = 16 + 3),
    BitVec.extractLsb'_append_extractLsb']

theorem commandWord_eq {w : Word} {op : BitVec 6} {p : BitVec 1} {rd ra rb : BitVec 3} {aux : BitVec 16}
    (hop : opField w = op) (hp : w.extractLsb' 25 1 = p) (hrd : w.extractLsb' 22 3 = rd) (hra : w.extractLsb' 19 3 = ra)
    (hrb : w.extractLsb' 16 3 = rb) (haux : auxField w = aux) : commandWord op p rd ra rb aux = w := by
  rw [← hop, ← hp, ← hrd, ← hra, ← hrb, ← haux, commandWord_fields]

/-- Re-encoding what a row builds gives the word back: each of P, RD, RA, RB and AUX is an operand the row reads, or a
field it marks 0. -/
theorem encode_build (w : Word) (k : Fin 21) (hop : opField w = BitVec.ofNat 6 k) (hz : w &&& mustBeZero.getD k 0 = 0) :
    encode (opcodeRows[k].build w) = w := by
  have hp := (bit_precField w).symm
  have zero {start len : Nat} (hm : (mustBeZero.getD k 0).extractLsb' start len = BitVec.allOnes len) :=
    field_eq_zero hz hm
  fin_cases k
  · exact commandWord_eq hop (zero rfl) (zero rfl) (zero rfl) (zero rfl) (zero rfl)  -- NOP
  · exact commandWord_eq hop hp rfl rfl rfl (zero rfl)  -- ADD
  · exact commandWord_eq hop hp rfl rfl rfl (zero rfl)  -- SUB
  · exact commandWord_eq hop hp rfl rfl rfl (zero rfl)  -- MUL
  · exact commandWord_eq hop hp rfl rfl rfl (zero rfl)  -- DIV
  · exact commandWord_eq hop hp rfl rfl (zero rfl) (zero rfl)  -- SQRT
  · exact commandWord_eq hop hp (zero rfl) rfl rfl (zero rfl)  -- CMP
  · exact commandWord_eq hop hp rfl rfl (zero rfl) (zero rfl)  -- FLOOR
  · exact commandWord_eq hop hp rfl rfl (zero rfl) (zero rfl)  -- TRUNC
  · exact commandWord_eq hop hp rfl rfl (zero rfl) (zero rfl)  -- NEG
  · exact commandWord_eq hop hp (zero rfl) rfl (zero rfl) (zero rfl)  -- ISZERO
  · exact commandWord_eq hop hp (zero rfl) rfl (zero rfl) (zero rfl)  -- ISINF
  · exact commandWord_eq hop hp (zero rfl) rfl (zero rfl) (zero rfl)  -- ISNAN
  · exact commandWord_eq hop hp (zero rfl) rfl (zero rfl) (zero rfl)  -- ISINT
  · exact commandWord_eq hop (zero rfl) rfl rfl (zero rfl) (zero rfl)  -- MOV
  · exact commandWord_eq hop hp rfl (zero rfl) (zero rfl) rfl  -- LDI
  · exact commandWord_eq hop hp rfl (zero rfl) (zero rfl) (zero rfl)  -- CVTI
  · exact commandWord_eq hop (zero rfl) rfl rfl (zero rfl) (zero rfl)  -- CVTSX
  · exact commandWord_eq hop (zero rfl) rfl rfl (zero rfl) (zero rfl)  -- CVTXS
  · exact commandWord_eq hop hp (zero rfl) rfl (zero rfl) (fmtAux_fields _).symm  -- FMT
  · exact commandWord_eq hop hp rfl (zero rfl) (zero rfl) (parseAux_fields (zero rfl)).symm  -- PARSE

/-- Settles O2: a decoded word is one its row selects, so its fields are the command's operands and 0 elsewhere. -/
theorem encodeOfDecode : Obligations.EncodeOfDecode := by
  intro c w i h
  refine ⟨?_, wellFormed_of_decode h⟩
  rcases selectRow_cases w with ⟨k, hop, hz, hrow⟩ | ⟨_, hrow⟩
  · rw [decode_of_row hrow] at h
    split at h
    · cases h
      exact encode_build w k (opField_eq_iff.2 hop) hz
    · cases h
  · obtain ⟨e, he⟩ := decode_of_noRow hrow c
    rw [he] at h
    cases h

/-! ## The causes of an illegal word (R62) -/

/-- The registers a row's command uses are those the map's table says (R61). -/
theorem registers_build (k : Fin 21) (w : Word) :
    (opcodeRows[k].build w).rd? = (if usesRd k then some (rdField w) else none) ∧
    (opcodeRows[k].build w).ra? = (if usesRa k then some (raField w) else none) ∧
    (opcodeRows[k].build w).rb? = (if usesRb k then some (rbField w) else none) := by
  fin_cases k <;> exact ⟨rfl, rfl, rfl⟩

theorem regOk_ite (c : Params) (used : Bool) (r : RegId) :
    regOk c (if used then some r else none) = true ↔ ¬ (used = true ∧ c.nreg ≤ r.val) := by
  cases used with
  | false => simp [regOk]
  | true => simp [regOk]

theorem wellFormed_build_iff (c : Params) (k : Fin 21) (w : Word) : (opcodeRows[k].build w).wellFormed c = true ↔
    ¬ ((usesRd k = true ∧ c.nreg ≤ (rdField w).val) ∨ (usesRa k = true ∧ c.nreg ≤ (raField w).val) ∨
      (usesRb k = true ∧ c.nreg ≤ (rbField w).val)) := by
  obtain ⟨hd, ha, hb⟩ := registers_build k w
  rw [Instr.wellFormed, hd, ha, hb, Bool.and_eq_true, Bool.and_eq_true, regOk_ite, regOk_ite, regOk_ite, not_or, not_or,
    and_assoc]

/-- Settles O4: without a row the word is illegal for one of the first two causes; with one, for its registers only. -/
theorem illegalWords : Obligations.IllegalWords := by
  intro c w
  rcases selectRow_cases w with ⟨k, hop, hz, hrow⟩ | ⟨hcause, hrow⟩
  · have hlegal : ¬ (0x15 ≤ k.val ∨ w &&& mustBeZero.getD k 0 ≠ 0) :=
      not_or.2 ⟨Nat.not_le.2 k.isLt, not_not.2 hz⟩
    rw [hop, ← or_assoc, or_iff_right hlegal, ← not_iff_not, ← wellFormed_build_iff, decode_of_row hrow]
    cases (opcodeRows[k].build w).wellFormed c with
    | true => simp
    | false => simp
  · exact iff_of_true (decode_of_noRow hrow c) (or_assoc.1 (.inl hcause))

/-! ## The fault of an illegal word (R62, R66) -/

theorem issue_illegal {s : State} {w : Word} {e : Illegal} (hf : s.status.fault = none)
    (hd : decode s.cfg w = .error e) : issue w s = .next (raiseFault s .illegalCmd) := by
  simp [issue, hf, hd]

/-- Settles O42: the access is a write of CMD, whose word does not decode, and fault entry writes STATUS.FAULT only. -/
theorem illegalWordRaises : Obligations.IllegalWordRaises := by
  intro s w rest e h hf hd
  refine ⟨raiseFault { s with pending := rest } .illegalCmd, ?_, raiseFault_writes _ _⟩
  calc step s = issue w { s with pending := rest } := step_writeControl h rfl (by decide)
    _ = .next (raiseFault { s with pending := rest } .illegalCmd) := issue_illegal hf hd

/-! ## Integer loads (R93, R94) -/

theorem signFactor_mul_natAbs (z : Int) : signFactor (decide (z < 0)) * (z.natAbs : ℝ) = z := by
  rcases lt_or_ge z 0 with h | h
  · simp [signFactor, h, Nat.cast_natAbs, abs_of_neg]
  · simp [signFactor, h, Nat.cast_natAbs, abs_of_nonneg]

/-- The machine rounds an integer as R93 and R94 write it. -/
theorem roundInt_eq_integerRef (c : Params) (p : Prec) (z : Int) : roundInt c p z = integerRef c p z := by
  unfold roundInt integerRef
  split
  · rfl
  · next hz =>
    rw [roundScaled_eq_roundReal _ _ _ _ _ _ (Int.natAbs_ne_zero.2 hz) one_ne_zero, Nat.cast_one, div_one, zpow_zero,
      mul_one, signFactor_mul_natAbs]

/-- Settles O22: both commands write back the rounded integer. -/
theorem integerLoads : Obligations.IntegerLoads := by
  intro s p rd imm _
  simp only [← roundInt_eq_integerRef]
  exact ⟨⟨_, rfl, writeResult_writes s rd _⟩, ⟨_, rfl, writeResult_writes s rd _⟩⟩

/-! ## The host writes of STR (R64, R65) -/

/-- The bytes of the packed words are the text, padded with 0x00 to a whole word (R45). -/
theorem flatMap_packWords (t : Text) : (packWords t).flatMap wordBytes =
    t ++ List.replicate ((t.length + 3) / 4 * 4 - t.length) 0#8 := by
  induction t using packWords.induct with
  | case1 a b c d t ih =>
    have hpad : ((a :: b :: c :: d :: t).length + 3) / 4 * 4 - (a :: b :: c :: d :: t).length =
        (t.length + 3) / 4 * 4 - t.length := by
      simp only [List.length_cons]
      omega
    rw [packWords, List.flatMap_cons, wordBytes_append, ih, hpad]
    rfl
  | case2 a b c =>
    have h : wordBytes (0#8 ++ c ++ b ++ a) = [a, b, c, 0#8] := wordBytes_append _ _ _ _
    rw [packWords, List.flatMap_singleton, h]
    simp
  | case3 a b =>
    have h : wordBytes (0#16 ++ b ++ a) = [a, b, 0#8, 0#8] := wordBytes_append 0#8 0#8 b a
    rw [packWords, List.flatMap_singleton, h]
    simp
  | case4 a =>
    have h : wordBytes (0#24 ++ a) = [a, 0#8, 0#8, 0#8] := wordBytes_append 0#8 0#8 0#8 a
    rw [packWords, List.flatMap_singleton, h]
    simp
  | case5 => rfl

theorem length_flatMap_wordBytes (ws : List Word) : (ws.flatMap wordBytes).length = 4 * ws.length := by
  induction ws with
  | nil => rfl
  | cons w ws ih =>
    have hw : (wordBytes w).length = 4 := rfl
    rw [List.flatMap_cons, List.length_append, hw, ih, List.length_cons]
    omega

theorem length_writeWords (ws : List Word) : ∀ off, (writeWords off ws).length = ws.length := by
  induction ws with
  | nil => exact fun _ => rfl
  | cons w ws ih => exact fun off => congrArg (· + 1) (ih _)

theorem run_succ {s t : State} (h : step s = .next t) (n : Nat) :
    Host.Core.run Sys2Proof.core (n + 1) s = Host.Core.run Sys2Proof.core n t := by
  have hcore : Sys2Proof.core.step s = .next t := h
  simp only [Host.Core.run, hcore]

/-- Performing writes of consecutive TBUF words writes their bytes one after the other and nothing else. -/
theorem run_writeWords (ws : List Word) (rest : List HostAccess) : ∀ (s : State) (a : Nat), s.cfg.valid = true →
    a % 4 = 0 → a + 4 * ws.length ≤ s.cfg.tbufSize → s.pending = writeWords (0x1000 + a) ws ++ rest →
    Host.Core.run Sys2Proof.core ws.length s =
      .next (State.memWrite { s with pending := rest } a (ws.flatMap wordBytes)) := by
  induction ws with
  | nil =>
    rintro s a _ _ _ rfl
    rfl
  | cons w ws ih =>
    intro s a hv ha hfit h
    rw [List.length_cons] at hfit ⊢
    rw [run_succ (step_writeText hv ha (by omega) h)]
    exact ih _ (a + 4) hv (by omega) (by dsimp only [State.cfg_memWrite]; omega) rfl

/-- A text written from offset 0 with `n` bytes 0x00 after it: what TBUF then holds. -/
theorem readByte_memWrite_padded (s : State) (text : Text) (n : Nat) :
    (∀ i (h : i < text.length), (s.memWrite 0 (text ++ List.replicate n 0#8)).readByte i = text[i]) ∧
    (∀ i, text.length ≤ i → i < text.length + n →
      (s.memWrite 0 (text ++ List.replicate n 0#8)).readByte i = 0x00#8) ∧
    (∀ i, text.length + n ≤ i → (s.memWrite 0 (text ++ List.replicate n 0#8)).readByte i = s.readByte i) := by
  have hlen : (text ++ List.replicate n 0#8).length = text.length + n := by simp
  refine ⟨fun i h => ?_, fun i h hn => ?_, fun i h => ?_⟩
  · rw [State.readByte_memWrite, dif_pos ⟨Nat.zero_le _, by omega⟩]
    exact List.getElem_append_left h
  · rw [State.readByte_memWrite, dif_pos ⟨Nat.zero_le _, by omega⟩, List.getElem_append_right (by omega)]
    exact List.getElem_replicate _
  · exact State.readByte_memWrite_outside _ (by omega)

/-- Settles O50: the accesses write the packed words, whose bytes are the text and its padding to a whole word. -/
theorem strWritesText : Obligations.StrWritesText := by
  intro s text rest hv hfit h
  obtain ⟨_, _, htbuf⟩ := (paramFacts _ hv).tbuf
  have hwords : 4 * (packWords text).length = (text.length + 3) / 4 * 4 := by
    rw [← length_flatMap_wordBytes, flatMap_packWords, List.length_append, List.length_replicate]
    omega
  have hrun := run_writeWords (packWords text) rest s 0 hv rfl (by omega) h
  rw [flatMap_packWords, ← length_writeWords _ 0x1000] at hrun
  obtain ⟨htext, hpad, hothers⟩ := readByte_memWrite_padded { s with pending := rest } text
    ((text.length + 3) / 4 * 4 - text.length)
  exact ⟨_, hrun, htext, fun i hi hi' => hpad i hi (by omega), fun i hi => hothers i (by omega), fun _ => rfl, rfl, rfl,
    rfl⟩

end Sys2Proof.Machine
end

section
/-! PROOFS. The statements of spec/40_arithmetic.md: what ROUND_p gives, ADD, SUB, MUL, DIV and SQRT, and the operand and
buffer faults. -/

namespace Sys2Proof.Machine

open Config (Params)

/-! ## Operand and buffer faults (R67, R68) -/

/-- A command of one operand that is not well formed raises BAD_OPERAND, whatever it does with the value (R67). -/
theorem withOperand_badSource {s : State} {p : Prec} {r : RegId} {k : VReg → StepResult}
    (h : ∃ q ∈ [(p, r)], (s.getV q.2).wf s.cfg q.1 = false) :
    withOperand p r s k = .next (raiseFault s .badOperand) :=
  withOperand_not_wf _ _ _ _ (by simpa using h)

/-- A command of two operands one of which is not well formed raises BAD_OPERAND (R67). -/
theorem withOperands_badSource {s : State} {p : Prec} {ra rb : RegId} {k : VReg → VReg → StepResult}
    (h : ∃ q ∈ [(p, ra), (p, rb)], (s.getV q.2).wf s.cfg q.1 = false) :
    (withOperand p ra s fun x => withOperand p rb s (k x)) = .next (raiseFault s .badOperand) := by
  cases ha : (s.getV ra).wf s.cfg p with
  | false => exact withOperand_not_wf _ _ _ _ ha
  | true =>
    rw [withOperand_wf _ _ _ _ ha]
    exact withOperand_not_wf _ _ _ _ (by simpa [ha] using h)

theorem unaryOp_badSource {s : State} {p : Prec} {rd ra : RegId} {f : VReg → Result}
    (h : ∃ q ∈ [(p, ra)], (s.getV q.2).wf s.cfg q.1 = false) :
    unaryOp p rd ra f s = .next (raiseFault s .badOperand) := withOperand_badSource h

theorem testOp_badSource {s : State} {p : Prec} {ra : RegId} {f : VReg → Bool}
    (h : ∃ q ∈ [(p, ra)], (s.getV q.2).wf s.cfg q.1 = false) :
    testOp p ra f s = .next (raiseFault s .badOperand) := withOperand_badSource h

theorem binaryOp_badSource {s : State} {p : Prec} {rd ra rb : RegId} {f : VReg → VReg → Result}
    (h : ∃ q ∈ [(p, ra), (p, rb)], (s.getV q.2).wf s.cfg q.1 = false) :
    binaryOp p rd ra rb f s = .next (raiseFault s .badOperand) := withOperands_badSource h

/-- Every command checks its value operands before anything else (R66, R67). -/
theorem exec_badSource {i : Instr} {s : State} (h : ∃ q ∈ i.sources, (s.getV q.2).wf s.cfg q.1 = false) :
    exec i s = .next (raiseFault s .badOperand) := by
  cases i with
  | nop | mov | ldi | cvti | parse => simp [Instr.sources] at h
  | add | sub | mul | div => exact binaryOp_badSource h
  | cmp p ra rb => exact withOperands_badSource (k := fun x y => .next (s.setCmp (cmpV (groupCount s.cfg p) x y))) h
  | sqrt | floor | trunc | neg | cvtsx | cvtxs => exact unaryOp_badSource h
  | iszero | isinf | isnan => exact testOp_badSource h
  | isint p => exact testOp_badSource (f := fun x => x.isFinite && x.isInteger (groupCount s.cfg p)) h
  | fmt p ra mode dig grp loc cap =>
    rw [exec, execFmt]
    exact withOperand_badSource h

/-- Settles O38: the check comes first, and fault entry writes STATUS.FAULT only. -/
theorem badOperandRaised : Obligations.BadOperandRaised :=
  fun _ s h => ⟨_, exec_badSource h, raiseFault_writes s _⟩

theorem execFmt_buffer {s : State} {p : Prec} {ra : RegId} (hwf : (s.getV ra).wf s.cfg p = true) (mode : Mode)
    (dig : BitVec 4) (grp : Bool) (loc : Loc) (cap : BitVec 8) :
    execFmt p ra mode dig grp loc cap s = withBuffer cap s (.next (writeText
      (truncateText s.cfg.sentinel (formatValue s.cfg p (s.getV ra) mode dig grp loc) cap.toNat) s)) :=
  withOperand_wf _ _ _ _ hwf

/-- Settles O39: the buffer check decides by CAP or LEN, and neither write-back touches STATUS.FAULT. -/
theorem badBufferRaised : Obligations.BadBufferRaised := by
  intro s p r mode dig grp loc n
  refine ⟨fun hn => ⟨fun hwf => ?_, ?_⟩, fun hn => ⟨fun hwf => ?_, ?_⟩⟩
  · exact ⟨_, (execFmt_buffer hwf ..).trans (withBuffer_bad _ _ _ hn), raiseFault_writes s _⟩
  · exact ⟨_, withBuffer_bad _ _ _ hn, raiseFault_writes s _⟩
  · exact ⟨_, (execFmt_buffer hwf ..).trans (withBuffer_ok _ _ _ hn), rfl⟩
  · exact ⟨_, withBuffer_ok _ _ _ hn, writeParsed_fault r _ s⟩

/-! ## ROUND_p of a positive magnitude (R70, R71, R72) -/

/-- R70's window of a positive magnitude before its floor is taken: `r` counted in units of the guard group. -/
noncomputable def scaledMagnitude (n : Nat) (r : ℝ) : ℝ := r * (10000 : ℝ) ^ ((n : Int) - Int.log 10000 r)

/-- R70's M of a positive magnitude. -/
noncomputable def roundWindow (n : Nat) (r : ℝ) : Nat := ⌊scaledMagnitude n r⌋.toNat

/-- The number of units of the last retained group nearest to the window, a guard group of 5000 or more counting
up (R71). -/
def nearestUnits (m : Nat) : Nat := (m + 5000) / base

/-- The group exponent after rounding (R70, R72). -/
noncomputable def roundedExp (n : Nat) (r : ℝ) : Int :=
  if (keptGroups n (roundWindow n r)).2 then Int.log 10000 r + 1 else Int.log 10000 r

/-- ROUND_p by the group exponent after rounding (R72). -/
theorem roundScaled_eq_ite (c : Params) (p : Prec) (neg : Bool) (num den : Nat) (k : Int) (hn : num ≠ 0)
    (hd : den ≠ 0) {r : ℝ} (hr : (num : ℝ) / den * (10000 : ℝ) ^ k = r) :
    roundScaled c p neg num den k =
      if c.expMax < roundedExp (groupCount c p) r then (infV c p neg, overflowOutcome neg)
      else if roundedExp (groupCount c p) r < c.expMin then (zeroV c p, underflowOutcome neg)
      else (finiteV c p (toGroups (groupCount c p) (keptGroups (groupCount c p) (roundWindow (groupCount c p) r)).1)
        (roundedExp (groupCount c p) r) neg, .ok) := by
  have hpos : 0 < r := by
    rw [← hr]
    positivity
  rw [roundScaled_eq_roundReal c p neg num den k hn hd, hr, roundReal_eq, signFactor_mul_neg_iff _ _ hpos, abs_mul,
    signFactor_abs, one_mul, abs_of_pos hpos, roundGuard_eq]
  rfl

theorem roundWindow_bounds (n : Nat) {r : ℝ} (hr : 0 < r) :
    base ^ n ≤ roundWindow n r ∧ roundWindow n r < base ^ (n + 1) := window_bounds n r hr

/-- The retained groups hold the nearest number of units; where that is one more than the groups can hold, they hold
the leading 1 of the next exponent. -/
theorem keptGroups_eq_nearestUnits {n m : Nat} (hm : m < base ^ (n + 1)) :
    keptGroups n m = if nearestUnits m = base ^ n then (base ^ (n - 1), true) else (nearestUnits m, false) := by
  have hlt : m / base < base ^ n := by
    rw [Nat.div_lt_iff_lt_mul (by decide), ← pow_succ]
    exact hm
  rw [keptGroups]
  split
  · next hup =>
    have hunits : nearestUnits m = m / base + 1 := by
      simp only [nearestUnits, base_eq] at hup ⊢
      omega
    rw [hunits]
  · next hdown =>
    have hunits : nearestUnits m = m / base := by
      simp only [nearestUnits, base_eq] at hdown ⊢
      omega
    rw [hunits, if_neg hlt.ne]

/-- The rounding carries out of the leading group exactly where the nearest number of units is a power too long. -/
theorem keptGroups_carry_iff {n m : Nat} (hm : m < base ^ (n + 1)) :
    (keptGroups n m).2 = true ↔ base ^ (n + 1) ≤ m + 5000 := by
  have hunits : nearestUnits m = base ^ n ↔ base ^ (n + 1) ≤ m + 5000 := by
    rw [pow_succ] at hm ⊢
    simp only [nearestUnits, base_eq] at hm ⊢
    omega
  rw [keptGroups_eq_nearestUnits hm, ← hunits]
  split
  · next h => exact iff_of_true rfl h
  · next h => exact iff_of_false Bool.false_ne_true h

/-- Half a unit below a power is still at least the power before it. -/
theorem zpow_le_carryThreshold {n : Nat} (hn : 0 < n) (e : Int) :
    (10000 : ℝ) ^ e ≤ (10000 : ℝ) ^ (e + 1) - 5000 * (10000 : ℝ) ^ (e - n) := by
  have hnext : (10000 : ℝ) ^ (e + 1) = 10000 * (10000 : ℝ) ^ e := by
    rw [zpow_add_one₀ (by norm_num), mul_comm]
  have hhalf : (10000 : ℝ) ^ (e - n) ≤ (10000 : ℝ) ^ e := zpow_le_zpow_right₀ (by norm_num) (by omega)
  have hpos : (0 : ℝ) < (10000 : ℝ) ^ e := by positivity
  linarith

section Magnitude

/-! For a positive magnitude `r` in a precision of `n` groups. -/

variable {n : Nat} (hn : 0 < n) {r : ℝ} (hr : 0 < r)

include hr

theorem scaledMagnitude_pos : 0 < scaledMagnitude n r := by
  unfold scaledMagnitude
  positivity

theorem log_bracket : (10000 : ℝ) ^ Int.log 10000 r ≤ r ∧ r < (10000 : ℝ) ^ (Int.log 10000 r + 1) :=
  ⟨by exact_mod_cast Int.zpow_log_le_self (b := 10000) (by norm_num) hr,
    by exact_mod_cast Int.lt_zpow_succ_log_self (b := 10000) (by norm_num) r⟩

/-- The nearest number of units lies at most half a unit above the magnitude and less than half a unit below it. -/
theorem nearestUnits_bounds :
    10000 * (nearestUnits (roundWindow n r) : ℝ) ≤ scaledMagnitude n r + 5000 ∧
      scaledMagnitude n r < 10000 * (nearestUnits (roundWindow n r) : ℝ) + 5000 := by
  have hlow : (roundWindow n r : ℝ) ≤ scaledMagnitude n r := by
    rw [roundWindow, Int.floor_toNat]
    exact Nat.floor_le (scaledMagnitude_pos hr).le
  have hhigh : scaledMagnitude n r < roundWindow n r + 1 := by
    rw [roundWindow, Int.floor_toNat]
    exact Nat.lt_floor_add_one _
  have hunits : 10000 * nearestUnits (roundWindow n r) ≤ roundWindow n r + 5000 ∧
      roundWindow n r + 1 ≤ 10000 * nearestUnits (roundWindow n r) + 5000 := by
    simp only [nearestUnits, base_eq]
    omega
  obtain ⟨hle, hge⟩ := hunits
  have hle' : 10000 * (nearestUnits (roundWindow n r) : ℝ) ≤ roundWindow n r + 5000 := by exact_mod_cast hle
  have hge' : (roundWindow n r : ℝ) + 1 ≤ 10000 * (nearestUnits (roundWindow n r) : ℝ) + 5000 := by
    exact_mod_cast hge
  constructor <;> linarith

/-- Whether rounding moves the exponent up, read off the magnitude (R72). -/
theorem carry_iff : (keptGroups n (roundWindow n r)).2 = true ↔
    (10000 : ℝ) ^ (Int.log 10000 r + 1) - 5000 * (10000 : ℝ) ^ (Int.log 10000 r - n) ≤ r := by
  have hu : (0 : ℝ) < (10000 : ℝ) ^ (Int.log 10000 r - n) := by positivity
  have hscale : scaledMagnitude n r * (10000 : ℝ) ^ (Int.log 10000 r - n) = r := by
    rw [scaledMagnitude, mul_assoc, ← zpow_add₀ (by norm_num), sub_add_sub_cancel, sub_self, zpow_zero, mul_one]
  have htop : (10000 : ℝ) ^ (n + 1) * (10000 : ℝ) ^ (Int.log 10000 r - n) = (10000 : ℝ) ^ (Int.log 10000 r + 1) := by
    rw [← zpow_natCast, ← zpow_add₀ (by norm_num)]
    congr 1
    push_cast
    ring
  have h5000 : 5000 ≤ base ^ (n + 1) := by
    calc 5000 ≤ base := by decide
      _ ≤ base ^ (n + 1) := Nat.le_self_pow (Nat.succ_ne_zero n) _
  rw [keptGroups_carry_iff (roundWindow_bounds n hr).2, ← tsub_le_iff_right, roundWindow, Int.floor_toNat,
    Nat.le_floor_iff (scaledMagnitude_pos hr).le, Nat.cast_sub h5000, ← mul_le_mul_iff_left₀ hu, sub_mul, hscale]
  push_cast
  rw [base_cast, htop]

include hn

/-- What is written has the value of the nearest number of units: a carry only shifts its groups. -/
theorem keptGroups_value : ((keptGroups n (roundWindow n r)).1 : ℝ) * (10000 : ℝ) ^ (roundedExp n r - ((n : Int) - 1)) =
    nearestUnits (roundWindow n r) * (10000 : ℝ) ^ (Int.log 10000 r - ((n : Int) - 1)) := by
  rw [roundedExp, keptGroups_eq_nearestUnits (roundWindow_bounds n hr).2]
  split
  · next hcarry =>
    rw [hcarry, if_pos rfl]
    push_cast
    rw [base_cast, ← zpow_natCast, ← zpow_natCast, ← zpow_add₀ (by norm_num), ← zpow_add₀ (by norm_num)]
    congr 1
    omega
  · rw [if_neg Bool.false_ne_true]

/-- The exponent after rounding exceeds `e` exactly from half a unit at exponent `e` below the next power on (R72). -/
theorem lt_roundedExp_iff (e : Int) :
    e < roundedExp n r ↔ (10000 : ℝ) ^ (e + 1) - 5000 * (10000 : ℝ) ^ (e - n) ≤ r := by
  obtain ⟨hlow, hhigh⟩ := log_bracket hr
  have hcarry := carry_iff (n := n) hr
  set l := Int.log 10000 r
  have hl : l ≤ roundedExp n r ∧ roundedExp n r ≤ l + 1 := by
    unfold roundedExp
    split <;> omega
  rcases lt_trichotomy e l with h | h | h
  · refine iff_of_true (by omega) ?_
    calc (10000 : ℝ) ^ (e + 1) - 5000 * (10000 : ℝ) ^ (e - n) ≤ (10000 : ℝ) ^ (e + 1) := sub_le_self _ (by positivity)
      _ ≤ (10000 : ℝ) ^ l := zpow_le_zpow_right₀ (by norm_num) (by omega)
      _ ≤ r := hlow
  · subst h
    rw [← hcarry, roundedExp]
    split
    · next h => exact iff_of_true (lt_add_one _) h
    · next h => exact iff_of_false (lt_irrefl _) h
  · refine iff_of_false (by omega) (not_le.2 ?_)
    calc r < (10000 : ℝ) ^ (l + 1) := hhigh
      _ ≤ (10000 : ℝ) ^ e := zpow_le_zpow_right₀ (by norm_num) (by omega)
      _ ≤ (10000 : ℝ) ^ (e + 1) - 5000 * (10000 : ℝ) ^ (e - n) := zpow_le_carryThreshold hn e

end Magnitude

/-- Settles O7: the three cases of ROUND_p by the exponent after rounding, each bound as a threshold on r. -/
theorem rangeOutcomes : Obligations.RangeOutcomes := by
  intro c p neg num den k hv hnum hden r half
  have hpos : 0 < r := by positivity
  have hn := groupCount_pos c hv p
  have V := paramFacts c hv
  have hminmax : c.expMin ≤ c.expMax := V.expMin.2.trans V.expMax.1
  have hover := lt_roundedExp_iff hn hpos c.expMax
  have hunder := lt_roundedExp_iff hn hpos (c.expMin - 1)
  rw [sub_add_cancel] at hunder
  rw [roundScaled_eq_ite c p neg num den k hnum hden (rfl : _ = r)]
  refine ⟨fun h => ?_, fun h => ?_, fun hlow hhigh => ?_⟩
  · rw [if_pos (hover.2 h)]
    rfl
  · have hlt : roundedExp (groupCount c p) r < c.expMin := by
      have := mt hunder.1 (not_le.2 h)
      omega
    rw [if_neg (by omega), if_pos hlt]
    rfl
  · have hmax := mt hover.1 (not_le.2 hhigh)
    have hmin := hunder.2 hlow
    rw [if_neg hmax, if_neg (by omega)]

/-- The value ROUND_p writes where its outcome is OK. -/
theorem val_roundScaled (c : Params) (hv : c.valid = true) (p : Prec) (neg : Bool) (num den : Nat) (k : Int)
    (hn : num ≠ 0) (hd : den ≠ 0) (hok : (roundScaled c p neg num den k).2 = .ok) {r : ℝ}
    (hr : (num : ℝ) / den * (10000 : ℝ) ^ k = r) :
    (roundScaled c p neg num den k).1.val (groupCount c p) = signFactor neg *
      (nearestUnits (roundWindow (groupCount c p) r) *
        (10000 : ℝ) ^ (Int.log 10000 r - ((groupCount c p : Int) - 1))) := by
  have hpos : 0 < r := by
    rw [← hr]
    positivity
  have hgroups := groupCount_pos c hv p
  have V := paramFacts c hv
  have hmin := V.expMin
  have hmax := V.expMax
  obtain ⟨hlow, hhigh⟩ := roundWindow_bounds (groupCount c p) hpos
  obtain ⟨_, hfit⟩ := keptGroups_bounds _ _ hgroups hlow hhigh
  rw [roundScaled_eq_ite c p neg num den k hn hd hr] at hok ⊢
  split at hok
  · cases neg <;> cases hok
  · split at hok
    · cases neg <;> cases hok
    · next hover hunder =>
      rw [if_neg hover, if_neg hunder, val_finiteV _ _ _ _ _ _ (toGroups_lt _ _) (by simp) (by omega) (by omega),
        fromGroups_toGroups, Nat.mod_eq_of_lt hfit, length_toGroups, keptGroups_value hgroups hpos]

/-- A number of units at most half a unit above the magnitude and less than half a unit below it: their distance is at
most half a unit, and where it is half a unit the number of units is the larger. -/
theorem half_unit_of_bounds {q w u r : ℝ} (hu : 0 < u) (hr : 10000 * r = w * u) (hup : 10000 * q ≤ w + 5000)
    (hdown : w < 10000 * q + 5000) : |q * u - r| ≤ u / 2 ∧ (|q * u - r| = u / 2 → r < q * u) := by
  have hup' : 10000 * (q * u) ≤ 10000 * r + 5000 * u := by
    rw [hr]
    linarith [mul_le_mul_of_nonneg_right hup hu.le]
  have hdown' : 10000 * r < 10000 * (q * u) + 5000 * u := by
    rw [hr]
    linarith [mul_lt_mul_of_pos_right hdown hu]
  refine ⟨abs_le.2 ⟨by linarith, by linarith⟩, fun htie => ?_⟩
  rcases abs_choice (q * u - r) with h | h <;> linarith

/-- Settles O6: the value is the nearest number of units of the last retained group, counted up at a tie. -/
theorem roundWithinHalfUnit : Obligations.RoundWithinHalfUnit := by
  intro c p neg num den k hv hnum hden hok r v
  have hpos : 0 < r := by positivity
  obtain ⟨hlog, hlog'⟩ := log_bracket hpos
  refine ⟨Int.log 10000 r, hlog, hlog', ?_⟩
  have hval : v = _ := val_roundScaled c hv p neg num den k hnum hden hok rfl
  obtain ⟨hup, hdown⟩ := nearestUnits_bounds (n := groupCount c p) hpos
  have hunit : (0 : ℝ) < (10000 : ℝ) ^ (Int.log 10000 r - ((groupCount c p : Int) - 1)) := by positivity
  have hr : 10000 * r = scaledMagnitude (groupCount c p) r *
      (10000 : ℝ) ^ (Int.log 10000 r - ((groupCount c p : Int) - 1)) := by
    rw [scaledMagnitude, mul_assoc, ← zpow_add₀ (by norm_num), sub_add_sub_cancel, sub_sub_cancel, zpow_one, mul_comm]
  have habs : |v| = nearestUnits (roundWindow (groupCount c p) r) *
      (10000 : ℝ) ^ (Int.log 10000 r - ((groupCount c p : Int) - 1)) := by
    rw [hval, abs_mul, signFactor_abs, one_mul, abs_of_nonneg (by positivity)]
  dsimp only
  rw [habs]
  exact ⟨hval, half_unit_of_bounds hunit hr hup hdown⟩

/-! ## Commands of well-formed operands (R66, R69) -/

theorem unaryOp_wf {s : State} {p : Prec} {ra : RegId} (ha : (s.getV ra).wf s.cfg p = true) (rd : RegId)
    (f : VReg → Result) : unaryOp p rd ra f s = .next (writeResult rd (f (s.getV ra)) s) :=
  withOperand_wf _ _ _ _ ha

theorem binaryOp_wf {s : State} {p : Prec} {ra rb : RegId} (ha : (s.getV ra).wf s.cfg p = true)
    (hb : (s.getV rb).wf s.cfg p = true) (rd : RegId) (f : VReg → VReg → Result) :
    binaryOp p rd ra rb f s = .next (writeResult rd (f (s.getV ra) (s.getV rb)) s) := by
  rw [binaryOp, withOperand_wf _ _ _ _ ha, withOperand_wf _ _ _ _ hb]

/-- A one-operand command of a well-formed operand completes with its result (R66, R69). -/
theorem unaryOp_completes {s : State} {p : Prec} {ra : RegId} (ha : (s.getV ra).wf s.cfg p = true) (rd : RegId)
    (f : VReg → Result) : ∃ t, unaryOp p rd ra f s = .next t ∧ WritesResult s t rd (f (s.getV ra)) :=
  ⟨_, unaryOp_wf ha rd f, writeResult_writes s rd _⟩

/-- A two-operand command of well-formed operands completes with its result (R66, R69). -/
theorem binaryOp_completes {s : State} {p : Prec} {ra rb : RegId} (ha : (s.getV ra).wf s.cfg p = true)
    (hb : (s.getV rb).wf s.cfg p = true) (rd : RegId) (f : VReg → VReg → Result) :
    ∃ t, binaryOp p rd ra rb f s = .next t ∧ WritesResult s t rd (f (s.getV ra) (s.getV rb)) :=
  ⟨_, binaryOp_wf ha hb rd f, writeResult_writes s rd _⟩

/-- The same case of the spec, tested on Booleans by the machine and as a proposition by the reference: the branches
need to agree only where they are taken. -/
theorem ite_eq_ite {α : Type} {P Q : Prop} [Decidable P] [Decidable Q] {a a' b b' : α} (h : P ↔ Q) (ha : P → a = a')
    (hb : ¬P → b = b') : (if P then a else b) = (if Q then a' else b') :=
  ite_congr (propext h) (fun hq => ha (h.2 hq)) (fun hq => hb (mt h.1 hq))

/-! ## The order of two operands (R74) -/

/-- The machine's comparison of group lists is R74's: equal, or larger at the first group that differs. -/
theorem groupsGe_map_range_iff (n : Nat) : ∀ f g : Nat → Nat,
    groupsGe ((List.range n).map f) ((List.range n).map g) = true ↔
      (∀ i < n, f i = g i) ∨ ∃ i < n, g i < f i ∧ ∀ j < i, f j = g j := by
  induction n with
  | zero => simp [groupsGe]
  | succ n ih =>
    intro f g
    have hrest := ih (fun i => f (i + 1)) (fun i => g (i + 1))
    rw [List.range_succ_eq_map, List.map_cons, List.map_cons, List.map_map, List.map_map, groupsGe, Bool.or_eq_true,
      Bool.and_eq_true, beq_iff_eq, decide_eq_true_eq]
    simp only [Function.comp_def, Nat.succ_eq_add_one, hrest, Nat.forall_lt_succ_left, Nat.exists_lt_succ_left,
      Nat.not_lt_zero, IsEmpty.forall_iff, implies_true, and_true]
    by_cases h : f 0 = g 0
    · simp [h]
    · simp [h]

/-- Lists of as many groups compare as the integers they make. -/
theorem groupsGe_iff_le : ∀ gs hs : List Nat, gs.length = hs.length → (∀ d ∈ gs, d < base) → (∀ d ∈ hs, d < base) →
    (groupsGe gs hs = true ↔ fromGroups hs ≤ fromGroups gs)
  | [], [], _, _, _ => by simp [groupsGe]
  | a :: gs, b :: hs, hl, hg, hh => by
    have hl : gs.length = hs.length := Nat.succ.inj hl
    have hlow := fromGroups_lt gs fun d hd => hg d (List.mem_cons_of_mem _ hd)
    have hlow' := fromGroups_lt hs fun d hd => hh d (List.mem_cons_of_mem _ hd)
    have ih := groupsGe_iff_le gs hs hl (fun d hd => hg d (List.mem_cons_of_mem _ hd))
      (fun d hd => hh d (List.mem_cons_of_mem _ hd))
    rw [groupsGe, Bool.or_eq_true, Bool.and_eq_true, beq_iff_eq, decide_eq_true_eq, ih, fromGroups_cons,
      fromGroups_cons, ← hl]
    rw [← hl] at hlow'
    generalize base ^ gs.length = w at *
    generalize fromGroups gs = m at *
    generalize fromGroups hs = k at *
    rcases lt_trichotomy a b with h | rfl | h
    · have : (a + 1) * w ≤ b * w := Nat.mul_le_mul_right w h
      rw [add_one_mul] at this
      exact iff_of_false (by omega) (by omega)
    · omega
    · have : (b + 1) * w ≤ a * w := Nat.mul_le_mul_right w h
      rw [add_one_mul] at this
      exact iff_of_true (.inl h) (by omega)

/-- The machine picks R74's operand L. -/
theorem magGe_iff_lexGe (n : Nat) (x y : VReg) : magGe n x y = true ↔ y.e < x.e ∨ (x.e = y.e ∧ LexGe n x y) := by
  rw [magGe, Bool.or_eq_true, Bool.and_eq_true, beq_iff_eq, decide_eq_true_eq, VReg.groups, VReg.groups,
    groupsGe_map_range_iff]

/-- The operand `l` of R74 is at least as large as `s`, by exponent and then by significand. -/
def MagLe (n : Nat) (s l : VReg) : Prop := s.e < l.e ∨ (l.e = s.e ∧ s.sig n ≤ l.sig n)

theorem MagLe.of_not {n : Nat} {s l : VReg} (h : ¬MagLe n s l) : MagLe n l s := by
  unfold MagLe at *
  omega

theorem magGe_iff_magLe {c : Params} {p : Prec} {x y : VReg} (hx : x.wf c p = true) (fx : x.isFinite = true)
    (hy : y.wf c p = true) (fy : y.isFinite = true) :
    magGe (groupCount c p) x y = true ↔ MagLe (groupCount c p) y x := by
  have hsig := groupsGe_iff_le (x.groups (groupCount c p)) (y.groups (groupCount c p)) (by simp)
    (VReg.groups_lt c p x hx fx) (VReg.groups_lt c p y hy fy)
  rw [magGe, Bool.or_eq_true, Bool.and_eq_true, beq_iff_eq, decide_eq_true_eq, hsig]
  rfl

/-! ## The windows of the sum (R74) -/

theorem windowLarge_groups (n : Nat) (x : VReg) : windowLarge (x.groups n) = x.sig n * base := by
  rw [windowLarge, fromGroups_append]
  simp [fromGroups_cons, VReg.sig]

theorem windowLarge_eq_sumA (n : Nat) (x : VReg) : windowLarge (x.groups n) = sumA n x := by
  rw [windowLarge_groups, VReg.sig_eq_sum, sumA, Finset.sum_mul]
  refine Finset.sum_congr rfl fun i hi => ?_
  rw [Finset.mem_range] at hi
  rw [mul_assoc, ← pow_succ, base_eq]
  congr 2
  omega

theorem VReg.getElem_groups (n : Nat) (x : VReg) (i : Nat) (h : i < (x.groups n).length) :
    (x.groups n)[i] = x.groupAt i := by
  simp [VReg.groups]

/-- The window of the smaller operand, group by group: the operand's groups stand at positions `d` to `d + n - 1`. -/
theorem alignedGroups_eq (n d : Nat) (x : VReg) :
    (List.replicate d 0 ++ (x.groups n ++ [0])).take (n + 1) =
      (List.range (n + 1)).map fun j => if d ≤ j ∧ j - d < n then x.groupAt (j - d) else 0 := by
  refine List.ext_getElem (by simp) fun j hj _ => ?_
  simp only [List.length_take, List.length_append, List.length_replicate, VReg.length_groups] at hj
  simp only [List.getElem_take, List.getElem_map, List.getElem_range, List.getElem_append, List.getElem_replicate,
    List.length_replicate, VReg.length_groups, List.getElem_singleton, VReg.getElem_groups]
  by_cases hd : j < d
  · rw [dif_pos hd, if_neg (by omega)]
  · rw [dif_neg hd]
    by_cases hg : j - d < n
    · rw [dif_pos hg, if_pos ⟨by omega, hg⟩]
    · rw [dif_neg hg, if_neg (by omega)]

theorem windowSmall_eq_sumB {n : Nat} (hn : 0 < n) (d : Nat) (x : VReg) :
    windowSmall n d (x.groups n) = sumB n d x := by
  rw [windowSmall, alignedGroups_eq, fromGroups_range, sumB, Finset.sum_filter]
  refine Finset.sum_congr rfl fun j _ => ?_
  rw [ite_mul, zero_mul, Nat.add_sub_cancel, base_eq]
  exact if_congr (and_congr_right fun _ => Nat.lt_iff_le_pred hn) rfl rfl

theorem windowSmall_zero (n : Nat) (x : VReg) : windowSmall n 0 (x.groups n) = x.sig n * base := by
  rw [← windowLarge_groups, windowSmall, windowLarge]
  congr 1
  exact List.take_of_length_le (by simp)

/-- An operand aligned below the leading group of the window leaves that group 0. -/
theorem windowSmall_lt (n : Nat) {d : Nat} (hd : 0 < d) {gs : List Nat} (hg : ∀ g ∈ gs, g < base) :
    windowSmall n d gs < base ^ n := by
  obtain ⟨d, rfl⟩ : ∃ k, d = k + 1 := ⟨d - 1, by omega⟩
  have hall : ∀ g ∈ (List.replicate d 0 ++ (gs ++ [0])).take n, g < base := by
    intro g hmem
    have hmem := List.mem_of_mem_take hmem
    simp only [List.mem_append, List.mem_replicate, List.mem_singleton] at hmem
    rcases hmem with ⟨_, rfl⟩ | hmem | rfl
    · decide
    · exact hg g hmem
    · decide
  rw [windowSmall, List.replicate_succ, List.cons_append, List.take_succ_cons, fromGroups_cons, zero_mul, zero_add]
  exact (fromGroups_lt _ hall).trans_le (Nat.pow_le_pow_right (by decide) (List.length_take_le ..))

/-- The smaller operand's window is at most the larger one's, so R74's difference is not negative. -/
theorem windowSmall_le_windowLarge {c : Params} (hv : c.valid = true) {p : Prec} {l s : VReg} (hl : l.wf c p = true)
    (fl : l.isFinite = true) (zl : l.isZero (groupCount c p) = false) (hs : s.wf c p = true) (fs : s.isFinite = true)
    (hle : MagLe (groupCount c p) s l) :
    windowSmall (groupCount c p) (l.e - s.e).toNat (s.groups (groupCount c p)) ≤
      windowLarge (l.groups (groupCount c p)) := by
  have hn := groupCount_pos c hv p
  rw [windowLarge_groups]
  rcases hle with he | ⟨he, hsig⟩
  · obtain ⟨hlead, _⟩ := VReg.wf_nonzero c p l hl fl zl
    calc windowSmall (groupCount c p) (l.e - s.e).toNat (s.groups (groupCount c p))
        ≤ base ^ groupCount c p := (windowSmall_lt _ (by omega) (VReg.groups_lt c p s hs fs)).le
      _ = base ^ (groupCount c p - 1) * base := (pow_sub_one_mul hn.ne' base).symm
      _ ≤ l.sig (groupCount c p) * base := Nat.mul_le_mul_right _ (VReg.le_sig _ hn l hlead)
  · rw [he, sub_self, Int.toNat_zero, windowSmall_zero]
    exact Nat.mul_le_mul_right _ hsig

/-! ## ADD and SUB (R74, R75) -/

/-- R74's T over the integers is the machine's over the naturals where B is at most A. -/
theorem cast_addOrSub {P : Prop} [Decidable P] {a b : Nat} (h : b ≤ a) :
    ((if P then a + b else a - b : Nat) : Int) = if P then (a : Int) + b else a - b := by
  split
  · exact Nat.cast_add a b
  · exact Nat.cast_sub h

/-- The machine's sum in the window, rounded, is R74's last case. -/
theorem addOrdered_eq_addFiniteRef {c : Params} (hv : c.valid = true) {p : Prec} {l s : VReg}
    (hle : windowSmall (groupCount c p) (l.e - s.e).toNat (s.groups (groupCount c p)) ≤
      windowLarge (l.groups (groupCount c p))) (sl ss : Bool) :
    addOrdered c p l sl s ss = addFiniteRef c p l sl s ss := by
  rw [windowLarge_eq_sumA, windowSmall_eq_sumB (groupCount_pos c hv p)] at hle
  unfold addOrdered addFiniteRef
  dsimp only
  rw [windowLarge_eq_sumA, windowSmall_eq_sumB (groupCount_pos c hv p), ← cast_addOrSub hle]
  refine ite_eq_ite Int.natCast_eq_zero.symm (fun _ => rfl) fun ht => ?_
  rw [roundScaled_eq_roundReal c p sl _ 1 _ ht one_ne_zero, Nat.cast_one, div_one, ← mul_assoc, Int.cast_natCast]

/-- Operands of equal magnitude add to the same sum in either order: their windows are equal. -/
theorem addOrdered_comm_of_magLe (c : Params) (p : Prec) {x y : VReg} (hxy : MagLe (groupCount c p) x y)
    (hyx : MagLe (groupCount c p) y x) (sx sy : Bool) : addOrdered c p x sx y sy = addOrdered c p y sy x sx := by
  obtain ⟨he, hsig⟩ : x.e = y.e ∧ x.sig (groupCount c p) = y.sig (groupCount c p) := by
    unfold MagLe at *
    omega
  simp only [addOrdered, windowLarge_groups, he, hsig, sub_self, Int.toNat_zero, windowSmall_zero]
  by_cases h : sx = sy
  · rw [h]
  · simp [h, Ne.symm h]

section Operands

variable {c : Params} (hv : c.valid = true) {p : Prec} {x y : VReg} (hx : x.wf c p = true) (hy : y.wf c p = true)

include hv hx hy

theorem addSigned_eq_addRef (sy : Bool) : addSigned c p x y sy = addRef c p x y sy :=
  ite_eq_ite Bool.or_eq_true_iff (fun _ => rfl) fun hnan =>
  ite_eq_ite Bool.and_eq_true_iff (fun _ => rfl) fun _ =>
  ite_eq_ite Iff.rfl (fun _ => rfl) fun hxi =>
  ite_eq_ite Iff.rfl (fun _ => rfl) fun hyi =>
  ite_eq_ite Bool.and_eq_true_iff (fun _ => rfl) fun _ =>
  ite_eq_ite Iff.rfl (fun _ => rfl) fun hyz =>
  ite_eq_ite Iff.rfl (fun _ => rfl) fun hxz =>
  have hn := ne_true_of_or_ne_true hnan
  have fx := VReg.isFinite_of_not hn.1 hxi
  have fy := VReg.isFinite_of_not hn.2 hyi
  have horder := magGe_iff_magLe hx fx hy fy
  ite_eq_ite (magGe_iff_lexGe _ x y)
    (fun h => addOrdered_eq_addFiniteRef hv
      (windowSmall_le_windowLarge hv hx fx (eq_false_of_ne_true hxz) hy fy (horder.1 h)) _ _)
    (fun h => addOrdered_eq_addFiniteRef hv
      (windowSmall_le_windowLarge hv hy fy (eq_false_of_ne_true hyz) hx fx (MagLe.of_not (mt horder.2 h))) _ _)

omit hv in
/-- The sum does not depend on the order of its operands (R76). -/
theorem addV_comm : addV c p x y = addV c p y x :=
  ite_eq_ite (by rw [Bool.or_comm]) (fun _ => rfl) fun hnan =>
  ite_eq_ite (by rw [Bool.and_comm]) (fun _ => congrArg (·, RangeOutcome.ok)
    (ite_eq_ite eq_comm (fun h => congrArg (infV c p) h) fun _ => rfl)) fun hinf =>
  (ite_ite_comm _ _ _ _ fun hxi hyi => hinf (Bool.and_eq_true_iff.2 ⟨hxi, hyi⟩)).trans <|
  ite_eq_ite Iff.rfl (fun _ => rfl) fun hyi =>
  ite_eq_ite Iff.rfl (fun _ => rfl) fun hxi =>
  ite_eq_ite (by rw [Bool.and_comm]) (fun _ => rfl) fun hzero =>
  (ite_ite_comm _ _ _ _ fun hyz hxz => hzero (Bool.and_eq_true_iff.2 ⟨hxz, hyz⟩)).trans <|
  ite_eq_ite Iff.rfl (fun _ => rfl) fun _ =>
  ite_eq_ite Iff.rfl (fun _ => rfl) fun _ => by
    have hn := ne_true_of_or_ne_true hnan
    have fx := VReg.isFinite_of_not hn.1 hxi
    have fy := VReg.isFinite_of_not hn.2 hyi
    have hxy := magGe_iff_magLe hx fx hy fy
    have hyx := magGe_iff_magLe hy fy hx fx
    by_cases hge : magGe (groupCount c p) x y = true
    · by_cases hge' : magGe (groupCount c p) y x = true
      · rw [if_pos hge, if_pos hge']
        exact addOrdered_comm_of_magLe c p (hyx.1 hge') (hxy.1 hge) _ _
      · rw [if_pos hge, if_neg hge']
    · rw [if_neg hge, if_pos (hyx.2 (MagLe.of_not (mt hxy.2 hge)))]

end Operands

/-- Settles O9: the machine's sum is R74's. -/
theorem addFollowsPseudocode : Obligations.AddFollowsPseudocode := by
  intro s p rd ra rb hv ha hb
  rw [← addSigned_eq_addRef hv ha hb]
  exact binaryOp_completes ha hb rd _

/-- Settles O10: the machine's difference is R74's sum with the sign of y inverted (R75). -/
theorem subFollowsPseudocode : Obligations.SubFollowsPseudocode := by
  intro s p rd ra rb hv ha hb
  rw [← addSigned_eq_addRef hv ha hb]
  exact binaryOp_completes ha hb rd _

/-! ## The laws of ADD and SUB (R76) -/

/-- Settles O11: the operand checks raise the same fault in either order, and the sum of operands that pass them is the
same. -/
theorem addCommutes : Obligations.AddCommutes := by
  intro s p rd ra rb _
  change binaryOp p rd ra rb (addV s.cfg p) s = binaryOp p rd rb ra (addV s.cfg p) s
  rcases binaryOp_cases p rd ra rb (addV s.cfg p) s with ⟨ha, hb, h⟩ | ⟨hbad, h⟩
  · rw [h, binaryOp_wf hb ha, addV_comm ha hb]
  · rw [h, binaryOp_badSource (by simpa using hbad.symm)]

theorem groups_copyFinite {c : Params} {p : Prec} {x : VReg} (hx : x.wf c p = true) (fx : x.isFinite = true)
    (neg : Bool) :
    (copyFinite c p (groupCount c p) x neg).groups (groupCount c p) = x.groups (groupCount c p) := by
  rw [copyFinite, finiteV, groups_mkImage c p _ _ _ _ _ _ (VReg.groups_lt c p x hx fx) (by simp)]
  simp

theorem e_copyFinite {c : Params} (hv : c.valid = true) {p : Prec} {x : VReg} (hx : x.wf c p = true)
    (fx : x.isFinite = true) (zx : x.isZero (groupCount c p) = false) (neg : Bool) :
    (copyFinite c p (groupCount c p) x neg).e = x.e := by
  obtain ⟨_, hmin, hmax⟩ := VReg.wf_nonzero c p x hx fx zx
  have V := paramFacts c hv
  exact e_mkImage _ _ _ _ _ _ _ (V.expMin.1.trans hmin) (hmax.trans V.expMax.2)

theorem VReg.isFinite_iff {x : VReg} : x.isFinite = true ↔ x.isNaN = false ∧ x.isInf = false := by
  unfold VReg.isFinite VReg.isNaN VReg.isInf
  cases x.nan <;> simp

theorem isZero_zeroV (c : Params) (p : Prec) (n : Nat) : (zeroV c p).isZero n = true := by
  have hG := groupAt_mkImage c p [] 0 false false false (by simp)
  exact Bool.and_eq_true_iff.2 ⟨rfl, (VReg.groupsZero_iff _ _).2 fun i _ => hG i⟩

/-! The sum by the class of its second operand: a NaN, an Infinity, a zero, or a nonzero number. -/

theorem addSigned_nan (c : Params) (p : Prec) (x : VReg) {y : VReg} (sy : Bool) (hn : y.isNaN = true) :
    addSigned c p x y sy = (nanV c p, .ok) := by
  simp [addSigned, hn]

theorem addSigned_inf (c : Params) (p : Prec) (x : VReg) {y : VReg} (sy : Bool) (hn : y.isNaN = false)
    (hi : y.isInf = true) : addSigned c p x y sy =
      if x.isNaN then (nanV c p, .ok)
      else if x.isInf then (if x.neg = sy then infV c p x.neg else nanV c p, .ok)
      else (infV c p sy, .ok) := by
  cases hx : x.isInf <;> simp [addSigned, hn, hi, hx]

theorem addSigned_zero (c : Params) (p : Prec) (x : VReg) {y : VReg} (sy : Bool) (hn : y.isNaN = false)
    (hi : y.isInf = false) (hz : y.isZero (groupCount c p) = true) : addSigned c p x y sy =
      if x.isNaN then (nanV c p, .ok)
      else if x.isInf then (infV c p x.neg, .ok)
      else if x.isZero (groupCount c p) then (zeroV c p, .ok)
      else (copyFinite c p (groupCount c p) x x.neg, .ok) := by
  simp [addSigned, hn, hi, hz]

/-- A number is read through its groups and its exponent only. -/
theorem addSigned_congr {c : Params} {p : Prec} (x : VReg) {y z : VReg} (sy : Bool) (hy : y.isFinite = true)
    (hz : z.isFinite = true) (hg : z.groups (groupCount c p) = y.groups (groupCount c p)) (he : z.e = y.e) :
    addSigned c p x z sy = addSigned c p x y sy := by
  obtain ⟨hynan, hyinf⟩ := VReg.isFinite_iff.1 hy
  obtain ⟨hznan, hzinf⟩ := VReg.isFinite_iff.1 hz
  have hzero : z.isZero (groupCount c p) = y.isZero (groupCount c p) := by
    rw [VReg.isZero, VReg.isZero, VReg.groupsZero, VReg.groupsZero, hy, hz, hg]
  unfold addSigned magGe addOrdered copyFinite
  dsimp only
  rw [hynan, hznan, hyinf, hzinf, hzero, hg, he]

/-- Adding the negated operand subtracts it (R76). -/
theorem addV_negV {c : Params} (hv : c.valid = true) {p : Prec} (x : VReg) {y : VReg} (hy : y.wf c p = true) :
    addV c p x (negV c p y).1 = subV c p x y := by
  unfold negV addV subV
  dsimp only
  split
  · next hn => rw [addSigned_nan c p x _ hn, addSigned_nan c p x _ rfl]
  · next hn =>
    split
    · next hi => rw [addSigned_inf c p x _ (eq_false_of_ne_true hn) hi, addSigned_inf c p x _ rfl rfl]; rfl
    · next hi =>
      split
      · next hz =>
        rw [addSigned_zero c p x _ (eq_false_of_ne_true hn) (eq_false_of_ne_true hi) hz,
          addSigned_zero c p x _ rfl rfl (isZero_zeroV c p _)]
      · next hz =>
        have fy := VReg.isFinite_of_not hn hi
        exact addSigned_congr x _ fy rfl (groups_copyFinite hy fy _)
          (e_copyFinite hv hy fy (eq_false_of_ne_true hz) _)

/-- Settles O12: NEG leaves the first source as it was and a well-formed operand in `rt`, and adding that operand
subtracts the original. -/
theorem subIsAddOfNeg : Obligations.SubIsAddOfNeg := by
  intro s p rd ra rb rt hv ha hb hne
  set u := writeResult rt (negV s.cfg p (s.getV rb)) s
  have hneg : exec (.neg p rt rb) s = .next u := unaryOp_wf hb rt (negV s.cfg p)
  have hu := writeResult_writes s rt (negV s.cfg p (s.getV rb))
  have hra : u.getV ra = s.getV ra := hu.others ra hne.symm
  have hrt : u.getV rt = (negV s.cfg p (s.getV rb)).1 := hu.value
  have hwt := wf_of_canonical s.cfg p _ (canonical_negV hv p hb)
  have hadd : exec (.add p rd ra rt) u = .next (writeResult rd (addV s.cfg p (u.getV ra) (u.getV rt)) u) :=
    binaryOp_wf (s := u) (by rw [hra]; exact ha) (by rw [hrt]; exact hwt) rd (addV s.cfg p)
  rw [hra, hrt, addV_negV hv _ hb] at hadd
  have ht := writeResult_writes s rd (subV s.cfg p (s.getV ra) (s.getV rb))
  have hw := writeResult_writes u rd (subV s.cfg p (s.getV ra) (s.getV rb))
  refine ⟨_, u, _, binaryOp_wf ha hb rd (subV s.cfg p), hneg, hadd, ht.value.trans hw.value.symm, ?_⟩
  rw [ht.status, hw.status]

/-! ## MUL, DIV and SQRT (R77, R78, R80) -/

theorem mulV_eq_mulRef (c : Params) (p : Prec) (x y : VReg) : mulV c p x y = mulRef c p x y :=
  ite_eq_ite Bool.or_eq_true_iff (fun _ => rfl) fun hnan =>
  ite_eq_ite Bool.or_eq_true_iff (fun _ => by simp only [Bool.or_eq_true]) fun hinf =>
  ite_eq_ite Bool.or_eq_true_iff (fun _ => rfl) fun hzero => by
    have hn := ne_true_of_or_ne_true hnan
    have hi := ne_true_of_or_ne_true hinf
    have hz := ne_true_of_or_ne_true hzero
    have hx := VReg.sig_ne_zero_of_not hn.1 hi.1 hz.1
    have hy := VReg.sig_ne_zero_of_not hn.2 hi.2 hz.2
    rw [roundScaled_eq_roundReal c p _ _ 1 _ (Nat.mul_ne_zero hx hy) one_ne_zero, VReg.val_eq_sig, VReg.val_eq_sig,
      signFactor_xor, zpow_add₀ (by norm_num)]
    push_cast
    congr 1
    ring

/-- Settles O13: the machine's product is R77's. -/
theorem mulFollowsPseudocode : Obligations.MulFollowsPseudocode := by
  intro s p rd ra rb _ ha hb
  rw [← mulV_eq_mulRef]
  exact binaryOp_completes ha hb rd _

theorem divV_eq_divRef (c : Params) (p : Prec) (x y : VReg) : divV c p x y = divRef c p x y :=
  ite_eq_ite Bool.or_eq_true_iff (fun _ => rfl) fun hnan =>
  ite_eq_ite Bool.and_eq_true_iff (fun _ => rfl) fun _ =>
  ite_eq_ite Iff.rfl (fun _ => by cases y.isZero (groupCount c p) <;> simp) fun hxi =>
  ite_eq_ite Iff.rfl (fun _ => rfl) fun hyi =>
  ite_eq_ite Iff.rfl (fun _ => rfl) fun hyz =>
  ite_eq_ite Iff.rfl (fun _ => rfl) fun hxz => by
    have hn := ne_true_of_or_ne_true hnan
    have hx := VReg.sig_ne_zero_of_not hn.1 hxi hxz
    have hy := VReg.sig_ne_zero_of_not hn.2 hyi hyz
    rw [roundScaled_eq_roundReal c p _ _ _ _ hx hy, VReg.val_eq_sig, VReg.val_eq_sig, ← signFactor_div,
      zpow_sub₀ (by norm_num), mul_div_mul_comm, mul_div_mul_comm]

/-- Settles O14: the machine's quotient is R78's. -/
theorem divFollowsPseudocode : Obligations.DivFollowsPseudocode := by
  intro s p rd ra rb _ ha hb
  rw [← divV_eq_divRef]
  exact binaryOp_completes ha hb rd _

theorem sqrtV_eq_sqrtRef (c : Params) (p : Prec) (x : VReg) : sqrtV c p x = sqrtRef c p x :=
  ite_eq_ite Iff.rfl (fun _ => rfl) fun hn =>
  ite_eq_ite Iff.rfl (fun _ => rfl) fun hi =>
  ite_eq_ite Iff.rfl (fun _ => rfl) fun hz =>
  ite_eq_ite Iff.rfl (fun _ => rfl) fun hneg => by
    have hval : x.val (groupCount c p) = x.sig (groupCount c p) * (10000 : ℝ) ^ x.low (groupCount c p) := by
      rw [VReg.val_eq_sig, signFactor, if_neg hneg, one_mul]
    rw [roundRoot_eq_roundReal c p _ _ (VReg.sig_ne_zero_of_not hn hi hz), hval]

/-- Settles O15: the machine's root is R80's. -/
theorem sqrtFollowsPseudocode : Obligations.SqrtFollowsPseudocode := by
  intro s p rd ra _ ha
  rw [← sqrtV_eq_sqrtRef]
  exact unaryOp_completes ha rd _

end Sys2Proof.Machine
end

section
/-! PROOFS. The statements of spec/41_compare_classify.md: what CMP and the classification tests write. -/

namespace Sys2Proof.Machine

/-! ## The order of ranks (R82, R83) -/

/-- The value of a register is its signed significand scaled by the last group's weight (R13). -/
theorem VReg.val_eq_signedSig (n : Nat) (x : VReg) : x.val n = x.signedSig n * (10000 : ℝ) ^ x.low n := by
  rw [VReg.val_eq_sig, VReg.signedSig, signFactor]
  split <;> simp

/-- A power of the base is the part above a smaller exponent times the power at that exponent. -/
theorem zpow_split_of_le {k k' : Int} (h : k ≤ k') :
    (10000 : ℝ) ^ k' = (10000 : ℝ) ^ (k' - k).toNat * (10000 : ℝ) ^ k := by
  rw [← zpow_natCast, ← zpow_add₀ (by norm_num)]
  congr 1
  omega

/-- Comparing at the smaller of the two exponents compares the scaled numbers. -/
theorem scaledLt_iff (m₁ k₁ m₂ k₂ : Int) :
    scaledLt m₁ k₁ m₂ k₂ = true ↔ (m₁ : ℝ) * (10000 : ℝ) ^ k₁ < m₂ * (10000 : ℝ) ^ k₂ := by
  have hpos : (0 : ℝ) < (10000 : ℝ) ^ min k₁ k₂ := by positivity
  rw [scaledLt, decide_eq_true_eq, zpow_split_of_le (min_le_left k₁ k₂), zpow_split_of_le (min_le_right k₁ k₂),
    ← mul_assoc, ← mul_assoc, mul_lt_mul_iff_left₀ hpos, base_eq]
  exact_mod_cast Iff.rfl

/-- The extended real a machine rank stands for (R82). -/
noncomputable def Rank.toEReal : Rank → EReal
  | .negInf => ⊥
  | .fin m k => ((m * (10000 : ℝ) ^ k : ℝ) : EReal)
  | .posInf => ⊤

theorem VReg.toEReal_rank (n : Nat) (x : VReg) : (x.rank n).toEReal = x.rankReal n := by
  unfold VReg.rank VReg.rankReal
  rw [VReg.val_eq_signedSig]
  split_ifs <;> rfl

theorem Rank.lt_iff : ∀ a b : Rank, a.lt b = true ↔ a.toEReal < b.toEReal
  | .negInf, .negInf => by simp [Rank.lt]
  | .negInf, .fin _ _ => iff_of_true rfl (EReal.bot_lt_coe _)
  | .negInf, .posInf => iff_of_true rfl bot_lt_top
  | .fin _ _, .negInf => by simp [Rank.lt, Rank.toEReal]
  | .fin m₁ k₁, .fin m₂ k₂ => (scaledLt_iff m₁ k₁ m₂ k₂).trans EReal.coe_lt_coe_iff.symm
  | .fin _ _, .posInf => iff_of_true rfl (EReal.coe_lt_top _)
  | .posInf, .negInf => by simp [Rank.lt, Rank.toEReal]
  | .posInf, .fin _ _ => by simp [Rank.lt, Rank.toEReal]
  | .posInf, .posInf => by simp [Rank.lt]

theorem VReg.rank_lt_iff (n : Nat) (x y : VReg) :
    (x.rank n).lt (y.rank n) = true ↔ x.rankReal n < y.rankReal n := by
  rw [Rank.lt_iff, VReg.toEReal_rank, VReg.toEReal_rank]

/-- The machine tests LT, GT, EQ in turn and R83 tests EQ, LT, GT: the order of the extended reals is total. -/
theorem cmpV_eq_cmpRef (n : Nat) (x y : VReg) : cmpV n x y = cmpRef n x y :=
  ite_eq_ite Bool.or_eq_true_iff (fun _ => rfl) fun _ => by
    simp only [VReg.rank_lt_iff]
    rcases lt_trichotomy (x.rankReal n) (y.rankReal n) with h | h | h
    · rw [if_pos h, if_neg h.ne, if_pos h]
    · rw [if_neg h.not_lt, if_neg h.not_gt, if_pos h]
    · rw [if_neg h.not_gt, if_pos h, if_neg h.ne', if_neg h.not_gt]

/-- CMP of well-formed operands writes the comparison (R66, R83). -/
theorem execCmp_wf {s : State} {p : Prec} {ra rb : RegId} (ha : (s.getV ra).wf s.cfg p = true)
    (hb : (s.getV rb).wf s.cfg p = true) :
    execCmp p ra rb s = .next (s.setCmp (cmpV (groupCount s.cfg p) (s.getV ra) (s.getV rb))) := by
  rw [execCmp, withOperand_wf _ _ _ _ ha, withOperand_wf _ _ _ _ hb]

/-- Settles O16: both operands pass the check, and the machine's comparison is R83's. -/
theorem cmpFollowsRank : Obligations.CmpFollowsRank := by
  intro s p ra rb ha hb
  rw [← cmpV_eq_cmpRef]
  exact ⟨_, execCmp_wf ha hb, setCmp_writes s _⟩

/-! ## The classification tests (R84..R87) -/

theorem VReg.isFinite_iff_fields {x : VReg} : x.isFinite = true ↔ x.nan = false ∧ x.inf = false := by
  simp [VReg.isFinite]

theorem VReg.isZero_iff {n : Nat} {x : VReg} :
    x.isZero n = true ↔ x.nan = false ∧ x.inf = false ∧ ∀ i < n, x.groupAt i = 0 := by
  rw [VReg.isZero, Bool.and_eq_true, VReg.isFinite_iff_fields, VReg.groupsZero_iff, and_assoc]

theorem VReg.isInf_iff {x : VReg} : x.isInf = true ↔ x.nan = false ∧ x.inf = true := by
  simp [VReg.isInf]

theorem VReg.natAbs_signedSig (n : Nat) (x : VReg) : (x.signedSig n).natAbs = x.sig n := by
  unfold VReg.signedSig
  split <;> simp

/-- With a nonnegative exponent the divisor is 1, so the divisibility alone decides. -/
theorem VReg.isInteger_iff_dvd (n : Nat) (x : VReg) :
    x.isInteger n = true ↔ ((10000 ^ (-x.low n).toNat : Nat) : Int) ∣ x.signedSig n := by
  rw [Int.natCast_dvd, VReg.natAbs_signedSig, VReg.isInteger, Bool.or_eq_true, decide_eq_true_eq, beq_iff_eq,
    ← Nat.dvd_iff_mod_eq_zero, base_eq, or_iff_right_iff_imp]
  intro hlow
  rw [Int.toNat_of_nonpos (by omega), pow_zero]
  exact one_dvd _

/-- An integer scaled by a power of the base is an integer exactly when the part below the point divides out. -/
theorem scaled_isInt_iff_dvd (m k : Int) :
    (∃ z : Int, (m : ℝ) * (10000 : ℝ) ^ k = z) ↔ ((10000 ^ (-k).toNat : Nat) : Int) ∣ m := by
  have hpow := zpow_eq_div 10000 (by norm_num) k
  rw [Nat.cast_ofNat] at hpow
  rcases le_total 0 k with hk | hk
  · rw [hpow, Int.toNat_of_nonpos (by omega : -k ≤ 0)]
    exact iff_of_true ⟨m * 10000 ^ k.toNat, by push_cast; ring⟩ (by simp)
  · rw [hpow, Int.toNat_of_nonpos hk, pow_zero, mul_one_div]
    refine exists_congr fun z => ?_
    rw [div_eq_iff (by positivity), mul_comm (z : ℝ)]
    exact_mod_cast Iff.rfl

theorem VReg.isInteger_iff (n : Nat) (x : VReg) : x.isInteger n = true ↔ ∃ z : Int, x.val n = z := by
  rw [VReg.isInteger_iff_dvd, VReg.val_eq_signedSig, scaled_isInt_iff_dvd]

theorem VReg.isFinite_and_isInteger_iff {n : Nat} {x : VReg} :
    (x.isFinite && x.isInteger n) = true ↔ x.nan = false ∧ x.inf = false ∧ ∃ z : Int, x.val n = z := by
  rw [Bool.and_eq_true, VReg.isFinite_iff_fields, VReg.isInteger_iff, and_assoc]

/-- A test of a well-formed operand completes with its predicate in STATUS.T (R66, R84..R87). -/
theorem testOp_completes {s : State} {p : Prec} {ra : RegId} (ha : (s.getV ra).wf s.cfg p = true) (f : VReg → Bool)
    {P : Prop} (hf : f (s.getV ra) = true ↔ P) :
    ∃ t b, testOp p ra f s = .next t ∧ WritesStatus s t { s.status with t := b } ∧ (b = true ↔ P) :=
  ⟨_, _, withOperand_wf _ _ _ _ ha, setT_writes s _, hf⟩

/-- Settles O17: each test completes, and its predicate is the rule's. -/
theorem testsWriteT : Obligations.TestsWriteT := by
  intro s p ra ha
  exact ⟨testOp_completes ha (fun x => x.isZero (groupCount s.cfg p)) VReg.isZero_iff,
    testOp_completes ha (fun x => x.isInf) VReg.isInf_iff,
    testOp_completes ha (fun x => x.isNaN) Iff.rfl,
    testOp_completes ha (fun x => x.isFinite && x.isInteger (groupCount s.cfg p)) VReg.isFinite_and_isInteger_iff⟩

end Sys2Proof.Machine
end

section
/-! PROOFS. The statements of spec/42_integer_sign.md: what FLOOR and TRUNC write, where they are exact, and NEG. -/

namespace Sys2Proof.Machine

open Config (Params)

/-! ## The integer parts of a value (R88, R89) -/

theorem truncReal_intCast (z : Int) : truncReal (z : ℝ) = z := by
  rw [truncReal, ← Int.cast_abs, Int.floor_intCast]
  split
  · next h => rw [abs_of_neg (by exact_mod_cast h), neg_neg]
  · next h => exact abs_of_nonneg (by exact_mod_cast not_lt.1 h)

/-- The integer part of a signed magnitude is the signed floor of the magnitude. -/
theorem truncReal_signFactor_mul (b : Bool) {a : ℝ} (ha : 0 ≤ a) :
    (truncReal (signFactor b * a) : ℝ) = signFactor b * ⌊a⌋ := by
  rcases ha.eq_or_lt with rfl | hpos
  · simp [truncReal]
  · rw [truncReal, abs_mul, signFactor_abs, one_mul, abs_of_pos hpos]
    cases b with
    | false => simp [signFactor, ha.not_gt]
    | true => simp [signFactor, hpos]

theorem natAbs_truncReal_lt {r : ℝ} {b : Nat} (h : |r| < b) : (truncReal r).natAbs < b := by
  have habs : (truncReal r).natAbs = ⌊|r|⌋.natAbs := by
    rw [truncReal]
    split
    · exact Int.natAbs_neg _
    · rfl
  have hlow : 0 ≤ ⌊|r|⌋ := Int.floor_nonneg.2 (abs_nonneg r)
  have hhigh : ⌊|r|⌋ < (b : Int) := Int.floor_lt.2 (by exact_mod_cast h)
  omega

theorem natAbs_floor_le {r : ℝ} {b : Nat} (h : |r| < b) : ⌊r⌋.natAbs ≤ b := by
  obtain ⟨hneg, hpos⟩ := abs_lt.1 h
  have hlow : -(b : Int) ≤ ⌊r⌋ := Int.le_floor.2 (by push_cast; exact hneg.le)
  have hhigh : ⌊r⌋ < (b : Int) := Int.floor_lt.2 (by exact_mod_cast hpos)
  omega

theorem cast_floor_div (m d : Nat) : (⌊(m : ℝ) / d⌋ : ℝ) = (m / d : Nat) := by
  rw [Int.floor_div_natCast, Int.floor_natCast, ← Int.natCast_div, Int.cast_natCast]

/-- The floor of a negative quotient: a remainder rounds it away from zero. -/
theorem cast_floor_neg_div (m : Nat) {d : Nat} (hd : 0 < d) :
    (⌊-((m : ℝ) / d)⌋ : ℝ) = -((if m % d = 0 then m / d else m / d + 1 : Nat) : ℝ) := by
  have hcast : -((m : ℝ) / d) = ((-(m : Int) : Int) : ℝ) / (d : ℝ) := by
    push_cast
    ring
  rw [hcast, Int.floor_div_natCast, Int.floor_intCast, Int.neg_ediv, Int.sign_natCast_of_ne_zero hd.ne',
    ← Int.natCast_div]
  simp only [Int.natCast_dvd_natCast, Nat.dvd_iff_mod_eq_zero, Int.cast_sub, Int.cast_neg, Int.cast_natCast]
  split
  · simp
  · push_cast
    ring

/-- A value whose last group has a nonnegative exponent is an integer. -/
theorem VReg.exists_int_val {n : Nat} {x : VReg} (h : 0 ≤ x.low n) : ∃ z : Int, x.val n = z :=
  (VReg.isInteger_iff n x).1 (by simp [VReg.isInteger, h])

/-- A magnitude whose last group has a negative exponent, as the quotient the machine divides by. -/
theorem VReg.sig_mul_zpow_low {n : Nat} {x : VReg} (h : x.low n < 0) :
    (x.sig n : ℝ) * (10000 : ℝ) ^ x.low n = (x.sig n : ℝ) / ((base ^ (-x.low n).toNat : Nat) : ℝ) := by
  have hpow := zpow_eq_div 10000 (by norm_num) (x.low n)
  rw [Nat.cast_ofNat, Int.toNat_of_nonpos h.le, pow_zero] at hpow
  rw [hpow, mul_one_div, Nat.cast_pow, base_cast]

theorem VReg.truncReal_val (n : Nat) (x : VReg) : (truncReal (x.val n) : ℝ) =
    signFactor x.neg * (((x.truncParts n).1 : ℝ) * (10000 : ℝ) ^ (x.truncParts n).2) := by
  unfold VReg.truncParts
  split
  · next h =>
    obtain ⟨z, hz⟩ := VReg.exists_int_val h
    rw [hz, truncReal_intCast, ← hz, VReg.val_eq_sig]
  · next h =>
    rw [VReg.val_eq_sig, truncReal_signFactor_mul _ (by positivity), VReg.sig_mul_zpow_low (not_le.1 h),
      cast_floor_div, zpow_zero, mul_one]

theorem VReg.floor_val (n : Nat) (x : VReg) : (⌊x.val n⌋ : ℝ) =
    signFactor x.neg * (((x.floorParts n).1 : ℝ) * (10000 : ℝ) ^ (x.floorParts n).2) := by
  unfold VReg.floorParts
  split
  · next h =>
    obtain ⟨z, hz⟩ := VReg.exists_int_val h
    rw [hz, Int.floor_intCast, ← hz, VReg.val_eq_sig]
  · next h =>
    rw [VReg.val_eq_sig, VReg.sig_mul_zpow_low (not_le.1 h)]
    have hd : 0 < base ^ (-x.low n).toNat := Nat.pow_pos (by decide)
    generalize base ^ (-x.low n).toNat = d at hd ⊢
    cases x.neg with
    | false => simp [signFactor, cast_floor_div]
    | true =>
      by_cases hrem : x.sig n % d = 0
      · simp [signFactor, cast_floor_neg_div _ hd, hrem]
      · simp [signFactor, cast_floor_neg_div _ hd, hrem]

/-! ## FLOOR and TRUNC (R88, R89) -/

/-- The machine rounds the integer it holds as a scaled number as R88 and R89 write it. -/
theorem integerResult_eq_integerRef (c : Params) (p : Prec) (neg : Bool) (q : Nat × Int) {z : Int}
    (h : (z : ℝ) = signFactor neg * ((q.1 : ℝ) * (10000 : ℝ) ^ q.2)) : integerResult c p neg q = integerRef c p z := by
  have hzero : q.1 = 0 ↔ z = 0 := by
    rw [← Int.cast_eq_zero (α := ℝ), h]
    simp [signFactor_ne_zero, zpow_ne_zero]
  refine ite_eq_ite hzero (fun _ => rfl) fun hq => ?_
  rw [roundScaled_eq_roundReal c p neg _ 1 _ hq one_ne_zero, Nat.cast_one, div_one, ← h]

theorem floorV_eq_integerPartRef (c : Params) (p : Prec) (x : VReg) :
    floorV c p x = integerPartRef c p Int.floor x :=
  ite_eq_ite Iff.rfl (fun _ => rfl) fun _ =>
  ite_eq_ite Iff.rfl (fun _ => rfl) fun _ =>
  ite_eq_ite Iff.rfl (fun _ => rfl) fun _ => integerResult_eq_integerRef c p _ _ (VReg.floor_val _ x)

theorem truncV_eq_integerPartRef (c : Params) (p : Prec) (x : VReg) :
    truncV c p x = integerPartRef c p truncReal x :=
  ite_eq_ite Iff.rfl (fun _ => rfl) fun _ =>
  ite_eq_ite Iff.rfl (fun _ => rfl) fun _ =>
  ite_eq_ite Iff.rfl (fun _ => rfl) fun _ => integerResult_eq_integerRef c p _ _ (VReg.truncReal_val _ x)

/-- Settles O18: the machine's floor and integer part are R88's and R89's. -/
theorem floorTruncFollowPseudocode : Obligations.FloorTruncFollowPseudocode := by
  intro s p rd ra _ ha
  rw [← floorV_eq_integerPartRef, ← truncV_eq_integerPartRef]
  exact ⟨unaryOp_completes ha rd _, unaryOp_completes ha rd _⟩

/-! ## Where the integer is exact (R88's derivation) -/

/-- The result `r` of a precision of `n` groups is exactly `v`, with outcome OK. -/
def ExactResult (n : Nat) (r : Result) (v : ℝ) : Prop := r.2 = .ok ∧ r.1.val n = v

/-- What an exact result leaves in the next state. -/
theorem ExactResult.written {n : Nat} {r : Result} {v : ℝ} (h : ExactResult n r v) {s t : State} {rd : RegId}
    (hw : WritesResult s t rd r) : t.status.outcome = .ok ∧ (t.getV rd).val n = v := by
  obtain ⟨hok, hval⟩ := h
  rw [hw.status, hw.value]
  exact ⟨hok, hval⟩

theorem VReg.val_eq_zero {n : Nat} {x : VReg} (h : x.isZero n = true) : x.val n = 0 := by
  obtain ⟨_, hgroups⟩ := Bool.and_eq_true_iff.1 h
  rw [VReg.val_eq_sig, (VReg.sig_eq_zero n x).2 hgroups]
  simp

theorem exactResult_zeroV (c : Params) (p : Prec) (n : Nat) : ExactResult n (zeroV c p, .ok) 0 :=
  ⟨rfl, VReg.val_eq_zero (isZero_zeroV c p n)⟩

/-- The magnitude of a value of exponent `e` is below `10000^(e+1)`, and below 1 where `e + 1` is negative. -/
theorem VReg.abs_val_lt {c : Params} {p : Prec} {x : VReg} (hx : x.wf c p = true) (fx : x.isFinite = true) :
    |x.val (groupCount c p)| < ((base ^ (x.e + 1).toNat : Nat) : ℝ) := by
  have hsig : (x.sig (groupCount c p) : ℝ) < (10000 : ℝ) ^ (groupCount c p : Int) := by
    rw [zpow_natCast]
    exact_mod_cast VReg.sig_lt c p x hx fx
  rw [VReg.val_eq_sig, abs_mul, signFactor_abs, one_mul, abs_of_nonneg (by positivity), Nat.cast_pow, base_cast,
    ← zpow_natCast]
  calc (x.sig (groupCount c p) : ℝ) * (10000 : ℝ) ^ x.low (groupCount c p)
      < (10000 : ℝ) ^ (groupCount c p : Int) * (10000 : ℝ) ^ x.low (groupCount c p) :=
        mul_lt_mul_of_pos_right hsig (by positivity)
    _ = (10000 : ℝ) ^ (x.e + 1) := by
        rw [← zpow_add₀ (by norm_num), VReg.low]
        congr 1
        ring
    _ ≤ (10000 : ℝ) ^ ((x.e + 1).toNat : Int) := zpow_le_zpow_right₀ (by norm_num) (Int.self_le_toNat _)

section Exact

variable {c : Params} (hv : c.valid = true) {p : Prec}

include hv

/-- An integer of at most N_p groups whose exponent is in range is written as it is. -/
theorem exactResult_integerRef {z : Int} {m : Nat} (hlt : z.natAbs < base ^ m) (hm : m ≤ groupCount c p)
    (hm' : (m : Int) - 1 ≤ c.expMax) : ExactResult (groupCount c p) (integerRef c p z) z := by
  unfold integerRef
  split
  · next hz =>
    rw [hz, Int.cast_zero]
    exact exactResult_zeroV c p _
  · next hz =>
    rw [← signFactor_mul_natAbs z]
    exact roundReal_integer c hv p _ _ m (Int.natAbs_ne_zero.2 hz) hlt hm hm'

variable {x : VReg} (hx : x.wf c p = true) (fx : x.isFinite = true)

include hx fx

/-- ROUND_p keeps a number that a register of the precision holds. -/
theorem exactResult_roundReal_val (zx : x.isZero (groupCount c p) = false) :
    ExactResult (groupCount c p) (roundReal c p (x.val (groupCount c p))) (x.val (groupCount c p)) := by
  obtain ⟨hlead, hmin, hmax⟩ := VReg.wf_nonzero c p x hx fx zx
  have hgroups : toGroups (groupCount c p) (x.sig (groupCount c p)) = x.groups (groupCount c p) := by
    simpa [VReg.sig] using toGroups_fromGroups _ (VReg.groups_lt c p x hx fx)
  have hround : roundReal c p (x.val (groupCount c p)) = (copyFinite c p (groupCount c p) x x.neg, .ok) := by
    rw [VReg.val_eq_sig, VReg.low, copyFinite, ← hgroups]
    exact roundReal_exact c hv p _ _ _ (VReg.le_sig _ (groupCount_pos c hv p) x hlead) (VReg.sig_lt c p x hx fx)
      hmin hmax
  rw [hround]
  exact ⟨rfl, (val_copyFinite c hv p p x x.neg _ le_rfl hx fx zx).trans (VReg.val_eq_sig _ x).symm⟩

/-- R88's derivation for an integer part `f` that keeps integers: a value with no group below the point is its own
integer part, and any other integer part must fit in `m` groups. -/
theorem exactResult_integerPartRef {f : ℝ → Int} (hf : ∀ z : Int, f z = z) (m : Nat)
    (hfits : x.isZero (groupCount c p) = false → x.e < (groupCount c p : Int) - 1 →
      (f (x.val (groupCount c p))).natAbs < base ^ m ∧ m ≤ groupCount c p ∧ (m : Int) - 1 ≤ c.expMax) :
    ExactResult (groupCount c p) (integerPartRef c p f x) (f (x.val (groupCount c p))) := by
  obtain ⟨hnan, hinf⟩ := VReg.isFinite_iff.1 fx
  simp only [integerPartRef, hnan, hinf, Bool.false_eq_true, if_false]
  cases zx : x.isZero (groupCount c p) with
  | true =>
    have hzero : f 0 = 0 := by exact_mod_cast hf 0
    rw [if_pos rfl, VReg.val_eq_zero zx, hzero, Int.cast_zero]
    exact exactResult_zeroV c p _
  | false =>
    rw [if_neg Bool.false_ne_true]
    rcases lt_or_ge x.e ((groupCount c p : Int) - 1) with he | he
    · obtain ⟨hlt, hm, hm'⟩ := hfits zx he
      exact exactResult_integerRef hv hlt hm hm'
    · obtain ⟨z, hz⟩ := VReg.exists_int_val (n := groupCount c p) (x := x) (sub_nonneg.2 he)
      have hround := exactResult_roundReal_val hv hx fx zx
      rw [hz] at hround ⊢
      rw [hf, integerRef]
      split
      · next h0 =>
        rw [h0, Int.cast_zero]
        exact exactResult_zeroV c p _
      · exact hround

/-- The floor of a value with a group below the point is at most `10000^(e+1)` in magnitude, of `e + 2` groups. -/
theorem exactResult_floor (h : (groupCount c p : Int) - 1 ≤ x.e ∨ x.e + 1 ≤ c.expMax) :
    ExactResult (groupCount c p) (integerPartRef c p Int.floor x) ⌊x.val (groupCount c p)⌋ := by
  have hn := groupCount_pos c hv p
  have hmax := (paramFacts c hv).expMax
  refine exactResult_integerPartRef hv hx fx Int.floor_intCast ((x.e + 1).toNat + 1) fun _ he =>
    ⟨?_, by omega, by omega⟩
  calc ⌊x.val (groupCount c p)⌋.natAbs ≤ base ^ (x.e + 1).toNat := natAbs_floor_le (VReg.abs_val_lt hx fx)
    _ < base ^ ((x.e + 1).toNat + 1) := Nat.pow_lt_pow_right one_lt_base (Nat.lt_succ_self _)

/-- The integer part of a value with a group below the point is below `10000^(e+1)` in magnitude, of `e + 1` groups. -/
theorem exactResult_trunc :
    ExactResult (groupCount c p) (integerPartRef c p truncReal x) (truncReal (x.val (groupCount c p))) := by
  have hmax := (paramFacts c hv).expMax
  refine exactResult_integerPartRef hv hx fx truncReal_intCast (x.e + 1).toNat fun zx he => ?_
  obtain ⟨_, _, hexp⟩ := VReg.wf_nonzero c p x hx fx zx
  exact ⟨natAbs_truncReal_lt (VReg.abs_val_lt hx fx), by omega, by omega⟩

end Exact

/-- Settles O19: the commands write R88's and R89's results, which are exact. -/
theorem floorTruncExact : Obligations.FloorTruncExact := by
  intro s p rd ra hv ha fa n
  obtain ⟨⟨t, ht, hwt⟩, ⟨u, hu, hwu⟩⟩ := floorTruncFollowPseudocode s p rd ra hv ha
  exact ⟨fun h => ⟨t, ht, (exactResult_floor hv ha fa h).written hwt⟩,
    ⟨u, hu, (exactResult_trunc hv ha fa).written hwu⟩⟩

/-! ## NEG (R90), by the class of its operand -/

theorem negV_nan (c : Params) (p : Prec) {x : VReg} (hn : x.isNaN = true) : negV c p x = (nanV c p, .ok) := if_pos hn

theorem negV_inf (c : Params) (p : Prec) {x : VReg} (hi : x.isInf = true) :
    negV c p x = (infV c p (!x.neg), .ok) := by
  have hn : x.isNaN = false := (VReg.isInf_iff.1 hi).1
  simp [negV, hn, hi]

theorem negV_zero (c : Params) (p : Prec) {x : VReg} (hz : x.isZero (groupCount c p) = true) :
    negV c p x = (zeroV c p, .ok) := by
  obtain ⟨hn, hi⟩ := VReg.isFinite_iff.1 (Bool.and_eq_true_iff.1 hz).1
  simp [negV, hn, hi, hz]

theorem negV_nonzero (c : Params) (p : Prec) {x : VReg} (fx : x.isFinite = true)
    (hz : x.isZero (groupCount c p) = false) :
    negV c p x = (copyFinite c p (groupCount c p) x (!x.neg), .ok) := by
  obtain ⟨hn, hi⟩ := VReg.isFinite_iff.1 fx
  simp [negV, hn, hi, hz]

/-- NEG never leaves the range. -/
theorem negV_outcome (c : Params) (p : Prec) (x : VReg) : (negV c p x).2 = .ok := by
  unfold negV
  dsimp only
  split_ifs <;> rfl

theorem signFactor_not (b : Bool) : signFactor (!b) = -signFactor b := by cases b <;> simp [signFactor]

/-- Of a finite value NEG is finite and the exact negation. -/
theorem negV_val {c : Params} (hv : c.valid = true) {p : Prec} {x : VReg} (hx : x.wf c p = true)
    (fx : x.isFinite = true) : (negV c p x).1.isFinite = true ∧
      (negV c p x).1.val (groupCount c p) = -x.val (groupCount c p) := by
  cases hz : x.isZero (groupCount c p) with
  | true =>
    rw [negV_zero c p hz, VReg.val_eq_zero hz, neg_zero]
    exact ⟨rfl, VReg.val_eq_zero (isZero_zeroV c p _)⟩
  | false =>
    rw [negV_nonzero c p fx hz]
    refine ⟨rfl, ?_⟩
    rw [val_copyFinite c hv p p x _ _ le_rfl hx fx hz, signFactor_not, neg_mul, VReg.val_eq_sig]

theorem groupAt_copyFinite {c : Params} {p : Prec} {x : VReg} (hx : x.wf c p = true) (fx : x.isFinite = true)
    (neg : Bool) : ∀ j < groupCount c p, (copyFinite c p (groupCount c p) x neg).groupAt j = x.groupAt j :=
  fun _ hj => List.map_inj_left.1 (groups_copyFinite hx fx neg) _ (List.mem_range.2 hj)

/-- Settles O20: the four classes of R90, and the exact negation of a finite value. -/
theorem negFollowsPseudocode : Obligations.NegFollowsPseudocode := by
  intro s p rd ra hv ha x n
  obtain ⟨t, ht, hw⟩ := unaryOp_completes ha rd (negV s.cfg p)
  refine ⟨t, (negV s.cfg p x).1, ht, negV_outcome s.cfg p x ▸ hw, fun hn => by rw [negV_nan _ _ hn],
    fun hi => by rw [negV_inf _ _ hi], fun hz => by rw [negV_zero _ _ hz], fun fx hz => ?_, negV_val hv ha⟩
  rw [negV_nonzero _ _ fx hz]
  exact ⟨rfl, rfl, rfl, rfl, BitVec.ofInt_toInt, groupAt_copyFinite ha fx _⟩

end Sys2Proof.Machine
end

section
/-! PROOFS. The statements of spec/43_move_convert.md: NOP and MOV, where the integer loads are in range and exact,
widening, narrowing, and the return from one to the other. -/

namespace Sys2Proof.Machine

open Config (Params)

/-! ## The integer loads (R93, R94) -/

/-- Below half of the next power, rounding at exponent `e` cannot carry into it (R72). -/
theorem half_zpow_le_carryThreshold (n : Nat) (e : Int) :
    (10000 : ℝ) ^ (e + 1) / 2 ≤ (10000 : ℝ) ^ (e + 1) - 5000 * (10000 : ℝ) ^ (e - n) := by
  have hnext : (10000 : ℝ) ^ (e + 1) = 10000 * (10000 : ℝ) ^ e := by
    rw [zpow_add_one₀ (by norm_num), mul_comm]
  have hunit : (10000 : ℝ) ^ (e - n) ≤ (10000 : ℝ) ^ e := zpow_le_zpow_right₀ (by norm_num) (by omega)
  linarith

theorem two_mul_natAbs_toInt_le {w : Nat} (b : BitVec w) : 2 * b.toInt.natAbs ≤ 2 ^ w := by
  have hlow := BitVec.le_two_mul_toInt (x := b)
  have hhigh := BitVec.two_mul_toInt_lt (x := b)
  zify
  rw [← abs_two (α := Int), ← abs_mul, abs_le]
  exact ⟨hlow, hhigh.le⟩

section Loads

variable {c : Params} (hv : c.valid = true) {p : Prec} {z : Int} {m : Nat} (hz : 2 * z.natAbs < base ^ m)
  (hm : (m : Int) - 1 ≤ c.expMax)

include hv hz hm

/-- An integer below half of a power whose exponent is in range stays in range, however few groups hold it. -/
theorem integerRef_outcome : (integerRef c p z).2 = .ok := by
  rw [← roundInt_eq_integerRef, roundInt]
  split
  · rfl
  · next h0 =>
    have V := paramFacts c hv
    have hnat : z.natAbs ≠ 0 := Int.natAbs_ne_zero.2 h0
    have hone : (1 : ℝ) ≤ z.natAbs := by exact_mod_cast Nat.one_le_iff_ne_zero.2 hnat
    have hhalf : 2 * (z.natAbs : ℝ) < (10000 : ℝ) ^ (m : Int) := by
      rw [zpow_natCast]
      exact_mod_cast hz
    obtain ⟨_, _, hok⟩ := rangeOutcomes c p (decide (z < 0)) z.natAbs 1 0 hv hnat one_ne_zero
    simp only [Nat.cast_one, div_one, zpow_zero, mul_one] at hok
    refine hok ?_ ?_
    · calc (10000 : ℝ) ^ c.expMin - 5000 * (10000 : ℝ) ^ (c.expMin - 1 - groupCount c p) ≤ (10000 : ℝ) ^ c.expMin :=
            sub_le_self _ (by positivity)
        _ ≤ 1 := zpow_le_one_of_nonpos₀ (by norm_num) V.expMin.2
        _ ≤ z.natAbs := hone
    · calc (z.natAbs : ℝ) < (10000 : ℝ) ^ (m : Int) / 2 := by linarith
        _ ≤ (10000 : ℝ) ^ (c.expMax + 1) / 2 :=
            div_le_div_of_nonneg_right (zpow_le_zpow_right₀ (by norm_num) (by omega)) (by norm_num)
        _ ≤ _ := half_zpow_le_carryThreshold _ _

/-- What an integer load of such an integer leaves: OUTCOME OK, and the integer itself where `m` groups exist. -/
theorem written_integerRef {s t : State} {rd : RegId} (hw : WritesResult s t rd (integerRef c p z)) :
    t.status.outcome = .ok ∧ (m ≤ groupCount c p → (t.getV rd).val (groupCount c p) = z) := by
  refine ⟨?_, fun hgroups => ?_⟩
  · rw [hw.status]
    exact integerRef_outcome hv hz hm
  · have hexact : ExactResult (groupCount c p) (integerRef c p z) z :=
      exactResult_integerRef hv (by omega) hgroups hm
    exact (hexact.written hw).2

end Loads

/-- Settles O23: a 16-bit integer lies below half of 10000^2, and a 64-bit one below half of 10000^5. -/
theorem integerLoadsExact : Obligations.IntegerLoadsExact := by
  intro s p rd imm hv
  obtain ⟨⟨t, ht, hwt⟩, ⟨u, hu, hwu⟩⟩ := integerLoads s p rd imm hv
  have himm : 2 * imm.toInt.natAbs < base ^ 2 := (two_mul_natAbs_toInt_le imm).trans_lt (by decide)
  have hintin : 2 * s.intin.toInt.natAbs < base ^ 5 := (two_mul_natAbs_toInt_le s.intin).trans_lt (by decide)
  exact ⟨fun h => ⟨t, ht, written_integerRef hv himm (by omega) hwt⟩,
    fun h => ⟨u, hu, written_integerRef hv hintin (by omega) hwu⟩⟩

/-! ## CVTSX (R95), by the class of its operand -/

theorem widenV_nan (c : Params) {x : VReg} (hn : x.isNaN = true) : widenV c x = (nanV c .X, .ok) := if_pos hn

theorem widenV_inf (c : Params) {x : VReg} (hi : x.isInf = true) : widenV c x = (infV c .X x.neg, .ok) := by
  have hn : x.isNaN = false := (VReg.isInf_iff.1 hi).1
  simp [widenV, hn, hi]

theorem widenV_zero (c : Params) {x : VReg} (hz : x.isZero c.nS = true) : widenV c x = (zeroV c .X, .ok) := by
  obtain ⟨hn, hi⟩ := VReg.isFinite_iff.1 (Bool.and_eq_true_iff.1 hz).1
  simp [widenV, hn, hi, hz]

theorem widenV_nonzero (c : Params) {x : VReg} (fx : x.isFinite = true) (hz : x.isZero c.nS = false) :
    widenV c x = (copyFinite c .X c.nS x x.neg, .ok) := by
  obtain ⟨hn, hi⟩ := VReg.isFinite_iff.1 fx
  simp [widenV, hn, hi, hz]

theorem widenV_outcome (c : Params) (x : VReg) : (widenV c x).2 = .ok := by
  unfold widenV
  split_ifs <;> rfl

/-- Of a finite S value CVTSX is finite and the same number. -/
theorem widenV_val {c : Params} (hv : c.valid = true) {x : VReg} (hx : x.wf c .S = true) (fx : x.isFinite = true) :
    (widenV c x).1.isFinite = true ∧ (widenV c x).1.val c.nX = x.val c.nS := by
  cases hz : x.isZero c.nS with
  | true =>
    rw [widenV_zero c hz, VReg.val_eq_zero hz]
    exact ⟨rfl, VReg.val_eq_zero (isZero_zeroV c .X _)⟩
  | false =>
    rw [widenV_nonzero c fx hz, VReg.val_eq_sig c.nS]
    exact ⟨rfl, val_copyFinite c hv .S .X x x.neg c.nX (groupCount_le c hv .S) hx fx hz⟩

/-- Settles O24: the classes of R95, each with a canonical X image. -/
theorem wideningExact : Obligations.WideningExact := by
  intro s rd ra hv ha
  obtain ⟨t, ht, hw⟩ := unaryOp_completes ha rd (widenV s.cfg)
  exact ⟨t, (widenV s.cfg (s.getV ra)).1, ht, widenV_outcome s.cfg (s.getV ra) ▸ hw, canonical_widenV hv ha,
    fun hn => by rw [widenV_nan _ hn], fun hi => by rw [widenV_inf _ hi], widenV_val hv ha⟩

/-! ## CVTXS (R96) -/

theorem narrowV_eq_narrowRef (c : Params) (x : VReg) : narrowV c x = narrowRef c x :=
  ite_eq_ite Iff.rfl (fun _ => rfl) fun hn =>
  ite_eq_ite Iff.rfl (fun _ => rfl) fun hi =>
  ite_eq_ite Iff.rfl (fun _ => rfl) fun hz => by
    rw [roundScaled_eq_roundReal c .S _ _ 1 _ (VReg.sig_ne_zero_of_not hn hi hz) one_ne_zero, Nat.cast_one, div_one,
      VReg.val_eq_sig]

/-- Settles O25: the machine's narrowing is R96's. -/
theorem narrowFollowsPseudocode : Obligations.NarrowFollowsPseudocode := by
  intro s rd ra _ ha
  rw [← narrowV_eq_narrowRef]
  exact unaryOp_completes ha rd _

theorem narrowV_zero (c : Params) {x : VReg} (hz : x.isZero c.nX = true) : narrowV c x = (zeroV c .S, .ok) := by
  obtain ⟨hn, hi⟩ := VReg.isFinite_iff.1 (Bool.and_eq_true_iff.1 hz).1
  simp [narrowV, hn, hi, hz]

theorem narrowV_nonzero (c : Params) {x : VReg} (fx : x.isFinite = true) (hz : x.isZero c.nX = false) :
    narrowV c x = roundReal c .S (x.val c.nX) := by
  obtain ⟨hn, hi⟩ := VReg.isFinite_iff.1 fx
  simp [narrowV_eq_narrowRef, narrowRef, hn, hi, hz]

/-! ## A canonical S value comes back from X (R96) -/

theorem VReg.val_ne_zero {n : Nat} {x : VReg} (fx : x.isFinite = true) (hz : x.isZero n = false) : x.val n ≠ 0 := by
  have hsig := VReg.sig_ne_zero n x fx hz
  have hsign := signFactor_ne_zero x.neg
  rw [VReg.val_eq_sig]
  positivity

/-- ROUND_p of a number that a register of the precision holds is the copy of that register. -/
theorem roundReal_val {c : Params} (hv : c.valid = true) {p : Prec} {x : VReg} (hx : x.wf c p = true)
    (fx : x.isFinite = true) (hz : x.isZero (groupCount c p) = false) :
    roundReal c p (x.val (groupCount c p)) = (copyFinite c p (groupCount c p) x x.neg, .ok) := by
  obtain ⟨hlead, hmin, hmax⟩ := VReg.wf_nonzero c p x hx fx hz
  have hgroups := toGroups_fromGroups _ (VReg.groups_lt c p x hx fx)
  rw [VReg.length_groups] at hgroups
  rw [VReg.val_eq_sig, VReg.low, roundReal_exact c hv p x.neg _ x.e
    (VReg.le_sig _ (groupCount_pos c hv p) x hlead) (VReg.sig_lt c p x hx fx) hmin hmax, VReg.sig, hgroups, copyFinite]

/-- Images that agree in every field, their groups read as integers, are the same image. -/
theorem VReg.eq_of_groupAt {x y : VReg} (hprec : x.prec = y.prec) (hl : x.g.length = y.g.length)
    (hg : ∀ j, x.groupAt j = y.groupAt j) (hexp : x.exp = y.exp) (hneg : x.neg = y.neg) (hinf : x.inf = y.inf)
    (hnan : x.nan = y.nan) : x = y := by
  have hslots : x.g = y.g := by
    refine List.ext_getElem hl fun j hx hy => BitVec.eq_of_toNat_eq ?_
    simpa [VReg.groupAt, hx, hy] using hg j
  cases x
  cases y
  simp_all

/-- The copy of a finite nonzero image is that image, when nothing is stored beyond its groups. -/
theorem copyFinite_self {c : Params} (hv : c.valid = true) {p : Prec} {x : VReg} (hx : x.wf c p = true)
    (fx : x.isFinite = true) (hl : x.g.length = c.nX) (h0 : x.groupAt 0 ≠ 0) :
    copyFinite c p (groupCount c p) x x.neg = x := by
  obtain ⟨hprec, _⟩ := VReg.wf_finite c p x hx fx
  obtain ⟨_, hrest, _⟩ := VReg.canonical_finite hv hx fx hl h0
  obtain ⟨hnan, hinf⟩ := VReg.isFinite_iff_fields.1 fx
  refine VReg.eq_of_groupAt hprec.symm ((slots_copyFinite c hv p p x x.neg).trans hl.symm) (fun j => ?_)
    BitVec.ofInt_toInt rfl hinf.symm hnan.symm
  rcases lt_or_ge j (groupCount c p) with hj | hj
  · exact groupAt_copyFinite hx fx x.neg j hj
  · rw [hrest j hj, copyFinite, finiteV, groupAt_mkImage c p _ _ _ _ _ (VReg.groups_lt c p x hx fx)]
    exact List.getD_eq_default _ _ (by simpa using hj)

/-- A canonical image is a NaN, an Infinity or the zero as R25 writes them, or its own copy. -/
theorem VReg.canonical_classes {c : Params} (hv : c.valid = true) {p : Prec} {x : VReg}
    (h : x.canonical c p = true) : x = nanV c p ∨ x = infV c p x.neg ∨ x = zeroV c p ∨
      (x.isFinite = true ∧ x.isZero (groupCount c p) = false ∧ copyFinite c p (groupCount c p) x x.neg = x) := by
  rcases VReg.canonical_cases h with ⟨neg, inf, nan, rfl, hbits, hneg⟩ | ⟨_, fx, hl, h0⟩
  · cases nan with
    | true =>
      obtain rfl : inf = false := by simpa using hbits
      obtain rfl : neg = false := hneg (.inl rfl)
      exact .inl rfl
    | false =>
      cases inf with
      | true => exact .inr (.inl rfl)
      | false =>
        obtain rfl : neg = false := hneg (.inr rfl)
        exact .inr (.inr (.inl rfl))
  · refine .inr (.inr (.inr ⟨fx, ?_, copyFinite_self hv (wf_of_canonical c p x h) fx hl h0⟩))
    refine eq_false_of_ne_true fun hz => ?_
    obtain ⟨_, _, hgroups⟩ := VReg.isZero_iff.1 hz
    exact h0 (hgroups 0 (groupCount_pos c hv p))

/-- Narrowing undoes widening on canonical S values: the widened number is one that S holds. -/
theorem narrowV_widenV {c : Params} (hv : c.valid = true) {x : VReg} (h : x.canonical c .S = true) :
    narrowV c (widenV c x).1 = (x, .ok) := by
  have hx := wf_of_canonical c .S x h
  rcases VReg.canonical_classes hv h with hn | hi | hz | ⟨fx, zx, hcopy⟩
  · rw [hn]
    rfl
  · rw [hi]
    rfl
  · rw [hz, widenV_zero c (isZero_zeroV c .S _)]
    exact narrowV_zero c (isZero_zeroV c .X _)
  · obtain ⟨fw, hval⟩ := widenV_val hv hx fx
    have zw : (widenV c x).1.isZero c.nX = false :=
      eq_false_of_ne_true fun hz => VReg.val_ne_zero fx zx (hval.symm.trans (VReg.val_eq_zero hz))
    calc narrowV c (widenV c x).1 = roundReal c .S (x.val c.nS) := by rw [narrowV_nonzero c fw zw, hval]
      _ = (copyFinite c .S c.nS x x.neg, .ok) := roundReal_val hv hx fx zx
      _ = (x, .ok) := congrArg (fun y => (y, RangeOutcome.ok)) hcopy

/-- Settles O26: the widened image is well formed at X, so CVTXS narrows it back. -/
theorem narrowOfWiden : Obligations.NarrowOfWiden := by
  intro s rd ra hv h
  obtain ⟨t, ht, hwt⟩ := unaryOp_completes (wf_of_canonical s.cfg .S _ h) rd (widenV s.cfg)
  have hcanon := canonical_widenV hv (wf_of_canonical s.cfg .S _ h)
  have hwf : (t.getV rd).wf t.cfg .X = true := by
    rw [hwt.value, hwt.rest.cfg]
    exact wf_of_canonical s.cfg .X _ hcanon
  obtain ⟨u, hu, hwu⟩ := unaryOp_completes hwf rd (narrowV t.cfg)
  have hback : narrowV t.cfg (t.getV rd) = (s.getV ra, .ok) := by
    rw [hwt.value, hwt.rest.cfg, narrowV_widenV hv h]
  rw [hback] at hwu
  exact ⟨t, u, ht, hu, hwu.value, by rw [hwu.status]⟩

/-! ## NOP and MOV (R91, R92) -/

/-- Settles O21: NOP answers its state, and MOV writes the stored image with OUTCOME kept. -/
theorem nopAndMov : Obligations.NopAndMov :=
  fun s rd ra => ⟨rfl, s.setV rd (s.getV ra), rfl, setV_writes s rd (s.getV ra)⟩

end Sys2Proof.Machine
end

section
/-! PROOFS. The statements of spec/44_format.md: the texts of NaN, the
Infinities and zero, the text FMT writes, and its truncation. -/

namespace Sys2Proof.Machine

open Config (Params)

/-! ## The text of a value by its class (R97, R102, R103) -/

section Classes

variable (c : Params) (p : Prec) {x : VReg} (mode : Mode) (dig : BitVec 4) (grp : Bool) (loc : Loc)

theorem formatValue_nan (hn : x.isNaN = true) : formatValue c p x mode dig grp loc = nanText := if_pos hn

theorem formatValue_inf (hi : x.isInf = true) :
    formatValue c p x mode dig grp loc = if x.neg then chMinus :: infText else infText := by
  have hn : x.isNaN = false := (VReg.isInf_iff.1 hi).1
  rw [formatValue, formatWith, hn, if_neg Bool.false_ne_true, if_pos hi]

theorem formatValue_zero (hz : x.isZero (groupCount c p) = true) : formatValue c p x mode dig grp loc =
    zeroText c.maxSig mode (min dig.toNat c.maxSig) (max (min dig.toNat c.maxSig) 1) (radixOf loc) := by
  obtain ⟨fx, _⟩ := Bool.and_eq_true_iff.1 hz
  obtain ⟨hn, hi⟩ := VReg.isFinite_iff.1 fx
  rw [formatValue, formatWith, hn, hi, if_neg Bool.false_ne_true, if_neg Bool.false_ne_true, if_pos hz]

theorem formatValue_nonzero (fx : x.isFinite = true) (hz : x.isZero (groupCount c p) = false) :
    formatValue c p x mode dig grp loc = (if x.neg then [chMinus] else []) ++
      modeText c.maxSig mode (min dig.toNat c.maxSig) (max (min dig.toNat c.maxSig) 1)
        (ilog10 (x.sig (groupCount c p)) (4 * x.low (groupCount c p)))
        (rhu (x.sig (groupCount c p)) (4 * x.low (groupCount c p))) grp (radixOf loc) (sepOf loc) := by
  obtain ⟨hn, hi⟩ := VReg.isFinite_iff.1 fx
  rw [formatValue, formatWith, hn, hi, hz, if_neg Bool.false_ne_true, if_neg Bool.false_ne_true,
    if_neg Bool.false_ne_true]

end Classes

theorem withFraction_zeros (n : Nat) (radix : Byte) : withFraction [chZero] (List.replicate n chZero) radix =
    if n = 0 then [chZero] else chZero :: radix :: List.replicate n chZero := by
  cases n <;> rfl

/-- Settles O29: each class of value has its own text, and a zero's digits are all `0`. -/
theorem specialTexts : Obligations.SpecialTexts := by
  intro c p x mode dig grp loc
  refine ⟨fun hn => formatValue_nan c p mode dig grp loc hn, fun hi hneg => ?_, fun hi hneg => ?_, fun hz => ?_⟩
  · rw [formatValue_inf c p mode dig grp loc hi, hneg]
    rfl
  · rw [formatValue_inf c p mode dig grp loc hi, hneg]
    rfl
  · simp only [formatValue_zero c p _ dig grp loc hz, zeroText, withFraction_zeros]
    exact ⟨rfl, rfl, rfl, rfl⟩

/-! ## The text of R97 is the reference's -/

/-- The text of a magnitude whose ilog_10 is `x` and whose rounding rhu is `r`: FIXED answers where R106 shows a number,
and SCI stands in elsewhere. -/
theorem magnitudeRef_eq (a : ℝ) (x : Int) (r : Int → Nat) (hx : Int.log 10 a = x)
    (hr : ∀ f, (rhuReal a f).toNat = r f) (w : Nat) (mode : Mode) (d m : Nat) (grp : Bool) (radix sep : Byte) :
    magnitudeRef w mode d m a grp radix sep = modeText w mode d m x r grp radix sep := by
  have hsci := sciRef_eq a x r hx hr
  cases mode with
  | fix =>
    simp only [magnitudeRef, modeText, fixedText_eq a x r hx hr, hsci]
    cases fixedShown w a d with
    | none => rfl
    | some q => exact fixedRef_eq ..
  | sci => exact hsci m radix false
  | eng => exact engRef_eq a x r hx hr m radix
  | all =>
    simp only [magnitudeRef, modeText, fixedText_eq a x r hx hr, hsci]
    cases fixedShown w a w with
    | none => rfl
    | some q => exact fixedRef_eq ..

/-! The magnitude the formatter reads is the exact one, so the machine's ilog_10 and rhu are those of `|val(x)|`. -/

theorem rhuReal_toNat (m : Nat) (k f : Int) : (rhuReal ((m : ℝ) * (10 : ℝ) ^ k) f).toNat = rhu m k f := by
  rw [← rhu_eq_rhuReal, Int.toNat_natCast]

theorem VReg.log_abs_val {n : Nat} {x : VReg} (fx : x.isFinite = true) (hz : x.isZero n = false) :
    Int.log 10 |x.val n| = ilog10 (x.sig n) (4 * x.low n) := by
  rw [VReg.abs_val, ilog10_eq_log _ _ (VReg.sig_ne_zero n x fx hz)]

theorem VReg.rhu_abs_val (n : Nat) (x : VReg) (f : Int) :
    (rhuReal |x.val n| f).toNat = rhu (x.sig n) (4 * x.low n) f := by
  rw [VReg.abs_val, rhuReal_toNat]

theorem radixOf_eq (loc : Loc) : radixOf loc = if loc = .point then 0x2E#8 else 0x2C#8 := by cases loc <;> rfl

theorem sepOf_eq (loc : Loc) : sepOf loc = if loc = .point then 0x2C#8 else 0x2E#8 := by cases loc <;> rfl

theorem formatValue_eq_formatRef (c : Params) (p : Prec) (x : VReg) (mode : Mode) (dig : BitVec 4) (grp : Bool)
    (loc : Loc) : formatValue c p x mode dig grp loc = formatRef c p x mode dig grp loc := by
  unfold formatRef
  simp only [← radixOf_eq, ← sepOf_eq]
  split
  · next hn => exact formatValue_nan c p mode dig grp loc hn
  · next hn =>
    split
    · next hi =>
      rw [formatValue_inf c p mode dig grp loc hi]
      cases x.neg <;> rfl
    · next hi =>
      split
      · next hz => rw [formatValue_zero c p mode dig grp loc hz, zeroRef_eq]
      · next hz =>
        have fx := VReg.isFinite_of_not hn hi
        have zx := eq_false_of_ne_true hz
        rw [formatValue_nonzero c p mode dig grp loc fx zx,
          magnitudeRef_eq _ _ _ (VReg.log_abs_val fx zx) (VReg.rhu_abs_val _ x)]
        rfl

/-! ## FMT's write (R97, R98, R110) -/

/-- FMT of a well-formed operand whose CAP is within TBUF writes its truncated text. -/
theorem execFmt_writes {s : State} {p : Prec} {ra : RegId} (hwf : (s.getV ra).wf s.cfg p = true) (mode : Mode)
    (dig : BitVec 4) (grp : Bool) (loc : Loc) {cap : BitVec 8} (hcap : cap.toNat ≤ s.cfg.tbufSize) :
    execFmt p ra mode dig grp loc cap s = .next (writeText
      (truncateText s.cfg.sentinel (formatValue s.cfg p (s.getV ra) mode dig grp loc) cap.toNat) s) :=
  (execFmt_buffer hwf mode dig grp loc cap).trans (withBuffer_ok _ _ _ hcap)

/-- Settles O27: the machine's text is the reference's, and the write-back puts it into TBUF. -/
theorem fmtWritesText : Obligations.FmtWritesText := by
  intro s p ra mode dig grp loc cap _ hwf hcap
  refine ⟨_, execFmt_writes hwf mode dig grp loc hcap, ?_⟩
  rw [formatValue_eq_formatRef]
  exact writeText_writes s _

/-- The characters of a text that fits, and all but the last of one that does not, stand where they stood. -/
theorem truncateText_getElem? (sentinel : Byte) {t : Text} {cap i : Nat} (h : t.length ≤ cap ∨ i + 1 < cap) :
    (truncateText sentinel t cap)[i]? = t[i]? := by
  unfold truncateText
  split
  · rfl
  · next hlong =>
    have hi : i < cap - 1 := by omega
    rw [if_neg (by omega), List.getElem?_append_left (by rw [List.length_take]; omega), List.getElem?_take_of_lt hi]

/-- A text that does not fit ends in the sentinel. -/
theorem truncateText_of_long (sentinel : Byte) {t : Text} {cap : Nat} (h : cap < t.length) (h0 : cap ≠ 0) :
    truncateText sentinel t cap = t.take (cap - 1) ++ [sentinel] := by
  rw [truncateText, if_neg (by omega), if_neg h0]

/-- Settles O28: each byte is read back from the written text, and a text of at most CAP characters has its length in
LEN's eight bits. -/
theorem fmtTruncates : Obligations.FmtTruncates := by
  intro s t p ra mode dig grp loc cap hwf hcap ht
  obtain rfl := Host.Outcome.next.inj ((execFmt_writes hwf mode dig grp loc hcap).symm.trans ht)
  dsimp only
  generalize formatValue s.cfg p (s.getV ra) mode dig grp loc = text
  have hlen := length_truncateText s.cfg.sentinel text cap.toNat
  have hw := writeText_writes s (truncateText s.cfg.sentinel text cap.toNat)
  refine ⟨?_, fun i h hfit => ?_, fun hlong h0 => ?_⟩
  · have := cap.isLt
    rw [hw.status, BitVec.toNat_ofNat, hlen, Nat.mod_eq_of_lt (by omega)]
  · have hkept := truncateText_getElem? s.cfg.sentinel hfit
    rw [hw.written i (by omega)]
    rw [List.getElem?_eq_getElem h, List.getElem?_eq_getElem (by omega)] at hkept
    exact Option.some.inj hkept
  · have hpos : cap.toNat ≠ 0 := fun h => h0 (BitVec.eq_of_toNat_eq h)
    rw [hw.written _ (by omega)]
    simp only [truncateText_of_long s.cfg.sentinel hlong hpos]
    rw [List.getElem_append_right (by rw [List.length_take]; omega), List.getElem_singleton]

end Sys2Proof.Machine
end

section
/-! PROOFS. The statements of spec/44_format.md about the shape of a text: how many digits SCI and FIXED show, where ENG
and GROUP put theirs, and how long a text can be. -/

namespace Sys2Proof.Machine

open Config (Params)

/-! ## The rounding rhu against powers of ten (section 3) -/

section Rounding

variable {a : ℝ} (ha : 0 < a)

include ha

/-- A magnitude with `n + 1` digits before the `f`-th fraction digit rounds to at least `10^n`. -/
theorem pow_le_rhuReal {n : Nat} {f : Int} (h : (n : Int) ≤ Int.log 10 a + f) : 10 ^ n ≤ (rhuReal a f).toNat := by
  have hlog : (10 : ℝ) ^ Int.log 10 a ≤ a := by exact_mod_cast Int.zpow_log_le_self (b := 10) (by norm_num) ha
  have hscaled : ((10 ^ n : Nat) : ℝ) ≤ a * (10 : ℝ) ^ f := by
    calc ((10 ^ n : Nat) : ℝ) = (10 : ℝ) ^ (n : Int) := by norm_num
      _ ≤ (10 : ℝ) ^ (Int.log 10 a + f) := zpow_le_zpow_right₀ (by norm_num) h
      _ = (10 : ℝ) ^ Int.log 10 a * (10 : ℝ) ^ f := zpow_add₀ (by norm_num) _ _
      _ ≤ a * (10 : ℝ) ^ f := mul_le_mul_of_nonneg_right hlog (by positivity)
  rw [rhuReal, Int.floor_toNat]
  exact Nat.le_floor (by linarith)

/-- A magnitude with at most `n` digits before the `f`-th fraction digit rounds to at most `10^n`. -/
theorem rhuReal_le_pow {n : Nat} {f : Int} (h : Int.log 10 a + 1 + f ≤ n) : (rhuReal a f).toNat ≤ 10 ^ n := by
  have hlog : a < (10 : ℝ) ^ (Int.log 10 a + 1) := by exact_mod_cast Int.lt_zpow_succ_log_self (b := 10) (by norm_num) a
  have hscaled : a * (10 : ℝ) ^ f < ((10 ^ n : Nat) : ℝ) := by
    calc a * (10 : ℝ) ^ f < (10 : ℝ) ^ (Int.log 10 a + 1) * (10 : ℝ) ^ f := mul_lt_mul_of_pos_right hlog (by positivity)
      _ = (10 : ℝ) ^ (Int.log 10 a + 1 + f) := (zpow_add₀ (by norm_num) _ _).symm
      _ ≤ (10 : ℝ) ^ (n : Int) := zpow_le_zpow_right₀ (by norm_num) h
      _ = ((10 ^ n : Nat) : ℝ) := by norm_num
  rw [rhuReal, Int.floor_toNat, ← Nat.lt_succ_iff, Nat.floor_lt (by positivity)]
  push_cast at hscaled ⊢
  linarith

/-- R104's mantissa has exactly `m` digits after the carry, and the carry moves the exponent up by at most one. -/
theorem sciShown_bounds {m : Nat} (hm : 1 ≤ m) : 10 ^ (m - 1) ≤ (sciShown a m).1 ∧ (sciShown a m).1 < 10 ^ m ∧
    Int.log 10 a ≤ (sciShown a m).2 ∧ (sciShown a m).2 ≤ Int.log 10 a + 1 := by
  have hlow := pow_le_rhuReal ha (n := m - 1) (f := (m : Int) - 1 - Int.log 10 a) (by omega)
  have hhigh := rhuReal_le_pow ha (n := m) (f := (m : Int) - 1 - Int.log 10 a) (by omega)
  have hstep : 10 ^ (m - 1) < 10 ^ m := Nat.pow_lt_pow_right (by decide) (by omega)
  unfold sciShown
  dsimp only
  split
  · exact ⟨le_rfl, hstep, by omega, le_rfl⟩
  · exact ⟨hlow, by omega, le_rfl, by omega⟩

/-- Rounding to `g` fraction digits gives the integer part at most one digit more than `k`, its count before rounding. -/
theorem length_roundedInteger_le {k : Nat} (hk : Int.log 10 a + 1 ≤ k) (g : Nat) :
    (decText ((rhuReal a (g : Int)).toNat / 10 ^ g)).length ≤ k + 1 := by
  have hpos : 0 < 10 ^ g := Nat.pow_pos (by decide)
  refine length_decText_le _ _ ?_ (by omega)
  calc (rhuReal a (g : Int)).toNat / 10 ^ g ≤ 10 ^ (k + g) / 10 ^ g :=
        Nat.div_le_div_right (rhuReal_le_pow ha (by omega))
    _ = 10 ^ k := by rw [pow_add, Nat.mul_div_cancel _ hpos]
    _ < 10 ^ (k + 1) := Nat.pow_lt_pow_right (by decide) (by omega)

/-- The integer digits and the fraction digits R106 shows are at most MAX_SIG together. Where a carry makes an integer
digit too many, the second rounding gives up one fraction digit for it. -/
theorem fixedShown_digits {w fmax R f : Nat} (h : fixedShown w a fmax = some (R, f)) :
    (decText (R / 10 ^ f)).length + f ≤ w := by
  simp only [fixedShown, decRef_eq] at h
  generalize hk : max (Int.log 10 a + 1) 1 = k at h
  have hlen := length_roundedInteger_le ha (k := k.toNat) (by omega)
  split at h
  · cases h
  · generalize hf₀ : min fmax (w - k.toNat) = f₀ at h
    have hfirst := hlen f₀
    split at h
    · cases h
    · split at h
      · next hfit =>
        cases h
        exact hfit
      · next hcarry =>
        split at h
        · cases h
        · cases h
          have hsecond := hlen (w - (decText ((rhuReal a (f₀ : Int)).toNat / 10 ^ f₀)).length)
          omega

end Rounding

/-! ## The machine's magnitude -/

theorem magnitude_pos {m : Nat} (hm : m ≠ 0) (k : Int) : (0 : ℝ) < (m : ℝ) * (10 : ℝ) ^ k := by positivity

theorem sciParts_eq_sciShown {m : Nat} (hm : m ≠ 0) (k : Int) (d : Nat) :
    sciParts (ilog10 m k) (rhu m k) d = sciShown ((m : ℝ) * (10 : ℝ) ^ k) d :=
  (sciShown_eq _ _ _ (ilog10_eq_log m k hm).symm (rhuReal_toNat m k) d).symm

theorem fixedText_eq_fixedShown {m : Nat} (hm : m ≠ 0) (k : Int) (w fmax : Nat) (grp : Bool) (radix sep : Byte)
    (strip : Bool) : fixedText w (ilog10 m k) (rhu m k) fmax grp radix sep strip =
      (fixedShown w ((m : ℝ) * (10 : ℝ) ^ k) fmax).map fun q => fixedBody q.1 q.2 grp radix sep strip :=
  fixedText_eq _ _ _ (ilog10_eq_log m k hm).symm (rhuReal_toNat m k) ..

/-- What SCI and ENG show of a magnitude: a mantissa of exactly `d` digits, and an exponent at most one above ilog_10. -/
structure SciDigits (x : Int) (d : Nat) (q : Nat × Int) : Prop where
  low : 10 ^ (d - 1) ≤ q.1
  high : q.1 < 10 ^ d
  exp : x ≤ q.2 ∧ q.2 ≤ x + 1
  length : (decText q.1).length = d

theorem sciDigits_sciParts {m : Nat} (hm : m ≠ 0) (k : Int) {d : Nat} (hd : 1 ≤ d) :
    SciDigits (ilog10 m k) d (sciParts (ilog10 m k) (rhu m k) d) := by
  obtain ⟨hlow, hhigh, hexp⟩ := sciShown_bounds (magnitude_pos hm k) hd
  rw [sciParts_eq_sciShown hm, ilog10_eq_log m k hm]
  have hd' : d - 1 + 1 = d := by omega
  exact ⟨hlow, hhigh, hexp, (length_decText _ _ hlow (by rwa [hd'])).trans hd'⟩

/-- Settles O31: the rounded magnitude lies between `10^(d-1)` and `10^d`, and the upper end is the carry. -/
theorem sciHasDigitCount : Obligations.SciHasDigitCount := by
  intro m k d hm hd
  obtain ⟨hlow, hhigh, _, hlen⟩ := sciDigits_sciParts hm k hd
  exact ⟨hlow, hhigh, hlen⟩

/-! ## GROUP (R109) -/

/-- A further leading digit gets a separator behind it where a multiple of three digits follows. -/
theorem groupText_cons (sep d : Byte) (t : Text) : groupText (d :: t) sep =
    (if t.length ≠ 0 ∧ t.length % 3 = 0 then [d, sep] else [d]) ++ groupText t sep := by
  rw [groupText, List.reverse_cons, groupRev_append, List.reverse_append, List.length_reverse]
  split <;> rfl

theorem length_groupText (sep : Byte) (ip : Text) : (groupText ip sep).length = ip.length + (ip.length - 1) / 3 := by
  rw [groupText, List.length_reverse, length_groupRev, List.length_reverse]

/-- Grouping adds no digit and takes none away. -/
theorem countP_isDigit_groupText {sep : Byte} (hsep : isDigit sep = false) (ip : Text) :
    (groupText ip sep).countP isDigit = ip.countP isDigit := by
  induction ip with
  | nil => rfl
  | cons d t ih =>
    rw [groupText_cons, List.countP_append, ih]
    split <;> simp [List.countP_cons, hsep, Nat.add_comm]

/-- From the right end, every fourth character is the separator and the others are those of the text in order. -/
theorem groupRev_getElem? (sep : Byte) (t : Text) : ∀ i < (groupRev sep t).length,
    (groupRev sep t)[i]? = if i % 4 = 3 then some sep else t[i - i / 4]? := by
  induction t using groupRev.induct with
  | case1 a b c d t ih =>
    rw [groupRev]
    rintro (_ | _ | _ | _ | i) hi
    · rfl
    · rfl
    · rfl
    · rfl
    · have hlt : i < (groupRev sep (d :: t)).length := by simpa using hi
      have hsub : i + 4 - (i + 4) / 4 = i - i / 4 + 3 := by omega
      have hmod : (i + 4) % 4 = i % 4 := by omega
      simpa [hsub, hmod] using ih i hlt
  | case2 t h =>
    have hshort : groupRev sep t = t ∧ t.length ≤ 3 := by
      match t, h with
      | [], _ => exact ⟨rfl, by simp⟩
      | [_], _ => exact ⟨rfl, by simp⟩
      | [_, _], _ => exact ⟨rfl, by simp⟩
      | [_, _, _], _ => exact ⟨rfl, by simp⟩
      | a :: b :: c :: d :: t, h => exact absurd rfl (h a b c d t)
    obtain ⟨hself, hlen⟩ := hshort
    intro i hi
    rw [hself] at hi ⊢
    rw [if_neg (by omega), show i - i / 4 = i by omega]

/-! ## The pieces of a text -/

theorem isDigit_radixOf (loc : Loc) : isDigit (radixOf loc) = false := by cases loc <;> rfl

theorem isDigit_sepOf (loc : Loc) : isDigit (sepOf loc) = false := by cases loc <;> rfl

theorem length_withFraction_le (ip frac : Text) (radix : Byte) :
    (withFraction ip frac radix).length ≤ ip.length + frac.length + 1 := by
  unfold withFraction
  split
  · omega
  · rw [List.length_append, List.length_cons]
    omega

theorem countP_isDigit_withFraction {radix : Byte} (hradix : isDigit radix = false) (ip frac : Text) :
    (withFraction ip frac radix).countP isDigit = ip.countP isDigit + frac.countP isDigit := by
  unfold withFraction
  split
  · next h => simp [h]
  · rw [List.countP_append, List.countP_cons, hradix]
    rfl

/-- Stripping, where it is asked for, takes off zeros only. -/
theorem strip_append (strip : Bool) (t : Text) :
    ∃ n, (if strip then stripZeros t else t) ++ List.replicate n chZero = t := by
  cases strip with
  | false => exact ⟨0, List.append_nil t⟩
  | true =>
    obtain ⟨n, hn⟩ := stripZeros_append t
    exact ⟨n, hn.symm⟩

/-- SCI's text: one integer digit, then a fraction that lacks only zeros of the mantissa's digits (R104). -/
theorem sciText_shape (x : Int) (r : Int → Nat) (d : Nat) (radix : Byte) (strip : Bool) :
    ∃ ip frac : Text, ∃ n, sciText x r d radix strip =
        withFraction ip frac radix ++ chE :: decsText (sciParts x r d).2 ∧
      ip.length = 1 ∧ ip ++ frac ++ List.replicate n chZero = decText (sciParts x r d).1 := by
  obtain ⟨n, hn⟩ := strip_append strip ((decText (sciParts x r d).1).drop 1)
  refine ⟨_, _, n, rfl, ?_, ?_⟩
  · rw [List.length_take, decText, length_paddedDigits]
    omega
  · rw [List.append_assoc, hn, List.take_append_drop]

/-- ENG's text: `k + 1` integer digits, the digits being the mantissa's with zeros appended where it is too short for
them, and the exponent `3 * z` with `k` the rest of X (R105). -/
theorem engText_shape (x : Int) (r : Int → Nat) (d : Nat) (radix : Byte) :
    ∃ ip frac : Text, ∃ k : Nat, ∃ z : Int, engText x r d radix =
        withFraction ip frac radix ++ chE :: decsText (3 * z) ∧
      (sciParts x r d).2 = 3 * z + k ∧ k ≤ 2 ∧ ip.length = k + 1 ∧
      ip ++ frac = decText (sciParts x r d).1 ++
        List.replicate (k + 1 - (decText (sciParts x r d).1).length) chZero := by
  refine ⟨_, _, ((sciParts x r d).2 - 3 * ((sciParts x r d).2 / 3)).toNat, (sciParts x r d).2 / 3, rfl, by omega,
    by omega, ?_, List.take_append_drop _ _⟩
  rw [List.length_take, List.length_append, List.length_replicate]
  omega

/-- FIXED's text: the integer digits, grouped where asked, then a fraction that lacks only zeros of its digits (R106). -/
theorem fixedBody_shape (v f : Nat) (grp : Bool) (radix sep : Byte) (strip : Bool) :
    ∃ frac : Text, ∃ n, fixedBody v f grp radix sep strip = withFraction
        (if grp then groupText (decText (v / 10 ^ f)) sep else decText (v / 10 ^ f)) frac radix ∧
      frac ++ List.replicate n chZero = paddedDigits f (v % 10 ^ f) := by
  obtain ⟨n, hn⟩ := strip_append strip (paddedDigits f (v % 10 ^ f))
  exact ⟨_, n, rfl, hn⟩

/-- Where FIXED answers a text, it is that of the number R106 shows, and its digits are at most MAX_SIG. -/
theorem fixedText_shape {m : Nat} (hm : m ≠ 0) {k : Int} {w fmax : Nat} {grp : Bool} {radix sep : Byte} {strip : Bool}
    {t : Text} (ht : fixedText w (ilog10 m k) (rhu m k) fmax grp radix sep strip = some t) :
    ∃ R f n, ∃ frac : Text, fixedShown w ((m : ℝ) * (10 : ℝ) ^ k) fmax = some (R, f) ∧
      t = withFraction (if grp then groupText (decText (R / 10 ^ f)) sep else decText (R / 10 ^ f)) frac radix ∧
      frac ++ List.replicate n chZero = paddedDigits f (R % 10 ^ f) ∧
      (decText (R / 10 ^ f)).length + frac.length ≤ w := by
  rw [fixedText_eq_fixedShown hm, Option.map_eq_some_iff] at ht
  obtain ⟨⟨R, f⟩, hshown, rfl⟩ := ht
  obtain ⟨frac, n, htext, hfrac⟩ := fixedBody_shape R f grp radix sep strip
  have hdigits := fixedShown_digits (magnitude_pos hm k) hshown
  have hlen := congrArg List.length hfrac
  rw [List.length_append, length_paddedDigits] at hlen
  exact ⟨R, f, n, frac, hshown, htext, hfrac, by omega⟩

/-- Settles O32: the text holds the digits R106 shows, which MAX_SIG bounds, less stripped zeros; separators and radix
are no digits. -/
theorem fixedWithinDisplayWidth : Obligations.FixedWithinDisplayWidth := by
  intro w m k fmax grp loc strip t hm _ ht
  obtain ⟨R, f, _, frac, _, rfl, _, hdigits⟩ := fixedText_shape hm ht
  have hint : (if grp then groupText (decText (R / 10 ^ f)) (sepOf loc) else decText (R / 10 ^ f)).countP isDigit ≤
      (decText (R / 10 ^ f)).length := by
    cases grp with
    | false => exact List.countP_le_length
    | true => exact (countP_isDigit_groupText (isDigit_sepOf loc) _).trans_le List.countP_le_length
  have hle := List.countP_le_length (p := isDigit) (l := frac)
  rw [countP_isDigit_withFraction (isDigit_radixOf loc)]
  omega

/-- The leading digit of a number that is not 0 is not `0`. -/
theorem head_decText_ne_zero {n : Nat} (hn : n ≠ 0) : (decText n).head? ≠ some chZero := by
  have hpos : 0 < 10 ^ ilog 10 n := Nat.pow_pos (by decide)
  have hlow : 1 ≤ n / 10 ^ ilog 10 n := (Nat.one_le_div_iff hpos).2 (ilog_le 10 n (by decide) hn)
  have hhigh : n / 10 ^ ilog 10 n < 10 := by
    rw [Nat.div_lt_iff_lt_mul hpos, mul_comm, ← pow_succ]
    exact lt_ilog 10 n (by decide)
  have hhead : (decText n).head? = some (digitChar (n / 10 ^ ilog 10 n)) := by
    rw [decText, paddedDigits, List.range_succ_eq_map, List.map_cons, List.head?_cons, Nat.add_sub_cancel, Nat.sub_zero,
      Nat.mod_eq_of_lt hhigh]
  intro h
  have hval := congrArg (Option.map digitVal) (hhead.symm.trans h)
  rw [Option.map_some, Option.map_some, digitVal_digitChar _ hhigh] at hval
  have : n / 10 ^ ilog 10 n = 0 := Option.some.inj hval
  omega

theorem isDigit_chZero : isDigit chZero = true := rfl

/-- Settles O60: ENG's digits are the mantissa's, whose first is not `0`, padded only up to the integer digits; GROUP's
positions are read off the reversed text. -/
theorem engAndGroupingInThrees : Obligations.EngAndGroupingInThrees := by
  refine ⟨fun c p x dig grp loc _ _ fx hz => ?_, fun ip sep => ⟨length_groupText sep ip, fun i hi => ?_⟩⟩
  · generalize hd : max (min dig.toNat c.maxSig) 1 = d
    obtain ⟨hlow, _, _, hlen⟩ := sciDigits_sciParts (VReg.sig_ne_zero _ x fx hz) (4 * x.low (groupCount c p))
      (d := d) (by omega)
    obtain ⟨ip, frac, k, z, htext, _, hk, hip, hdigits⟩ := engText_shape
      (ilog10 (x.sig (groupCount c p)) (4 * x.low (groupCount c p)))
      (rhu (x.sig (groupCount c p)) (4 * x.low (groupCount c p))) d (radixOf loc)
    generalize (sciParts _ _ d).1 = M at hlow hlen hdigits
    have hM : M ≠ 0 := Nat.ne_of_gt ((Nat.pow_pos (by decide)).trans_le hlow)
    refine ⟨ip, frac, z, ?_, by omega, by omega, ?_, ?_, ?_⟩
    · rw [formatValue_nonzero c p .eng dig grp loc fx hz, modeText, hd, htext, ← fractionRef_eq, fractionRef,
        List.append_assoc, List.append_assoc, List.append_assoc]
      rfl
    · have hhead : ip.head? = (decText M).head? := by
        rw [← List.head?_append_of_ne_nil ip (l₂ := frac) (by rintro rfl; simp at hip), hdigits,
          List.head?_append_of_ne_nil _ (decText_ne_nil M)]
      rw [hhead]
      exact head_decText_ne_zero hM
    · rw [hdigits]
      intro b hb
      rcases List.mem_append.1 hb with hb | hb
      · exact isDigit_decText M b hb
      · rw [List.eq_of_mem_replicate hb]
        exact isDigit_chZero
    · rw [hdigits, List.length_append, List.length_replicate, hlen, hip]
      omega
  · rw [length_groupText, ← List.length_reverse, ← length_groupRev sep] at hi
    rw [groupText, List.reverse_reverse]
    exact groupRev_getElem? sep ip.reverse i hi

/-! ## The length of a text (R110) -/

/-- The decimal exponent of a finite nonzero value of group exponent `e` is one of the group's four, `4e .. 4e + 3`. -/
theorem VReg.ilog10_bounds {c : Params} (hv : c.valid = true) {p : Prec} {x : VReg} (hx : x.wf c p = true)
    (fx : x.isFinite = true) (hz : x.isZero (groupCount c p) = false) :
    4 * x.e ≤ ilog10 (x.sig (groupCount c p)) (4 * x.low (groupCount c p)) ∧
      ilog10 (x.sig (groupCount c p)) (4 * x.low (groupCount c p)) ≤ 4 * x.e + 3 := by
  have hn := groupCount_pos c hv p
  have hlow := VReg.le_sig _ hn x (VReg.wf_nonzero c p x hx fx hz).1
  have hhigh := VReg.sig_lt c p x hx fx
  rw [show base = 10 ^ 4 from rfl, ← pow_mul] at hlow hhigh
  have hlog := Nat.le_log_of_pow_le (by decide) hlow
  have hlog' := Nat.log_lt_of_lt_pow (VReg.sig_ne_zero _ x fx hz) hhigh
  rw [ilog10, ilog_eq_log 10 (by decide), VReg.low]
  omega

theorem length_decsText_le {z : Int} {l : Nat} (h : z.natAbs < 10 ^ l) (hl : 0 < l) : (decsText z).length ≤ l + 1 := by
  have hle := length_decText_le _ l h hl
  unfold decsText
  split
  · rw [List.length_cons]
    omega
  · omega

theorem length_fixedText_le {m : Nat} (hm : m ≠ 0) {k : Int} {w fmax : Nat} {grp : Bool} {radix sep : Byte}
    {strip : Bool} {t : Text} (ht : fixedText w (ilog10 m k) (rhu m k) fmax grp radix sep strip = some t) :
    t.length ≤ w + (w - 1) / 3 + 1 := by
  obtain ⟨R, f, _, frac, _, rfl, _, hdigits⟩ := fixedText_shape hm ht
  have hint : (if grp then groupText (decText (R / 10 ^ f)) sep else decText (R / 10 ^ f)).length ≤
      (decText (R / 10 ^ f)).length + ((decText (R / 10 ^ f)).length - 1) / 3 := by
    cases grp with
    | false => exact Nat.le_add_right _ _
    | true => exact (length_groupText sep _).le
  refine (length_withFraction_le _ frac radix).trans ?_
  omega

section Length

/-! The longest texts of a magnitude whose decimal exponent takes at most five digits. -/

variable {m : Nat} (hm : m ≠ 0) {k : Int} (hexp : -32768 ≤ ilog10 m k ∧ ilog10 m k ≤ 32767)

include hm hexp

theorem length_sciText_le {d : Nat} (hd : 1 ≤ d) (radix : Byte) (strip : Bool) :
    (sciText (ilog10 m k) (rhu m k) d radix strip).length ≤ d + 8 := by
  obtain ⟨_, _, hX, hlen⟩ := sciDigits_sciParts hm k hd
  obtain ⟨ip, frac, n, htext, _, hdigits⟩ := sciText_shape (ilog10 m k) (rhu m k) d radix strip
  have hfrac := length_withFraction_le ip frac radix
  have hdecs := length_decsText_le (z := (sciParts (ilog10 m k) (rhu m k) d).2) (l := 5) (by omega) (by decide)
  have hsum := congrArg List.length hdigits
  rw [List.length_append, List.length_append, hlen] at hsum
  rw [htext, List.length_append, List.length_cons]
  omega

theorem length_engText_le {d : Nat} (hd : 1 ≤ d) (radix : Byte) :
    (engText (ilog10 m k) (rhu m k) d radix).length ≤ max d 3 + 8 := by
  obtain ⟨_, _, hX, hlen⟩ := sciDigits_sciParts hm k hd
  obtain ⟨ip, frac, j, z, htext, hz, hj, _, hdigits⟩ := engText_shape (ilog10 m k) (rhu m k) d radix
  have hfrac := length_withFraction_le ip frac radix
  have hdecs := length_decsText_le (z := 3 * z) (l := 5) (by omega) (by decide)
  have hsum := congrArg List.length hdigits
  rw [List.length_append, List.length_append, List.length_replicate, hlen] at hsum
  rw [htext, List.length_append, List.length_cons]
  omega

theorem length_modeText_le {w d sd : Nat} (hw : 3 ≤ w ∧ w ≤ 16) (hsd : 1 ≤ sd ∧ sd ≤ w) (mode : Mode) (grp : Bool)
    (radix sep : Byte) : (modeText w mode d sd (ilog10 m k) (rhu m k) grp radix sep).length ≤ w + 8 := by
  cases mode with
  | fix =>
    rw [modeText]
    cases h : fixedText w (ilog10 m k) (rhu m k) d grp radix sep false with
    | none => exact (length_sciText_le hm hexp hsd.1 radix false).trans (by omega)
    | some t => exact (length_fixedText_le hm h).trans (by omega)
  | sci => exact (length_sciText_le hm hexp hsd.1 radix false).trans (by omega)
  | eng => exact (length_engText_le hm hexp hsd.1 radix).trans (by omega)
  | all =>
    rw [modeText]
    cases h : fixedText w (ilog10 m k) (rhu m k) w grp radix sep true with
    | none => exact length_sciText_le hm hexp (by omega) radix true
    | some t => exact (length_fixedText_le hm h).trans (by omega)

end Length

theorem length_zeroText_le {w d m : Nat} (hm : m ≤ w) (mode : Mode) (radix : Byte) :
    (zeroText w mode d m radix).length ≤ w + 4 := by
  have hfrac (n : Nat) := length_withFraction_le [chZero] (List.replicate n chZero) radix
  simp only [List.length_singleton, List.length_replicate] at hfrac
  have hexp : (withFraction [chZero] (List.replicate (m - 1) chZero) radix ++ [chE, chZero]).length ≤ w + 4 := by
    have := hfrac (m - 1)
    simp only [List.length_append, List.length_cons, List.length_nil]
    omega
  cases mode with
  | fix => exact (hfrac _).trans (by omega)
  | sci => exact hexp
  | eng => exact hexp
  | all => exact Nat.le_add_left 1 (w + 3)

/-- Settles O33: at the defaults a text has at most a sign, 12 digits, a radix, `E`, `-` and five exponent digits. -/
theorem longestText : Obligations.LongestText := by
  intro p x mode dig grp loc hx
  have hv : Config.default.valid = true := by decide
  have hsig : Config.default.maxSig = 12 := rfl
  by_cases hn : x.isNaN = true
  · rw [formatValue_nan _ p mode dig grp loc hn]
    decide
  by_cases hi : x.isInf = true
  · rw [formatValue_inf _ p mode dig grp loc hi]
    cases x.neg <;> decide
  by_cases hz : x.isZero (groupCount Config.default p) = true
  · rw [formatValue_zero _ p mode dig grp loc hz]
    exact (length_zeroText_le (by omega) mode _).trans (by decide)
  · have fx := VReg.isFinite_of_not hn hi
    have zx := eq_false_of_ne_true hz
    obtain ⟨_, hmin, hmax⟩ := VReg.wf_nonzero _ p x hx fx zx
    have hexp := VReg.ilog10_bounds hv hx fx zx
    have hmin' : -8192 ≤ x.e := hmin
    have hmax' : x.e ≤ 8191 := hmax
    have hbody := length_modeText_le (VReg.sig_ne_zero _ x fx zx)
      (k := 4 * x.low (groupCount Config.default p)) (by omega) (w := Config.default.maxSig) (by decide)
      (d := min dig.toNat Config.default.maxSig) (sd := max (min dig.toNat Config.default.maxSig) 1) (by omega) mode grp
      (radixOf loc) (sepOf loc)
    have hsign : (if x.neg then [chMinus] else []).length ≤ 1 := by cases x.neg <;> decide
    rw [formatValue_nonzero _ p mode dig grp loc fx zx, List.length_append]
    omega

end Sys2Proof.Machine
end

section
/-! PROOFS. The scanner of spec/45_parse.md reads every NUMBER, and the texts of spec/44_format.md are NUMBERs that denote
the displayed decimal (R111). -/

namespace Sys2Proof.Machine

open Config (Params)

/-! ## The scanner reads the parts of a NUMBER (R114) -/

theorem not_sign_of_isDigit {b : Byte} (h : isDigit b = true) : b ≠ chMinus ∧ b ≠ chPlus := by
  constructor <;> (rintro rfl; exact absurd h (by decide))

theorem not_sign_radixOf (loc : Loc) : radixOf loc ≠ chMinus ∧ radixOf loc ≠ chPlus := by cases loc <;> decide

theorem radixOf_ne_sepOf (loc : Loc) : radixOf loc ≠ sepOf loc := by cases loc <;> decide

theorem startsDigit_eq_false {u : Text} (h : ∀ b, u.head? = some b → isDigit b = false) : startsDigit u = false := by
  cases u with
  | nil => rfl
  | cons b u => exact h b rfl

theorem scanSign_append {s : Text} {neg : Bool} (h : SignOf s neg) {t : Text}
    (ht : ∀ b, t.head? = some b → b ≠ chMinus ∧ b ≠ chPlus) : scanSign (s ++ t) = (neg, t) := by
  rcases h with ⟨rfl, rfl⟩ | ⟨rfl, rfl⟩ | ⟨rfl, rfl⟩
  · cases t with
    | nil => rfl
    | cons b t =>
      obtain ⟨hminus, hplus⟩ := ht b rfl
      rw [List.nil_append, scanSign, if_neg hminus, if_neg hplus]
  · rfl
  · rfl

theorem scanDigits_append {v : Text} (hv : ∀ b ∈ v, isDigit b = true) {u : Text} (hu : startsDigit u = false) :
    scanDigits (v ++ u) = (v.map digitVal, u) := by
  induction v with
  | nil =>
    cases u with
    | nil => rfl
    | cons b u =>
      have hb : isDigit b = false := hu
      simp [scanDigits, hb]
  | cons b v ih =>
    rw [List.forall_mem_cons] at hv
    simp [scanDigits, hv.1, ih hv.2]

theorem scanIntTail_append {sep : Byte} (hsep : isDigit sep = false) {t : Text} {ds : List Nat} (h : IntTailOf sep t ds)
    {u : Text} (hu : startsDigit u = false) (hu' : u.head? ≠ some sep) : scanIntTail sep (t ++ u) = (ds, u) := by
  induction h with
  | nil =>
    cases u with
    | nil => rfl
    | cons b u =>
      have hb : isDigit b = false := hu
      have hne : b ≠ sep := fun h => hu' (congrArg some h)
      simp [scanIntTail, hb, hne]
  | digit b t ds hb _ ih => simp [scanIntTail, hb, ih]
  | sepDigit b t ds hb _ ih => simp [scanIntTail, startsDigit, hsep, hb, ih]

theorem scanIntPart_append {sep : Byte} (hsep : isDigit sep = false) {t : Text} {ds : List Nat} (h : IntPartOf sep t ds)
    {u : Text} (hu : startsDigit u = false) (hu' : u.head? ≠ some sep) : scanIntPart sep (t ++ u) = (ds, u) := by
  obtain ⟨b, t, es, rfl, hb, ht, rfl⟩ := h
  have hstart : startsDigit (b :: t ++ u) = true := hb
  rw [scanIntPart, if_pos hstart]
  exact scanIntTail_append hsep (.digit b t es hb ht) hu hu'

theorem IntPartOf.ne_nil {sep : Byte} {t : Text} {ds : List Nat} (h : IntPartOf sep t ds) : ds ≠ [] := by
  obtain ⟨_, _, _, _, _, _, rfl⟩ := h
  exact List.cons_ne_nil _ _

/-- A mantissa begins with a digit or the radix. -/
theorem MantissaOf.head {radix sep : Byte} {t : Text} {ints fracs : List Nat} (h : MantissaOf radix sep t ints fracs) :
    ∃ b u, t = b :: u ∧ (isDigit b = true ∨ b = radix) := by
  rcases h with ⟨⟨b, u, _, rfl, hb, _⟩, _⟩ | ⟨_, v, rfl, ⟨b, u, _, rfl, hb, _⟩, _⟩ | ⟨v, rfl, _⟩
  · exact ⟨b, u, rfl, .inl hb⟩
  · exact ⟨b, u ++ radix :: v, rfl, .inl hb⟩
  · exact ⟨radix, v, rfl, .inr rfl⟩

theorem ExponentOf.head {e : Text} {x : Int} (h : ExponentOf e x) {b : Byte} (hb : e.head? = some b) :
    b = chE ∨ b = chLowerE := by
  rcases h with ⟨rfl, _⟩ | ⟨b', s, v, _, _, rfl, hE, _⟩
  · cases hb
  · obtain rfl : b' = b := Option.some.inj hb
    exact hE

theorem scanExponent_of {e : Text} {x : Int} (h : ExponentOf e x) : scanExponent e = some x := by
  rcases h with ⟨rfl, rfl⟩ | ⟨b, s, v, neg, ds, rfl, hE, hs, ⟨hv, hds⟩, hne, rfl⟩
  · rfl
  · have hsign : scanSign (s ++ v) = (neg, v) :=
      scanSign_append hs fun b hb => not_sign_of_isDigit (hv b (List.mem_of_mem_head? hb))
    have hdigits : scanDigits v = (ds, []) := by
      have := scanDigits_append hv (u := []) rfl
      rwa [List.append_nil, ← hds] at this
    simp [scanExponent, hE, hsign, hdigits, hne]

/-- The mantissa's parts are read, and what follows begins with an exponent marker or is empty. -/
theorem scanMantissa_append (loc : Loc) {m e : Text} {ints fracs : List Nat}
    (hm : MantissaOf (radixOf loc) (sepOf loc) m ints fracs)
    (he : ∀ b, e.head? = some b → b = chE ∨ b = chLowerE) :
    scanMantissa (radixOf loc) (sepOf loc) (m ++ e) = some (ints, fracs, e) := by
  have hmarker : ∀ b, b = chE ∨ b = chLowerE → isDigit b = false ∧ b ≠ radixOf loc ∧ b ≠ sepOf loc := by
    rintro b (rfl | rfl) <;> cases loc <;> decide
  have hstart : startsDigit e = false := startsDigit_eq_false fun b hb => (hmarker b (he b hb)).1
  have hsep : e.head? ≠ some (sepOf loc) := fun h => (hmarker _ (he _ h)).2.2 rfl
  rcases hm with ⟨hint, rfl⟩ | ⟨u, v, rfl, hint, hv, rfl⟩ | ⟨v, rfl, hne, ⟨hv, rfl⟩, rfl⟩
  · rw [scanMantissa, scanIntPart_append (isDigit_sepOf loc) hint hstart hsep]
    cases e with
    | nil => simp [hint.ne_nil]
    | cons b e => simp [hint.ne_nil, (hmarker b (he b rfl)).2.1]
  · have hrest : scanIntPart (sepOf loc) (u ++ radixOf loc :: (v ++ e)) = (ints, radixOf loc :: (v ++ e)) :=
      scanIntPart_append (isDigit_sepOf loc) hint (isDigit_radixOf loc)
        fun h => radixOf_ne_sepOf loc (Option.some.inj h)
    rw [List.append_assoc, List.cons_append, scanMantissa, hrest]
    simp [hint.ne_nil, scanDigits_append hv hstart]
  · have hrest : scanIntPart (sepOf loc) (radixOf loc :: (v ++ e)) = ([], radixOf loc :: (v ++ e)) := by
      simp [scanIntPart, startsDigit, isDigit_radixOf]
    rw [List.cons_append, scanMantissa, hrest]
    simp [hne, scanDigits_append hv hstart]

/-- The scanner reads every NUMBER of the grammar. -/
theorem scanNumber_of_numberOf {loc : Loc} {t : Text} {q : NumberParts}
    (h : NumberOf (radixOf loc) (sepOf loc) t q) : scanNumber (radixOf loc) (sepOf loc) t = some q := by
  obtain ⟨s, m, e, rfl, hs, hm, he⟩ := h
  have hsign : scanSign (s ++ (m ++ e)) = (q.neg, m ++ e) := by
    refine scanSign_append hs fun b hb => ?_
    obtain ⟨b', u, rfl, hb'⟩ := hm.head
    obtain rfl : b' = b := Option.some.inj hb
    rcases hb' with hb' | rfl
    · exact not_sign_of_isDigit hb'
    · exact not_sign_radixOf loc
  rw [List.append_assoc]
  simp only [scanNumber, hsign, scanMantissa_append loc hm fun b => he.head, scanExponent_of he]

/-! ## The value of a NUMBER (R112, R116) -/

theorem NumberParts.value_eq_zero_iff (q : NumberParts) : q.value = 0 ↔ q.mantissa = 0 := by
  have hsign := signFactor_ne_zero q.neg
  have hscale : (10 : ℝ) ^ (q.exp - (q.fracs.length : Int)) ≠ 0 := by positivity
  simp [NumberParts.value, NumberParts.mantissa, hsign, hscale]

/-- The machine rounds the number over powers of 10000, the rest of the decimal exponent going into the mantissa. -/
theorem numberResult_eq_roundReal (c : Params) (p : Prec) {q : NumberParts} (hq : q.mantissa ≠ 0) :
    numberResult c p q = roundReal c p q.value := by
  have hsplit (y : Int) : (10 : ℝ) ^ y = (10 : ℝ) ^ (y % 4).toNat * (10000 : ℝ) ^ (y / 4) := by
    rw [← zpow_natCast, show (10000 : ℝ) = (10 : ℝ) ^ (4 : Int) by norm_num, ← zpow_mul, ← zpow_add₀ (by norm_num)]
    congr 1
    omega
  have hnum : q.mantissa * 10 ^ ((q.exp - (q.fracs.length : Int)) % 4).toNat ≠ 0 :=
    Nat.mul_ne_zero hq (Nat.pow_pos (by decide)).ne'
  rw [numberResult, if_neg hq, roundScaled_eq_roundReal _ _ _ _ _ _ hnum one_ne_zero, NumberParts.value, hsplit]
  push_cast
  rw [div_one, mul_assoc, mul_assoc]
  rfl

/-- PARSE of a NUMBER within the digit limit: zero for 0, else the rounded value. -/
theorem parseText_of_numberOf (c : Params) (p : Prec) {loc : Loc} {t : Text} {q : NumberParts}
    (h : NumberOf (radixOf loc) (sepOf loc) t q) (hd : q.digitCount ≤ c.maxParseDigits) :
    parseText c p loc t = some (if q.value = 0 then (zeroV c p, .ok) else roundReal c p q.value) := by
  simp only [parseText, scanNumber_of_numberOf h, if_neg (Nat.not_lt.2 hd)]
  split
  · next h0 => rw [numberResult, if_pos (q.value_eq_zero_iff.1 h0)]
  · next h0 => rw [numberResult_eq_roundReal c p (mt q.value_eq_zero_iff.2 h0)]

/-! ## A truncated text is no NUMBER -/

section Foreign

/-! A character that no NUMBER holds is left over by every part of the scanner. -/

variable {b : Byte} {t : Text} (hb : b ∈ t) (hdigit : isDigit b = false)

include hb

theorem mem_scanSign (hminus : b ≠ chMinus) (hplus : b ≠ chPlus) : b ∈ (scanSign t).2 := by
  cases t with
  | nil => exact hb
  | cons d t =>
    have htail (hd : b ≠ d) : b ∈ t := (List.mem_cons.1 hb).resolve_left hd
    rw [scanSign]
    split
    · next h => exact htail (h ▸ hminus)
    · split
      · next h => exact htail (h ▸ hplus)
      · exact hb

include hdigit

theorem mem_scanDigits : b ∈ (scanDigits t).2 := by
  induction t with
  | nil => exact hb
  | cons d t ih =>
    unfold scanDigits
    split
    · next hd =>
      refine ih ((List.mem_cons.1 hb).resolve_left ?_)
      rintro rfl
      exact absurd hd (by simp [hdigit])
    · exact hb

theorem mem_scanIntTail {sep : Byte} (hsep : b ≠ sep) : b ∈ (scanIntTail sep t).2 := by
  induction t with
  | nil => exact hb
  | cons d t ih =>
    have htail (hd : b ≠ d) : b ∈ t := (List.mem_cons.1 hb).resolve_left hd
    unfold scanIntTail
    split
    · next hd =>
      refine ih (htail ?_)
      rintro rfl
      exact absurd hd (by simp [hdigit])
    · split
      · next hd =>
        have hds : d = sep := by simpa using (Bool.and_eq_true_iff.1 hd).1
        exact ih (htail (hds ▸ hsep))
      · exact hb

theorem mem_scanMantissa {radix sep : Byte} (hradix : b ≠ radix) (hsep : b ≠ sep) {ints fracs : List Nat} {u : Text}
    (h : scanMantissa radix sep t = some (ints, fracs, u)) : b ∈ u := by
  have hint : b ∈ (scanIntPart sep t).2 := by
    unfold scanIntPart
    split
    · exact mem_scanIntTail hb hdigit hsep
    · exact hb
  unfold scanMantissa at h
  split at h
  · next heq =>
    rw [heq] at hint
    cases hint
  · next d v heq =>
    rw [heq] at hint
    split at h
    · next hd =>
      split at h
      · cases h
      · cases h
        exact mem_scanDigits ((List.mem_cons.1 hint).resolve_left (hd ▸ hradix)) hdigit
    · split at h
      · cases h
      · cases h
        exact hint

theorem scanExponent_eq_none (hminus : b ≠ chMinus) (hplus : b ≠ chPlus) (hE : ¬(b = chE ∨ b = chLowerE)) :
    scanExponent t = none := by
  cases t with
  | nil => cases hb
  | cons d t =>
    rw [scanExponent]
    split
    · next hd =>
      have htail : b ∈ t := (List.mem_cons.1 hb).resolve_left fun h => hE (h ▸ hd)
      have hrest := mem_scanDigits (mem_scanSign htail hminus hplus) hdigit
      exact if_pos (.inr (List.ne_nil_of_mem hrest))
    · rfl

end Foreign

/-- A text that holds the default sentinel is no NUMBER. -/
theorem scanNumber_sentinel {t : Text} (h : Config.default.sentinel ∈ t) (loc : Loc) :
    scanNumber (radixOf loc) (sepOf loc) t = none := by
  have hdigit : isDigit Config.default.sentinel = false := by decide
  have hminus : Config.default.sentinel ≠ chMinus := by decide
  have hplus : Config.default.sentinel ≠ chPlus := by decide
  have hloc : Config.default.sentinel ≠ radixOf loc ∧ Config.default.sentinel ≠ sepOf loc := by cases loc <;> decide
  have hsign := mem_scanSign h hminus hplus
  unfold scanNumber
  dsimp only
  split
  · rfl
  · next hm =>
    rw [scanExponent_eq_none (mem_scanMantissa hsign hdigit hloc.1 hloc.2 hm) hdigit hminus hplus (by decide)]

theorem parseText_truncated (p : Prec) (loc : Loc) {t : Text} {cap : Nat} (h : cap < t.length) :
    parseText Config.default p loc (truncateText Config.default.sentinel t cap) = none := by
  have hscan : scanNumber (radixOf loc) (sepOf loc) (truncateText Config.default.sentinel t cap) = none := by
    by_cases h0 : cap = 0
    · rw [truncateText, if_neg (by omega), if_pos h0]
      rfl
    · rw [truncateText_of_long _ h h0]
      exact scanNumber_sentinel (by simp) loc
  simp only [parseText, hscan]

end Sys2Proof.Machine
end

section
/-! PROOFS. The texts of spec/44_format.md are NUMBERs of spec/45_parse.md that denote the displayed decimal, and what
PARSE makes of them (R111). -/

namespace Sys2Proof.Machine

open Config (Params)

/-! ## Digits of a text and the number they make -/

theorem digitVal_lt {b : Byte} (h : isDigit b = true) : digitVal b < 10 := by
  simp only [isDigit, Bool.and_eq_true, decide_eq_true_eq] at h
  unfold digitVal
  omega

theorem fromDigits_lt {ds : List Nat} (h : ∀ d ∈ ds, d < 10) : fromDigits ds < 10 ^ ds.length := by
  induction ds using List.reverseRecOn with
  | nil => decide
  | append_singleton ds d ih =>
    have hd : d < 10 := h d (by simp)
    have hds := ih fun e he => h e (by simp [he])
    have hsingle : fromDigits [d] = d := by simp [fromDigits]
    rw [fromDigits_append, hsingle, List.length_append, List.length_singleton, pow_succ]
    omega

theorem fromDigits_replicate_zero (n : Nat) : fromDigits (List.replicate n 0) = 0 := by
  induction n with
  | zero => rfl
  | succ n ih =>
    rw [List.replicate_succ', fromDigits_append, ih]
    rfl

/-- Zeros behind a text of digits multiply its number by a power of ten. -/
theorem fromDigits_append_zeros (t : Text) (n : Nat) :
    fromDigits ((t ++ List.replicate n chZero).map digitVal) = fromDigits (t.map digitVal) * 10 ^ n := by
  have hzero : digitVal chZero = 0 := rfl
  rw [List.map_append, List.map_replicate, hzero, fromDigits_append, fromDigits_replicate_zero, List.length_replicate,
    Nat.add_zero]

/-! ## The pieces of a text in the grammar (R114) -/

theorem intTailOf_digits (sep : Byte) {t : Text} (ht : ∀ b ∈ t, isDigit b = true) :
    IntTailOf sep t (t.map digitVal) := by
  induction t with
  | nil => exact .nil
  | cons b t ih =>
    rw [List.forall_mem_cons] at ht
    exact .digit b t _ ht.1 (ih ht.2)

theorem intPartOf_digits (sep : Byte) {t : Text} (ht : ∀ b ∈ t, isDigit b = true) (hne : t ≠ []) :
    IntPartOf sep t (t.map digitVal) := by
  cases t with
  | nil => exact absurd rfl hne
  | cons b t =>
    rw [List.forall_mem_cons] at ht
    exact ⟨b, t, _, rfl, ht.1, intTailOf_digits sep ht.2, rfl⟩

/-- Grouping keeps an integer part an integer part with the same digits: each separator stands before a digit. -/
theorem intPartOf_groupText (sep : Byte) {t : Text} (ht : ∀ b ∈ t, isDigit b = true) (hne : t ≠ []) :
    IntPartOf sep (groupText t sep) (t.map digitVal) := by
  induction t with
  | nil => exact absurd rfl hne
  | cons b t ih =>
    rw [List.forall_mem_cons] at ht
    rw [groupText_cons]
    cases t with
    | nil => exact ⟨b, [], [], rfl, ht.1, .nil, rfl⟩
    | cons d t =>
      obtain ⟨d', u, es, hu, hd, htail, hes⟩ := ih ht.2 (List.cons_ne_nil d t)
      rw [List.map_cons, hes, hu]
      split
      · exact ⟨b, sep :: d' :: u, _, rfl, ht.1, .sepDigit d' u es hd htail, rfl⟩
      · exact ⟨b, d' :: u, _, rfl, ht.1, .digit d' u es hd htail, rfl⟩

theorem mantissaOf_withFraction {sep : Byte} {ip frac : Text} {ints : List Nat} (radix : Byte)
    (hip : IntPartOf sep ip ints) (hfrac : ∀ b ∈ frac, isDigit b = true) :
    MantissaOf radix sep (withFraction ip frac radix) ints (frac.map digitVal) := by
  unfold withFraction
  split
  · next h =>
    subst h
    exact .inl ⟨hip, rfl⟩
  · exact .inr (.inl ⟨ip, frac, rfl, hip, hfrac, rfl⟩)

theorem exponentOf_decsText (z : Int) : ExponentOf (chE :: decsText z) z := by
  have hdigits : DigitsOf (decText z.natAbs) ((decText z.natAbs).map digitVal) := ⟨isDigit_decText _, rfl⟩
  have hne : (decText z.natAbs).map digitVal ≠ [] := by simpa using decText_ne_nil _
  unfold decsText
  split
  · exact .inr ⟨chE, [chMinus], _, true, _, rfl, .inl rfl, .inr (.inr ⟨rfl, rfl⟩), hdigits, hne, by
      rw [if_pos rfl, fromDigits_decText]
      omega⟩
  · exact .inr ⟨chE, [], _, false, _, rfl, .inl rfl, .inl ⟨rfl, rfl⟩, hdigits, hne, by
      rw [if_neg Bool.false_ne_true, fromDigits_decText]
      omega⟩

/-! ## Texts that denote a magnitude -/

/-- The parts of a NUMBER are at most `w` digits, and the NUMBER's value is `v`. -/
structure NumberParts.Shows (w : Nat) (q : NumberParts) (v : ℝ) : Prop where
  length : (q.ints ++ q.fracs).length ≤ w
  digits : ∀ d ∈ q.ints ++ q.fracs, d < 10
  value : q.value = v

/-- The text is a NUMBER without a sign that shows the magnitude `v` in at most `w` digits. -/
def DenotesMagnitude (loc : Loc) (w : Nat) (t : Text) (v : ℝ) : Prop :=
  ∃ (q : NumberParts) (m e : Text), q.neg = false ∧ t = m ++ e ∧ MantissaOf (radixOf loc) (sepOf loc) m q.ints q.fracs ∧
    ExponentOf e q.exp ∧ q.Shows w v

theorem DenotesMagnitude.mono {loc : Loc} {w w' : Nat} {t : Text} {v : ℝ} (h : DenotesMagnitude loc w t v)
    (hw : w ≤ w') : DenotesMagnitude loc w' t v := by
  obtain ⟨q, m, e, hneg, ht, hm, he, hlen, hdig, hval⟩ := h
  exact ⟨q, m, e, hneg, ht, hm, he, hlen.trans hw, hdig, hval⟩

/-- A sign before the text negates the value it denotes. -/
theorem DenotesMagnitude.signed {loc : Loc} {w : Nat} {t : Text} {v : ℝ} (h : DenotesMagnitude loc w t v) (neg : Bool) :
    ∃ q, NumberOf (radixOf loc) (sepOf loc) ((if neg then [chMinus] else []) ++ t) q ∧
      q.Shows w (signFactor neg * v) := by
  obtain ⟨q, m, e, hneg, rfl, hm, he, hlen, hdig, hval⟩ := h
  refine ⟨{ q with neg := neg }, ⟨if neg then [chMinus] else [], m, e, (List.append_assoc ..).symm, ?_, hm, he⟩, hlen,
    hdig, ?_⟩
  · cases neg with
    | false => exact .inl ⟨rfl, rfl⟩
    | true => exact .inr (.inr ⟨rfl, rfl⟩)
  · have hone : signFactor q.neg = 1 := by rw [hneg]; rfl
    rw [← hval, NumberParts.value, NumberParts.value, hone, one_mul, mul_assoc]

/-- A decimal point moved by `n` places: the digits have `n` zeros more or less, and the exponent makes up for it. -/
theorem scaled_eq {F M n : Nat} {y y' : Int} (h : F * 10 ^ n = M) (hy : y = n + y') :
    (F : ℝ) * (10 : ℝ) ^ y = (M : ℝ) * (10 : ℝ) ^ y' := by
  rw [← h, hy, zpow_add₀ (by norm_num), zpow_natCast]
  push_cast
  ring

/-- The text of integer digits `ip`, grouped or not, and fraction digits `frac`, before an exponent `z`. -/
theorem denotes_withFraction {loc : Loc} {w : Nat} {text ip frac e : Text} {z : Int} {v : ℝ}
    (htext : IntPartOf (sepOf loc) text (ip.map digitVal)) (hdig : ∀ b ∈ ip ++ frac, isDigit b = true)
    (he : ExponentOf e z) (hw : ip.length + frac.length ≤ w)
    (hv : (fromDigits ((ip ++ frac).map digitVal) : ℝ) * (10 : ℝ) ^ (z - (frac.length : Int)) = v) :
    DenotesMagnitude loc w (withFraction text frac (radixOf loc) ++ e) v := by
  refine ⟨⟨false, ip.map digitVal, frac.map digitVal, z⟩, _, e, rfl, rfl,
    mantissaOf_withFraction (radixOf loc) htext fun b hb => hdig b (List.mem_append_right ip hb), he, ?_, ?_, ?_⟩
  · simpa using hw
  · rw [← List.map_append]
    intro d hd
    obtain ⟨b, hb, rfl⟩ := List.mem_map.1 hd
    exact digitVal_lt (hdig b hb)
  · rw [NumberParts.value, ← hv, List.map_append, List.length_map]
    exact congrArg (· * _) (one_mul _)

/-- A zero's text denotes 0 (R103). -/
theorem denotes_zeroText (loc : Loc) {w d m : Nat} (hw : 1 ≤ w) (hm : m ≤ w) (mode : Mode) :
    DenotesMagnitude loc w (zeroText w mode d m (radixOf loc)) 0 := by
  have hzeros {n : Nat} (hn : n + 1 ≤ w) {e : Text} (he : ExponentOf e 0) :
      DenotesMagnitude loc w (withFraction [chZero] (List.replicate n chZero) (radixOf loc) ++ e) 0 := by
    refine denotes_withFraction (ip := [chZero]) (intPartOf_digits _ (by decide) (by decide)) ?_ he ?_ ?_
    · intro b hb
      obtain rfl : b = chZero := by
        rcases List.mem_append.1 hb with hb | hb
        · exact List.mem_singleton.1 hb
        · exact List.eq_of_mem_replicate hb
      rfl
    · simpa [Nat.add_comm] using hn
    · rw [fromDigits_append_zeros]
      simp [fromDigits, digitVal, chZero, digitChar]
  have hnone : ExponentOf [] 0 := .inl ⟨rfl, rfl⟩
  have hE0 : ExponentOf [chE, chZero] 0 := exponentOf_decsText 0
  cases mode with
  | fix => simpa [zeroText] using hzeros (n := min d (w - 1)) (by omega) hnone
  | sci => exact hzeros (by omega) hE0
  | eng => exact hzeros (by omega) hE0
  | all => exact hzeros (n := 0) hw hnone

section Magnitude

variable {m : Nat} (hm : m ≠ 0) (k : Int) (loc : Loc)

include hm

theorem denotes_sciText {d : Nat} (hd : 1 ≤ d) (strip : Bool) :
    DenotesMagnitude loc d (sciText (ilog10 m k) (rhu m k) d (radixOf loc) strip)
      (sciDisplayed ((m : ℝ) * (10 : ℝ) ^ k) d) := by
  obtain ⟨_, _, _, hlen⟩ := sciDigits_sciParts hm k hd
  obtain ⟨ip, frac, n, htext, hip, hdigits⟩ := sciText_shape (ilog10 m k) (rhu m k) d (radixOf loc) strip
  have hdig : ∀ b ∈ ip ++ frac, isDigit b = true := fun b hb =>
    isDigit_decText _ b (hdigits ▸ List.mem_append_left _ hb)
  have hsum := congrArg List.length hdigits
  rw [hlen, List.length_append, List.length_append, List.length_replicate] at hsum
  have hM := congrArg (fun t => fromDigits (t.map digitVal)) hdigits
  rw [fromDigits_append_zeros, fromDigits_decText] at hM
  rw [htext, sciDisplayed, ← sciParts_eq_sciShown hm]
  refine denotes_withFraction (intPartOf_digits _ (fun b hb => hdig b (List.mem_append_left _ hb)) ?_) hdig
    (exponentOf_decsText _) (by omega) (scaled_eq hM (by omega))
  rintro rfl
  simp at hip

theorem denotes_engText {d : Nat} (hd : 1 ≤ d) :
    DenotesMagnitude loc (max d 3) (engText (ilog10 m k) (rhu m k) d (radixOf loc))
      (sciDisplayed ((m : ℝ) * (10 : ℝ) ^ k) d) := by
  obtain ⟨_, _, _, hlen⟩ := sciDigits_sciParts hm k hd
  obtain ⟨ip, frac, j, z, htext, hz, hj, hip, hdigits⟩ := engText_shape (ilog10 m k) (rhu m k) d (radixOf loc)
  rw [hlen] at hdigits
  have hdig : ∀ b ∈ ip ++ frac, isDigit b = true := by
    rw [hdigits]
    intro b hb
    rcases List.mem_append.1 hb with hb | hb
    · exact isDigit_decText _ b hb
    · rw [List.eq_of_mem_replicate hb]
      exact isDigit_chZero
  have hsum := congrArg List.length hdigits
  rw [List.length_append, List.length_append, List.length_replicate, hlen] at hsum
  have hM := congrArg (fun t => fromDigits (t.map digitVal)) hdigits
  rw [fromDigits_append_zeros, fromDigits_decText] at hM
  rw [htext, sciDisplayed, ← sciParts_eq_sciShown hm]
  refine denotes_withFraction (intPartOf_digits _ (fun b hb => hdig b (List.mem_append_left _ hb)) ?_) hdig
    (exponentOf_decsText _) (by omega) (scaled_eq hM.symm (by omega)).symm
  rintro rfl
  simp at hip

theorem denotes_fixedBody {w fmax R f : Nat} (h : fixedShown w ((m : ℝ) * (10 : ℝ) ^ k) fmax = some (R, f)) (grp : Bool)
    (strip : Bool) : DenotesMagnitude loc w (fixedBody R f grp (radixOf loc) (sepOf loc) strip)
      ((R : ℝ) * (10 : ℝ) ^ (-(f : Int))) := by
  obtain ⟨frac, n, htext, hfrac⟩ := fixedBody_shape R f grp (radixOf loc) (sepOf loc) strip
  have hw := fixedShown_digits (magnitude_pos hm k) h
  have hint : IntPartOf (sepOf loc)
      (if grp then groupText (decText (R / 10 ^ f)) (sepOf loc) else decText (R / 10 ^ f))
      ((decText (R / 10 ^ f)).map digitVal) := by
    cases grp with
    | false => exact intPartOf_digits _ (isDigit_decText _) (decText_ne_nil _)
    | true => exact intPartOf_groupText _ (isDigit_decText _) (decText_ne_nil _)
  have hdig : ∀ b ∈ decText (R / 10 ^ f) ++ frac, isDigit b = true := fun b hb =>
    (List.mem_append.1 hb).elim (isDigit_decText _ b) fun hb =>
      isDigit_paddedDigits _ _ b (hfrac ▸ List.mem_append_left _ hb)
  have hsum := congrArg List.length hfrac
  rw [List.length_append, List.length_replicate, length_paddedDigits] at hsum
  have hR : fromDigits ((decText (R / 10 ^ f) ++ frac).map digitVal) * 10 ^ n = R := by
    rw [← fromDigits_append_zeros, List.append_assoc, hfrac, List.map_append, fromDigits_append, List.length_map,
      length_paddedDigits, fromDigits_decText, fromDigits_paddedDigits, Nat.mod_mod, Nat.div_add_mod']
  rw [htext, ← List.append_nil (withFraction _ _ _)]
  exact denotes_withFraction hint hdig (.inl ⟨rfl, rfl⟩) (by omega) (scaled_eq hR (by omega))

/-- In every mode, grouped or not, the text of a magnitude denotes the displayed magnitude (R111). -/
theorem denotes_modeText {w d sd : Nat} (hsd : 1 ≤ sd ∧ sd ≤ w) (mode : Mode) (grp : Bool) :
    DenotesMagnitude loc (max w 3) (modeText w mode d sd (ilog10 m k) (rhu m k) grp (radixOf loc) (sepOf loc))
      (magnitudeDisplayed w mode d sd ((m : ℝ) * (10 : ℝ) ^ k)) := by
  have hsci := (denotes_sciText hm k loc hsd.1 false).mono (w' := max w 3) (by omega)
  cases mode with
  | fix =>
    simp only [modeText, magnitudeDisplayed, fixedText_eq_fixedShown hm]
    cases h : fixedShown w ((m : ℝ) * (10 : ℝ) ^ k) d with
    | none => exact hsci
    | some q => exact (denotes_fixedBody hm k loc h grp false).mono (le_max_left _ _)
  | sci => exact hsci
  | eng => exact (denotes_engText hm k loc hsd.1).mono (by omega)
  | all =>
    simp only [modeText, magnitudeDisplayed, fixedText_eq_fixedShown hm]
    cases h : fixedShown w ((m : ℝ) * (10 : ℝ) ^ k) w with
    | none => exact (denotes_sciText hm k loc (by omega) true).mono (le_max_left _ _)
    | some q => exact (denotes_fixedBody hm k loc h grp true).mono (le_max_left _ _)

end Magnitude

theorem displayedValue_zero (c : Params) (p : Prec) {x : VReg} (hz : x.isZero (groupCount c p) = true) (mode : Mode)
    (dig : BitVec 4) : displayedValue c p x mode dig = 0 := if_pos hz

theorem displayedValue_nonzero (c : Params) (p : Prec) {x : VReg} (hz : x.isZero (groupCount c p) = false) (mode : Mode)
    (dig : BitVec 4) : displayedValue c p x mode dig = signFactor x.neg * magnitudeDisplayed c.maxSig mode
      (min dig.toNat c.maxSig) (max (min dig.toNat c.maxSig) 1) |x.val (groupCount c p)| :=
  if_neg (by simp [hz])

/-- The text of a finite value, grouped or not, is a NUMBER that shows the displayed decimal (R111). -/
theorem formatValue_denotes {c : Params} (hw : 1 ≤ c.maxSig) (p : Prec) {x : VReg} (fx : x.isFinite = true) (mode : Mode)
    (dig : BitVec 4) (grp : Bool) (loc : Loc) :
    ∃ q, NumberOf (radixOf loc) (sepOf loc) (formatValue c p x mode dig grp loc) q ∧
      q.Shows (max c.maxSig 3) (displayedValue c p x mode dig) := by
  have hsd : 1 ≤ max (min dig.toNat c.maxSig) 1 ∧ max (min dig.toNat c.maxSig) 1 ≤ c.maxSig := by omega
  cases hz : x.isZero (groupCount c p) with
  | true =>
    rw [formatValue_zero c p mode dig grp loc hz, displayedValue_zero c p hz]
    obtain ⟨q, hq, hlen, hdig, hval⟩ :=
      (denotes_zeroText loc hw (d := min dig.toNat c.maxSig) hsd.2 mode).signed false
    exact ⟨q, hq, hlen.trans (le_max_left _ _), hdig, hval.trans (mul_zero _)⟩
  | false =>
    rw [formatValue_nonzero c p mode dig grp loc fx hz, displayedValue_nonzero c p hz, VReg.abs_val]
    exact (denotes_modeText (VReg.sig_ne_zero _ x fx hz) _ loc hsd mode grp).signed x.neg

/-! ## ROUND_p of a decimal of few digits -/

/-- A decimal of at most `4 * (n - 1) + 1` digits is an integer of exactly `n` groups, scaled. -/
theorem decimal_eq_groups {n : Nat} (hn : 0 < n) {D : Nat} (hD : D ≠ 0) (y : Int) (hlt : D < 10 ^ (4 * (n - 1) + 1)) :
    ∃ (K : Nat) (e : Int), base ^ (n - 1) ≤ K ∧ K < base ^ n ∧
      (D : ℝ) * (10 : ℝ) ^ y = (K : ℝ) * (10000 : ℝ) ^ (e - ((n : Int) - 1)) := by
  have hpos : (0 : ℝ) < (D : ℝ) * (10 : ℝ) ^ y := by positivity
  have hten (i : Int) : (10000 : ℝ) ^ i = (10 : ℝ) ^ (4 * i) := by
    rw [zpow_mul]
    norm_num
  have hpred : (n : Int) - 1 = ((n - 1 : Nat) : Int) := by omega
  obtain ⟨hlow, hhigh⟩ := log_bracket hpos
  generalize Int.log 10000 ((D : ℝ) * (10 : ℝ) ^ y) = e at hlow hhigh
  have hfit : 4 * e < ((4 * (n - 1) + 1 : Nat) : Int) + y := by
    have hlt' : (D : ℝ) < (10 : ℝ) ^ ((4 * (n - 1) + 1 : Nat) : Int) := by
      rw [zpow_natCast]
      exact_mod_cast hlt
    refine (zpow_lt_zpow_iff_right₀ (by norm_num : (1 : ℝ) < 10)).1 ?_
    rw [← hten, zpow_add₀ (by norm_num) _ y]
    exact hlow.trans_lt (mul_lt_mul_of_pos_right hlt' (by positivity))
  obtain ⟨g, hg⟩ : ∃ g : Nat, (g : Int) = y + 4 * ((n : Int) - 1) - 4 * e := ⟨_, Int.toNat_of_nonneg (by omega)⟩
  have hvalue : (D : ℝ) * (10 : ℝ) ^ y = ((D * 10 ^ g : Nat) : ℝ) * (10000 : ℝ) ^ (e - ((n : Int) - 1)) := by
    rw [hten]
    exact scaled_eq rfl (by omega)
  have hscale : (0 : ℝ) < (10000 : ℝ) ^ (e - ((n : Int) - 1)) := by positivity
  refine ⟨D * 10 ^ g, e, ?_, ?_, hvalue⟩
  · have hlead : (base : ℝ) ^ (n - 1) ≤ ((D * 10 ^ g : Nat) : ℝ) := by
      refine le_of_mul_le_mul_right ?_ hscale
      rw [← hvalue, base_cast, ← zpow_natCast, ← hpred, ← zpow_add₀ (by norm_num), add_sub_cancel]
      exact hlow
    exact_mod_cast hlead
  · have hgroups : ((D * 10 ^ g : Nat) : ℝ) < (base : ℝ) ^ n := by
      refine lt_of_mul_lt_mul_right ?_ hscale.le
      rw [← hvalue, base_cast, ← zpow_natCast, ← zpow_add₀ (by norm_num),
        show (n : Int) + (e - ((n : Int) - 1)) = e + 1 by ring]
      exact hhigh
    exact_mod_cast hgroups

/-- ROUND_p of a decimal whose digits lie in N_p groups is exact where it reports OK. -/
theorem roundReal_decimal {c : Params} (hv : c.valid = true) (p : Prec) (neg : Bool) {D : Nat} (hD : D ≠ 0) (y : Int)
    (hlt : D < 10 ^ (4 * (groupCount c p - 1) + 1))
    (hok : (roundReal c p (signFactor neg * ((D : ℝ) * (10 : ℝ) ^ y))).2 = .ok) :
    (roundReal c p (signFactor neg * ((D : ℝ) * (10 : ℝ) ^ y))).1.val (groupCount c p) =
      signFactor neg * ((D : ℝ) * (10 : ℝ) ^ y) := by
  have V := paramFacts c hv
  obtain ⟨K, e, hlead, hgroups, hvalue⟩ := decimal_eq_groups (groupCount_pos c hv p) hD y hlt
  rw [hvalue] at hok ⊢
  rw [roundReal_groups c hv p neg K e hlead hgroups] at hok ⊢
  split at hok
  · cases neg <;> cases hok
  · next hmax =>
    split at hok
    · cases neg <;> cases hok
    · next hmin =>
      have hrange : -8192 ≤ e ∧ e ≤ 8191 := by
        have := V.expMin
        have := V.expMax
        omega
      rw [if_neg hmax, if_neg hmin, val_finiteV _ _ _ _ _ _ (toGroups_lt _ _) (length_toGroups _ _).le hrange.1 hrange.2,
        fromGroups_toGroups, Nat.mod_eq_of_lt hgroups, length_toGroups]

/-- PARSE's rounding of a NUMBER of at most 12 digits at the default S, when it reports OK, is exact. -/
theorem roundReal_shown {q : NumberParts} {v : ℝ} (hq : q.Shows 12 v) (hv0 : v ≠ 0)
    (hok : (roundReal Config.default .S v).2 = .ok) :
    (roundReal Config.default .S v).1.val (groupCount Config.default .S) = v := by
  obtain ⟨hlen, hdig, hval⟩ := hq
  have hmant : fromDigits (q.ints ++ q.fracs) ≠ 0 := fun h => hv0 (hval ▸ q.value_eq_zero_iff.2 h)
  have hlt : fromDigits (q.ints ++ q.fracs) < 10 ^ (4 * (groupCount Config.default .S - 1) + 1) :=
    (fromDigits_lt hdig).trans_le (Nat.pow_le_pow_right (by decide) (hlen.trans (by decide)))
  rw [← hval, NumberParts.value, mul_assoc] at hok ⊢
  exact roundReal_decimal (by decide) .S q.neg hmant _ hlt hok

/-! ## The round trip (R111) -/

/-- PARSE at S gives a canonical S value back exactly when the text shows its value. -/
theorem parse_returns_iff {x : VReg} (hx : x.canonical Config.default .S = true) (fx : x.isFinite = true)
    {q : NumberParts} {v : ℝ} (hq : q.Shows 12 v) :
    (if v = 0 then (zeroV Config.default .S, RangeOutcome.ok) else roundReal Config.default .S v) = (x, .ok) ↔
      v = x.val (groupCount Config.default .S) := by
  have hv : Config.default.valid = true := by decide
  constructor
  · intro h
    split at h
    · next h0 =>
      obtain rfl := congrArg Prod.fst h
      rw [h0, VReg.val_eq_zero (isZero_zeroV _ _ _)]
    · next h0 =>
      have hexact := roundReal_shown hq h0 (congrArg Prod.snd h)
      rwa [h, eq_comm] at hexact
  · rintro rfl
    rcases VReg.canonical_classes hv hx with hn | hi | hz | ⟨_, zx, hcopy⟩
    · rw [hn] at fx
      cases fx
    · rw [hi] at fx
      cases fx
    · rw [if_pos (hz ▸ VReg.val_eq_zero (isZero_zeroV _ _ _)), ← hz]
    · rw [if_neg (VReg.val_ne_zero fx zx), roundReal_val hv (wf_of_canonical _ _ x hx) fx zx, hcopy]

theorem NumberParts.digitCount_le (q : NumberParts) : q.digitCount ≤ (q.ints ++ q.fracs).length :=
  (List.dropWhile_sublist _).length_le

/-- Settles O37: the grouped and the ungrouped text are NUMBERs that show the same decimal, so PARSE rounds that decimal
for both; the sentinel is no character of a NUMBER. -/
theorem formattedTextParses : Obligations.FormattedTextParses := by
  intro p p' x mode dig loc _ fx
  have hnumber (grp : Bool) := formatValue_denotes (c := Config.default) (by decide) p fx mode dig grp loc
  have hcount {q : NumberParts} {v : ℝ} (hq : q.Shows 12 v) : q.digitCount ≤ Config.default.maxParseDigits :=
    (q.digitCount_le.trans hq.length).trans (by decide)
  have hparse (p' : Prec) (grp : Bool) :
      parseText Config.default p' loc (formatValue Config.default p x mode dig grp loc) =
        some (if displayedValue Config.default p x mode dig = 0 then (zeroV Config.default p', .ok)
          else roundReal Config.default p' (displayedValue Config.default p x mode dig)) := by
    obtain ⟨q, hq, hs⟩ := hnumber grp
    rw [← hs.value]
    exact parseText_of_numberOf _ p' hq (hcount hs)
  obtain ⟨q, hq, hs⟩ := hnumber false
  refine ⟨⟨q, hq, hcount hs, hs.value⟩, hparse p' false, (hparse p' true).trans (hparse p' false).symm,
    fun grp cap h => parseText_truncated p' loc h, ?_⟩
  rintro rfl hx
  rw [hparse .S false, Option.some.injEq]
  exact parse_returns_iff hx fx hs

end Sys2Proof.Machine
end

section
/-! PROOFS. The scanner of spec/45_parse.md accepts nothing but NUMBERs (R114), and PARSE follows its pseudocode (R112,
R115..R117). -/

namespace Sys2Proof.Machine

open Config (Params)

/-! ## What each part of the scanner takes is that part of the grammar (R114) -/

theorem scanSign_sound (t : Text) : ∃ s, s ++ (scanSign t).2 = t ∧ SignOf s (scanSign t).1 := by
  cases t with
  | nil => exact ⟨[], rfl, .inl ⟨rfl, rfl⟩⟩
  | cons b t =>
    rw [scanSign]
    split
    · next h => exact ⟨[b], rfl, .inr (.inr ⟨by rw [h], rfl⟩)⟩
    · split
      · next h => exact ⟨[b], rfl, .inr (.inl ⟨by rw [h], rfl⟩)⟩
      · exact ⟨[], rfl, .inl ⟨rfl, rfl⟩⟩

theorem scanDigits_sound (t : Text) : ∃ v, v ++ (scanDigits t).2 = t ∧ DigitsOf v (scanDigits t).1 := by
  induction t with
  | nil => exact ⟨[], rfl, by simp, rfl⟩
  | cons b t ih =>
    obtain ⟨v, ht, hv, hds⟩ := ih
    unfold scanDigits
    split
    · next hb => exact ⟨b :: v, congrArg (b :: ·) ht, List.forall_mem_cons.2 ⟨hb, hv⟩, congrArg (digitVal b :: ·) hds⟩
    · exact ⟨[], rfl, by simp, rfl⟩

/-- An INTPART is a tail that begins with a digit. -/
theorem IntTailOf.intPartOf {sep : Byte} (hsep : isDigit sep = false) {v : Text} {ds : List Nat}
    (h : IntTailOf sep v ds) (hv : startsDigit v = true) : IntPartOf sep v ds := by
  cases h with
  | nil => cases hv
  | digit b u es hb hu => exact ⟨b, u, es, rfl, hb, hu, rfl⟩
  | sepDigit b u es _ _ => exact absurd (hsep.symm.trans hv) (by decide)

/-- A separator may stand before a tail that begins with a digit. -/
theorem IntTailOf.sep_cons {sep : Byte} (hsep : isDigit sep = false) {v : Text} {ds : List Nat}
    (h : IntTailOf sep v ds) (hv : startsDigit v = true) : IntTailOf sep (sep :: v) ds := by
  obtain ⟨b, u, es, rfl, hb, hu, rfl⟩ := h.intPartOf hsep hv
  exact .sepDigit b u es hb hu

/-- What is taken begins with a digit where the text does, which a separator before it needs. -/
theorem scanIntTail_sound {sep : Byte} (hsep : isDigit sep = false) (t : Text) :
    ∃ v, v ++ (scanIntTail sep t).2 = t ∧ IntTailOf sep v (scanIntTail sep t).1 ∧ startsDigit v = startsDigit t := by
  induction t with
  | nil => exact ⟨[], rfl, .nil, rfl⟩
  | cons b t ih =>
    obtain ⟨v, ht, hv, hstart⟩ := ih
    unfold scanIntTail
    split
    · next hb => exact ⟨b :: v, congrArg (b :: ·) ht, .digit b v _ hb hv, rfl⟩
    · next hb =>
      split
      · next hs =>
        obtain ⟨hbs, hdigit⟩ := Bool.and_eq_true_iff.1 hs
        obtain rfl : b = sep := beq_iff_eq.1 hbs
        exact ⟨b :: v, congrArg (b :: ·) ht, hv.sep_cons hsep (hstart.trans hdigit), rfl⟩
      · exact ⟨[], rfl, .nil, (Bool.eq_false_iff.2 hb).symm⟩

/-- The integer digits taken are none of the text, or an INTPART. -/
theorem scanIntPart_sound {sep : Byte} (hsep : isDigit sep = false) {t rest : Text} {ints : List Nat}
    (h : scanIntPart sep t = (ints, rest)) :
    (ints = [] ∧ rest = t) ∨ ∃ v, v ++ rest = t ∧ IntPartOf sep v ints := by
  unfold scanIntPart at h
  split at h
  · next hstart =>
    obtain ⟨v, ht, hv, hv'⟩ := scanIntTail_sound hsep t
    rw [h] at ht hv
    exact .inr ⟨v, ht, hv.intPartOf hsep (hv'.trans hstart)⟩
  · cases h
    exact .inl ⟨rfl, rfl⟩

theorem scanMantissa_sound {radix sep : Byte} (hsep : isDigit sep = false) {t rest : Text} {ints fracs : List Nat}
    (h : scanMantissa radix sep t = some (ints, fracs, rest)) :
    ∃ m, m ++ rest = t ∧ MantissaOf radix sep m ints fracs := by
  have hint {is : List Nat} {u : Text} (hs : scanIntPart sep t = (is, u)) (hne : is ≠ []) :
      ∃ m, m ++ u = t ∧ MantissaOf radix sep m is [] := by
    obtain ⟨m, ht, hm⟩ := (scanIntPart_sound hsep hs).resolve_left fun h => hne h.1
    exact ⟨m, ht, .inl ⟨hm, rfl⟩⟩
  unfold scanMantissa at h
  split at h
  · next hs =>
    split at h
    · cases h
    · next hne =>
      cases h
      exact hint hs hne
  · next b u hs =>
    split at h
    · next hb =>
      subst hb
      split at h
      · cases h
      · next hne =>
        cases h
        obtain ⟨v, hu, hv⟩ := scanDigits_sound u
        rcases scanIntPart_sound hsep hs with ⟨rfl, rfl⟩ | ⟨m, rfl, hm⟩
        · refine ⟨b :: v, congrArg (b :: ·) hu, .inr (.inr ⟨v, rfl, ?_, hv, rfl⟩)⟩
          rintro rfl
          exact hne (by simp [hv.2])
        · exact ⟨m ++ b :: v, by simp [hu], .inr (.inl ⟨m, v, rfl, hm, hv⟩)⟩
    · split at h
      · cases h
      · next hne =>
        cases h
        exact hint hs hne

theorem scanExponent_sound {t : Text} {x : Int} (h : scanExponent t = some x) : ExponentOf t x := by
  cases t with
  | nil => exact .inl ⟨rfl, (Option.some.inj h).symm⟩
  | cons b t =>
    obtain ⟨s, ht, hs⟩ := scanSign_sound t
    obtain ⟨v, hrest, hv⟩ := scanDigits_sound (scanSign t).2
    simp only [scanExponent] at h
    split at h
    · next hE =>
      split at h
      · cases h
      · next hds =>
        obtain ⟨hne, hend⟩ := not_or.1 hds
        rw [not_not.1 hend, List.append_nil] at hrest
        rw [← hrest] at ht
        exact .inr ⟨b, s, v, _, _, by rw [ht], hE, hs, hv, hne, (Option.some.inj h).symm⟩
    · cases h

/-- The scanner accepts nothing but NUMBERs, with their parts. -/
theorem numberOf_of_scanNumber {radix sep : Byte} (hsep : isDigit sep = false) {t : Text} {q : NumberParts}
    (h : scanNumber radix sep t = some q) : NumberOf radix sep t q := by
  obtain ⟨s, ht, hs⟩ := scanSign_sound t
  simp only [scanNumber] at h
  split at h
  · cases h
  · next hm =>
    split at h
    · cases h
    · next he =>
      cases h
      obtain ⟨m, hrest, hm⟩ := scanMantissa_sound hsep hm
      exact ⟨s, m, _, by rw [List.append_assoc, hrest, ht], hs, hm, scanExponent_sound he⟩

/-- Settles O34: each part of the scanner takes a text of the grammar, and the scanner reads every NUMBER. -/
theorem scannerIsGrammar : Obligations.ScannerIsGrammar := fun loc _ _ =>
  ⟨numberOf_of_scanNumber (isDigit_sepOf loc), scanNumber_of_numberOf⟩

/-! ## PARSE (R112, R115..R117) -/

/-- A text that is no NUMBER within the digit limit is a SYNTAX_ERROR. -/
theorem parseText_eq_none (c : Params) (p : Prec) {loc : Loc} {t : Text}
    (h : ¬ ∃ q, NumberOf (radixOf loc) (sepOf loc) t q ∧ q.digitCount ≤ c.maxParseDigits) :
    parseText c p loc t = none := by
  unfold parseText
  split
  · rfl
  · next q hscan =>
    exact if_pos (Nat.lt_of_not_le fun hd => h ⟨q, numberOf_of_scanNumber (isDigit_sepOf loc) hscan, hd⟩)

/-- Settles O35: within the buffer PARSE writes back what the text parses to: the rounded NUMBER, or SYNTAX_ERROR where
the scanner finds none. -/
theorem parseFollowsPseudocode : Obligations.ParseFollowsPseudocode := by
  intro s p rd loc len _ hlen text
  have hexec : exec (.parse p rd loc len) s = .next (writeParsed rd (parseText s.cfg p loc text) s) :=
    withBuffer_ok _ _ _ hlen
  constructor
  · intro q hq hd
    rw [parseText_of_numberOf s.cfg p hq hd] at hexec
    simp only [q.value_eq_zero_iff] at hexec
    exact ⟨_, hexec, writeResult_writes s rd _⟩
  · intro hno
    rw [parseText_eq_none s.cfg p hno] at hexec
    exact ⟨_, hexec, setOutcome_writes s .syntaxError⟩

end Sys2Proof.Machine
end

section
/-! PROOFS. The statements of spec/60_exceptions.md: every command ends in a next state, and a pending fault discards
command words. -/

namespace Sys2Proof.Machine

/-- Settles O41: each effect a command can have is a next state, fault entry included. -/
theorem everyCommandEnds : Obligations.EveryCommandEnds := by
  intro i s
  obtain ⟨t, hexec, _⟩ := exec_effect i s
  exact ⟨t, hexec⟩

/-- Settles O43: the access is a write of CMD, and issuing a word while a fault is pending discards it undecoded. -/
theorem pendingFaultDiscards : Obligations.PendingFaultDiscards := by
  intro s w rest f h hf
  calc step s = issue w { s with pending := rest } := step_writeControl h rfl (by decide)
    _ = .next { s with pending := rest } := issue_discards (s := { s with pending := rest }) hf w

end Sys2Proof.Machine
end

section
/-! PROOFS. The statements of spec/70_reset_and_hazards.md: PARSE depends on nothing but its LEN bytes, the parameters
and V[RD], and what the reset input sets. -/

namespace Sys2Proof.Machine

/-! ## PARSE reads LEN bytes of TBUF (R113, R138) -/

theorem State.memRead_congr {s s' : State} {a n : Nat} (h : ∀ i < n, s'.readByte (a + i) = s.readByte (a + i)) :
    s'.memRead a n = s.memRead a n :=
  List.map_congr_left fun i hi => h i (List.mem_range.1 hi)

theorem exec_parse_ok (p : Prec) (rd : RegId) (loc : Loc) {len : BitVec 8} {s : State}
    (hlen : len.toNat ≤ s.cfg.tbufSize) :
    exec (.parse p rd loc len) s = .next (writeParsed rd (parseText s.cfg p loc (s.memRead 0 len.toNat)) s) :=
  withBuffer_ok _ _ _ hlen

/-- Of the state it writes back to, PARSE shows in V[RD] only the old V[RD], kept by a SYNTAX_ERROR. -/
theorem getV_writeParsed (rd : RegId) (r : Option Result) (s : State) :
    (writeParsed rd r s).getV rd = (r.map Prod.fst).getD (s.getV rd) := by
  cases r with
  | none => exact State.getV_setOutcome s .syntaxError rd
  | some r => exact (writeResult_writes s rd r).value

theorem outcome_writeParsed (rd : RegId) (r : Option Result) (s : State) :
    (writeParsed rd r s).status.outcome = (r.map Prod.snd).getD .syntaxError := by
  cases r with
  | none => rfl
  | some r => rw [writeParsed, (writeResult_writes s rd r).status]; rfl

/-- Settles O36: both states parse the same LEN bytes under the same parameters, and the write-back of one parsed result
shows nothing of the state but the old V[RD]. -/
theorem parseReadsOnlyItsBytes : Obligations.ParseReadsOnlyItsBytes := by
  intro s s' t t' p rd loc len hcfg hrd hbytes hlen ht ht'
  have htext : s'.memRead 0 len.toNat = s.memRead 0 len.toNat :=
    State.memRead_congr fun i hi => by simpa using hbytes i hi
  rw [exec_parse_ok p rd loc hlen] at ht
  rw [exec_parse_ok p rd loc (hcfg ▸ hlen), hcfg, htext] at ht'
  cases ht
  cases ht'
  simp only [getV_writeParsed, outcome_writeParsed, hrd, and_self]

/-! ## The reset input (R132, R41) -/

@[simp] theorem status_powerOnReset (s : State) : (powerOnReset s).status = Status.reset := rfl

@[simp] theorem Status.word_reset : Status.reset.word = 0 := rfl

/-- Settles O56: the step is the power-on reset of the state whose next access is taken. -/
theorem resetInput : Obligations.ResetInput := by
  intro s rest h
  exact ⟨_, step_reset s rest h, getV_powerOnReset _, by simp, rfl, rfl, rfl⟩

end Sys2Proof.Machine
end
